-- ==== Sys2Proof/Word.lean ====
section
/-! DEFINITION. The value types of the engine: bytes, 16-bit results, 64-bit command words, device numbers. -/

namespace Sys2Proof

/-- A byte of storage, of the peripheral data registers, or an 8-bit register (20_memory.md R87). -/
abbrev Byte := BitVec 8

/-- A 16-bit value: a status word, every `res` value, the baud divisor (R87, 00_scope.md R15). -/
abbrev Half := BitVec 16

/-- A 64-bit command word (30_encoding.md R110). -/
abbrev Word := BitVec 64

/-- A device number as a command can name it, `W[6:4]`; a device exists when it is below NDEV (00_scope.md R12,
30_encoding.md R113). -/
abbrev Dev := Fin 8

end Sys2Proof
end

