-- ==== Sys2Proof/Config.lean ====
section
/-! DEFINITION. The parameters of the engine (00_scope.md section 3) and the values the spec leaves free. -/

namespace Sys2Proof

/-- The hardware flag the second phase of CLOSE waits on, parameter `CLOSE_WAIT` (00_scope.md R13, R222). -/
inductive CloseWait where
  /-- transmit data register empty, `hw_dre` (the default) -/
  | dre
  /-- transmit complete, `hw_txc` -/
  | txc
deriving DecidableEq, Repr

/-- The build-time parameters (00_scope.md R10 to R13). The capacity is given by its logarithm, so it is a power
of two, and the bounds are fields, so no value of this type breaks R383. -/
structure Config where
  /-- `K`, 0 to 15: log2 of the capacity of every ring buffer -/
  k : Fin 16
  /-- `NDEV`, 1 to 8: the number of devices -/
  ndev : Nat
  ndev_pos : 1 ≤ ndev
  ndev_le : ndev ≤ 8
  closeWait : CloseWait
deriving DecidableEq, Repr

/-- `CAP = 2^K` (00_scope.md R10). -/
def Config.cap (c : Config) : Nat := 2 ^ c.k.val

/-- The value taken where nothing else is said: K = 5, NDEV = 8, CLOSE_WAIT = DRE (the table of 00_scope.md
section 3; log 2). -/
def Config.reference : Config := ⟨5, 8, by decide, by decide, .dre⟩

/-- Why a configuration is refused before any rule applies (70_reset_and_hazards.md R383, R392). -/
inductive ConfigError where
  /-- the capacity is not a power of two, or is above 2^15 (R10) -/
  | badCapacity
  /-- NDEV is not in 1..8 (R12) -/
  | badDeviceCount
deriving DecidableEq, Repr

/-- Build a configuration from a capacity and a device count, refusing at configuration time what R10, R12, R383
and R392 forbid. -/
def Config.build (cap ndev : Nat) (w : CloseWait) : Except ConfigError Config :=
  match (List.finRange 16).find? (fun k => 2 ^ k.val == cap) with
  | none => .error .badCapacity
  | some k => if h : 1 ≤ ndev ∧ ndev ≤ 8 then .ok ⟨k, ndev, h.1, h.2, w⟩ else .error .badDeviceCount

/-- FREE VALUE: the byte the n-th `draw8()` gives (00_scope.md R17, 42_transfer.md R252, 93 U3; log 4). It has no
body: no proof can see a value of it. -/
opaque Config.freeByte : Nat → Byte

/-- FREE VALUE: what slot `i` of storage space `n` (2d for `D[d].RX`, 2d+1 for `D[d].TX`) holds before its first
write (10_state.md R38, 93 U19; log 3). It has no body. -/
opaque Config.powerOnByte : Nat → Nat → Byte

end Sys2Proof
end

