-- ==== Sys2Proof/Syntax.lean ====
section
/-! DEFINITION. The instructions: one constructor per row of spec/opcode_table.json, 15 commands and 2 vectors. -/

namespace Sys2Proof

/-- The buffer an RB_* command selects, `SEL = W[7]` (30_encoding.md R110, R114). -/
inductive Sel where
  /-- `SEL = 0`: `D[d].RX` -/
  | rx
  /-- `SEL = 1`: `D[d].TX` -/
  | tx
deriving DecidableEq, Repr

/-- The two interrupt sources of a device (60_exceptions.md R350), `kind` of a vector id (30_encoding.md R119). -/
inductive Kind where
  /-- `kind = 0`: receive complete -/
  | rxc
  /-- `kind = 1`: data register empty -/
  | dre
deriving DecidableEq, Repr

/-- The commands of 30_encoding.md R112 and the two service steps of R119, with their operands (R114). -/
inductive Instr where
  /-- CONFIGURE (R200) -/
  | configure (d : Dev) (port route txmask rxmask : Byte)
  /-- INITIALIZE (R210) -/
  | init (d : Dev) (baud : Half)
  /-- SEND_BYTE (R240) -/
  | sendByte (d : Dev) (b : Byte)
  /-- SEND_SEQ (R245): the bytes `B0 .. B(n-1)`; `n` is their number -/
  | sendSeq (d : Dev) (bytes : List Byte)
  /-- READ_BYTE (R250) -/
  | readByte (d : Dev)
  /-- RX_COUNT (R260) -/
  | rxCount (d : Dev)
  /-- CLOSE (R220) -/
  | close (d : Dev)
  /-- RB_RESET (R170) -/
  | rbReset (d : Dev) (sel : Sel)
  /-- RB_INSERT (R171) -/
  | rbInsert (d : Dev) (sel : Sel) (b : Byte)
  /-- RB_REMOVE (R172) -/
  | rbRemove (d : Dev) (sel : Sel)
  /-- RB_FULL (R173) -/
  | rbFull (d : Dev) (sel : Sel)
  /-- RB_EMPTY (R174) -/
  | rbEmpty (d : Dev) (sel : Sel)
  /-- ENV_RX (R310) -/
  | envRx (d : Dev) (data status : Byte)
  /-- ENV_TXDONE (R312) -/
  | envTxDone (d : Dev)
  /-- ENV_GIE (R314) -/
  | envGie (v : Bool)
  /-- RXC, the receive-complete service step, vector 2d (R281) -/
  | rxc (d : Dev)
  /-- DRE, the data-register-empty service step, vector 2d+1 (R291, R292) -/
  | dre (d : Dev)
deriving DecidableEq, Repr

/-- The device operand; ENV_GIE has none (30_encoding.md R113). -/
def Instr.dev? : Instr → Option Dev
  | .configure d _ _ _ _ => some d
  | .init d _ => some d
  | .sendByte d _ => some d
  | .sendSeq d _ => some d
  | .readByte d => some d
  | .rxCount d => some d
  | .close d => some d
  | .rbReset d _ => some d
  | .rbInsert d _ _ => some d
  | .rbRemove d _ => some d
  | .rbFull d _ => some d
  | .rbEmpty d _ => some d
  | .envRx d _ _ => some d
  | .envTxDone d => some d
  | .envGie _ => none
  | .rxc d => some d
  | .dre d => some d

end Sys2Proof
end

