-- ==== Sys2Proof/WellFormed.lean ====
section
/-! DEFINITION. Which instructions a machine with NDEV devices has. -/

namespace Sys2Proof

/-- The device operand names a device that exists: `d < NDEV` (30_encoding.md R113). -/
def deviceOk (ndev : Nat) (i : Instr) : Bool :=
  match i.dev? with
  | some d => d.val < ndev
  | none => true

/-- SEND_SEQ carries 0 to 6 bytes; `n = 7` is illegal (30_encoding.md R111, R115). -/
def lengthOk : Instr → Bool
  | .sendSeq _ bytes => bytes.length ≤ 6
  | .configure _ _ _ _ _ => true
  | .init _ _ => true
  | .sendByte _ _ => true
  | .readByte _ => true
  | .rxCount _ => true
  | .close _ => true
  | .rbReset _ _ => true
  | .rbInsert _ _ _ => true
  | .rbRemove _ _ => true
  | .rbFull _ _ => true
  | .rbEmpty _ _ => true
  | .envRx _ _ _ => true
  | .envTxDone _ => true
  | .envGie _ => true
  | .rxc _ => true
  | .dre _ => true

/-- The instruction exists on a machine with `ndev` devices (30_encoding.md R113, R115, R117). -/
def wellFormed (ndev : Nat) (i : Instr) : Bool := deviceOk ndev i && lengthOk i

end Sys2Proof
end

