-- ==== Sys2Proof/Decode.lean ====
section
/-! DEFINITION. Decoding command words, vector ids and bytes (total, rejecting by name), and after it the encoder. -/

namespace Sys2Proof

/-! ## Bit fields and byte order -/

/-- `W[lo+len-1 : lo]` (00_scope.md R16). -/
def field (lo len : Nat) (W : Word) : BitVec len := W.extractLsb' lo len

/-- The number whose fields are given as (lowest bit, value). -/
def pack : List (Nat × Nat) → Nat
  | [] => 0
  | f :: fs => f.2 * 2 ^ f.1 + pack fs

/-- A command word serialised, low byte first (20_memory.md R85). -/
def bytesOfWord (W : Word) : List Byte := (List.range 8).map fun j => field (8 * j) 8 W

/-- The number a little-endian list of bytes stands for. -/
def natOfBytes : List Byte → Nat
  | [] => 0
  | b :: bs => b.toNat + 256 * natOfBytes bs

/-- A 16-bit status word serialised, low byte first (20_memory.md R84). -/
def bytesOfHalf (v : Half) : List Byte := [v.extractLsb' 0 8, v.extractLsb' 8 8]

/-! ## The operation map (30_encoding.md R112) -/

/-- The operations of the command words, OP 0x0 to 0xF without the reserved 0x7. -/
inductive Op where
  | configure | init | sendByte | sendSeq | readByte | rxCount | close
  | rbReset | rbInsert | rbRemove | rbFull | rbEmpty | envRx | envTxDone | envGie
deriving DecidableEq, Repr

/-- A row of the operation map: it selects `W` when `(W & mask) == pattern`. -/
structure Row where
  op : Op
  mask : Word
  pattern : Word
deriving DecidableEq, Repr

/-- The operation map, row by row (30_encoding.md R112). -/
def opTable : List Row :=
  [ ⟨.configure, 0xFFFFFF000000008F#64, 0x0000000000000000#64⟩,
    ⟨.init,      0xFFFFFFFFFF00008F#64, 0x0000000000000001#64⟩,
    ⟨.sendByte,  0xFFFFFFFFFFFF008F#64, 0x0000000000000002#64⟩,
    ⟨.sendSeq,   0x000000000000F88F#64, 0x0000000000000003#64⟩,
    ⟨.readByte,  0xFFFFFFFFFFFFFF8F#64, 0x0000000000000004#64⟩,
    ⟨.rxCount,   0xFFFFFFFFFFFFFF8F#64, 0x0000000000000005#64⟩,
    ⟨.close,     0xFFFFFFFFFFFFFF8F#64, 0x0000000000000006#64⟩,
    ⟨.rbReset,   0xFFFFFFFFFFFFFF0F#64, 0x0000000000000008#64⟩,
    ⟨.rbInsert,  0xFFFFFFFFFFFF000F#64, 0x0000000000000009#64⟩,
    ⟨.rbRemove,  0xFFFFFFFFFFFFFF0F#64, 0x000000000000000A#64⟩,
    ⟨.rbFull,    0xFFFFFFFFFFFFFF0F#64, 0x000000000000000B#64⟩,
    ⟨.rbEmpty,   0xFFFFFFFFFFFFFF0F#64, 0x000000000000000C#64⟩,
    ⟨.envRx,     0xFFFFFFFFFF00008F#64, 0x000000000000000D#64⟩,
    ⟨.envTxDone, 0xFFFFFFFFFFFFFF8F#64, 0x000000000000000E#64⟩,
    ⟨.envGie,    0xFFFFFFFFFFFFFEFF#64, 0x000000000000000F#64⟩ ]

/-- The row selects the word. -/
def Row.selects (r : Row) (W : Word) : Bool := (W &&& r.mask) == r.pattern

/-! ## Decoding -/

/-- Why bits are no instruction. Every reason a word can have raises ILLEGAL_CMD when the word is consumed
(30_encoding.md R116, R117; 60_exceptions.md R342). -/
inductive DecodeError where
  /-- OP 0x7 -/
  | reservedOp
  /-- a reserved-zero bit is set, SEL and DEV where they must be 0 among them -/
  | reservedBits
  /-- `DEV >= NDEV` -/
  | deviceAbsent
  /-- SEND_SEQ with `n = 7` -/
  | seqLength
  /-- SEND_SEQ with a non-zero byte field at an index `>= n` -/
  | seqUnusedByte
  /-- fewer than the eight bytes of a command word (a word is consumed whole: 20_memory.md R86) -/
  | truncated
deriving DecidableEq, Repr

/-- `d = W[6:4]` (30_encoding.md R113). -/
def devField (W : Word) : Dev := ⟨(field 4 3 W).toNat, (field 4 3 W).isLt⟩

/-- `sel = W[7]` (30_encoding.md R114). -/
def selField (W : Word) : Sel := if field 7 1 W = 1#1 then .tx else .rx

/-- `n = W[10:8]` of a SEND_SEQ word (30_encoding.md R114). -/
def seqCount (W : Word) : Nat := (field 8 3 W).toNat

/-- `Bj = W[23+8j : 16+8j]` of a SEND_SEQ word (30_encoding.md R114). -/
def seqByte (W : Word) (j : Nat) : Byte := field (16 + 8 * j) 8 W

/-- Every byte field at an index `>= n` is zero (30_encoding.md R115). -/
def seqUnusedZero (W : Word) : Bool :=
  (List.range 6).all fun j => decide (j < seqCount W) || seqByte W j == 0#8

/-- The instruction a word of the operation stands for (30_encoding.md R114). -/
def operands (op : Op) (W : Word) : Instr :=
  match op with
  | .configure => .configure (devField W) (field 8 8 W) (field 16 8 W) (field 24 8 W) (field 32 8 W)
  | .init => .init (devField W) (field 8 16 W)
  | .sendByte => .sendByte (devField W) (field 8 8 W)
  | .sendSeq => .sendSeq (devField W) ((List.range (seqCount W)).map (seqByte W))
  | .readByte => .readByte (devField W)
  | .rxCount => .rxCount (devField W)
  | .close => .close (devField W)
  | .rbReset => .rbReset (devField W) (selField W)
  | .rbInsert => .rbInsert (devField W) (selField W) (field 8 8 W)
  | .rbRemove => .rbRemove (devField W) (selField W)
  | .rbFull => .rbFull (devField W) (selField W)
  | .rbEmpty => .rbEmpty (devField W) (selField W)
  | .envRx => .envRx (devField W) (field 8 8 W) (field 16 8 W)
  | .envTxDone => .envTxDone (devField W)
  | .envGie => .envGie (field 8 1 W == 1#1)

/-- Decode a 64-bit word on a machine with `ndev` devices, total (30_encoding.md R116): the row, then the device,
then the SEND_SEQ value checks. -/
def decodeWord (ndev : Nat) (W : Word) : Except DecodeError Instr :=
  match opTable.find? (Row.selects · W) with
  | none => .error (if field 0 4 W = 7#4 then .reservedOp else .reservedBits)
  | some r =>
    if r.op ≠ .envGie ∧ ndev ≤ (devField W).val then .error .deviceAbsent
    else if r.op = .sendSeq ∧ seqCount W = 7 then .error .seqLength
    else if r.op = .sendSeq ∧ seqUnusedZero W = false then .error .seqUnusedByte
    else .ok (operands r.op W)

/-- Decode a vector id `V = 2*d + kind` (30_encoding.md R119). -/
def decodeVector (ndev : Nat) (V : BitVec 4) : Except DecodeError Instr :=
  let d : Dev := ⟨V.toNat / 2, by have := V.isLt; omega⟩
  if ndev ≤ d.val then .error .deviceAbsent
  else .ok (if V.toNat % 2 = 0 then .rxc d else .dre d)

/-- Decode the first command word of a little-endian byte list, and give the rest (20_memory.md R85). -/
def decodeBytes (ndev : Nat) (bs : List Byte) : Except DecodeError (Instr × List Byte) :=
  if bs.length < 8 then .error .truncated
  else match decodeWord ndev (BitVec.ofNat 64 (natOfBytes (bs.take 8))) with
    | .ok i => .ok (i, bs.drop 8)
    | .error e => .error e

/-- An item of a script whose OP is 0xD to 0xF is an environment item (44_environment.md R320). -/
def isEnvWord (W : Word) : Bool := decide (13 ≤ (field 0 4 W).toNat)

/-! ## Encoding -/

/-- SEL as a bit (30_encoding.md R110). -/
def Sel.bit : Sel → Nat
  | .rx => 0
  | .tx => 1

/-- `kind` as a bit (30_encoding.md R119). -/
def Kind.bit : Kind → Nat
  | .rxc => 0
  | .dre => 1

/-- The word with the given fields. -/
def wordOf (fs : List (Nat × Nat)) : Word := BitVec.ofNat 64 (pack fs)

/-- Format C (R111), OP 0x0. -/
def encConfigure (d : Dev) (port route txmask rxmask : Byte) : Word :=
  wordOf [(0, 0x0), (4, d.val), (8, port.toNat), (16, route.toNat), (24, txmask.toNat), (32, rxmask.toNat)]

/-- Format I, OP 0x1. -/
def encInit (d : Dev) (baud : Half) : Word := wordOf [(0, 0x1), (4, d.val), (8, baud.toNat)]

/-- Format B, OP 0x2. -/
def encSendByte (d : Dev) (b : Byte) : Word := wordOf [(0, 0x2), (4, d.val), (8, b.toNat)]

/-- Format S, OP 0x3: the count at bit 8, byte j at bit 16 + 8j, unused bytes 0. -/
def encSendSeq (d : Dev) (bytes : List Byte) : Word :=
  wordOf [(0, 0x3), (4, d.val), (8, bytes.length), (16, natOfBytes bytes)]

/-- Format N, OP 0x4. -/
def encReadByte (d : Dev) : Word := wordOf [(0, 0x4), (4, d.val)]

/-- Format N, OP 0x5. -/
def encRxCount (d : Dev) : Word := wordOf [(0, 0x5), (4, d.val)]

/-- Format N, OP 0x6. -/
def encClose (d : Dev) : Word := wordOf [(0, 0x6), (4, d.val)]

/-- Format N+SEL, OP 0x8. -/
def encRbReset (d : Dev) (sel : Sel) : Word := wordOf [(0, 0x8), (4, d.val), (7, sel.bit)]

/-- Format B+SEL, OP 0x9. -/
def encRbInsert (d : Dev) (sel : Sel) (b : Byte) : Word :=
  wordOf [(0, 0x9), (4, d.val), (7, sel.bit), (8, b.toNat)]

/-- Format N+SEL, OP 0xA. -/
def encRbRemove (d : Dev) (sel : Sel) : Word := wordOf [(0, 0xA), (4, d.val), (7, sel.bit)]

/-- Format N+SEL, OP 0xB. -/
def encRbFull (d : Dev) (sel : Sel) : Word := wordOf [(0, 0xB), (4, d.val), (7, sel.bit)]

/-- Format N+SEL, OP 0xC. -/
def encRbEmpty (d : Dev) (sel : Sel) : Word := wordOf [(0, 0xC), (4, d.val), (7, sel.bit)]

/-- Format E, OP 0xD. -/
def encEnvRx (d : Dev) (data status : Byte) : Word :=
  wordOf [(0, 0xD), (4, d.val), (8, data.toNat), (16, status.toNat)]

/-- Format N, OP 0xE. -/
def encEnvTxDone (d : Dev) : Word := wordOf [(0, 0xE), (4, d.val)]

/-- Format G, OP 0xF. -/
def encEnvGie (v : Bool) : Word := wordOf [(0, 0xF), (8, v.toNat)]

/-- `V = 2*d + kind` (30_encoding.md R119). -/
def vectorId (d : Dev) (k : Kind) : BitVec 4 := BitVec.ofNat 4 (2 * d.val + k.bit)

/-- The bits of an instruction: a command word, or the vector id of a service step, which no word stands for
(30_encoding.md R119). -/
inductive Code where
  | word (W : Word)
  | vector (V : BitVec 4)
deriving DecidableEq, Repr

/-- The bits of a well-formed instruction (30_encoding.md R111, R112, R114, R119). -/
def encode : Instr → Code
  | .configure d port route txmask rxmask => .word (encConfigure d port route txmask rxmask)
  | .init d baud => .word (encInit d baud)
  | .sendByte d b => .word (encSendByte d b)
  | .sendSeq d bytes => .word (encSendSeq d bytes)
  | .readByte d => .word (encReadByte d)
  | .rxCount d => .word (encRxCount d)
  | .close d => .word (encClose d)
  | .rbReset d sel => .word (encRbReset d sel)
  | .rbInsert d sel b => .word (encRbInsert d sel b)
  | .rbRemove d sel => .word (encRbRemove d sel)
  | .rbFull d sel => .word (encRbFull d sel)
  | .rbEmpty d sel => .word (encRbEmpty d sel)
  | .envRx d data status => .word (encEnvRx d data status)
  | .envTxDone d => .word (encEnvTxDone d)
  | .envGie v => .word (encEnvGie v)
  | .rxc d => .vector (vectorId d .rxc)
  | .dre d => .vector (vectorId d .dre)

/-- Decode a word or a vector id. -/
def decode (ndev : Nat) : Code → Except DecodeError Instr
  | .word W => decodeWord ndev W
  | .vector V => decodeVector ndev V

/-- The host's reading of an opcode-table row: a row of at most 8 bits is a 4-bit vector id, any other row a 64-bit
command word whose missing upper bits are 0 (log 7). The word goes through its little-endian bytes (R85). -/
def decodeTableWord (nbits w : Nat) : Option Instr :=
  if nbits ≤ 8 then
    (if w < 16 then (decodeVector 8 (BitVec.ofNat 4 w)).toOption else none)
  else
    (decodeBytes 8 (bytesOfWord (BitVec.ofNat 64 w))).toOption.map Prod.fst

end Sys2Proof
end

