-- ==== Sys2Proof/Machine/State.lean ====
section
/-! DEFINITION. The state of the engine (10_state.md), the reasons a step can stop, and the state after reset. -/

namespace Sys2Proof.Machine

/-- Byte cells by index, in one canonical form: indices strictly rising, and no cell equal to what an unlisted index
reads as (`Memory.wf` in Machine/Ops.lean). Used for the storage of a ring buffer (20_memory.md R80) and for the
pin-direction registers (10_state.md R51). -/
abbrev Memory := List Host.Cell

/-- Lifecycle register `D[d].life` (10_state.md R32). -/
inductive Life where
  /-- 0: unconfigured -/
  | unconf
  /-- 1: configured -/
  | conf
  /-- 2: running -/
  | run
  /-- 3: closed -/
  | closed
deriving DecidableEq, Repr

/-- The 2-bit value of the lifecycle register (10_state.md R32). -/
def Life.bits : Life → BitVec 2
  | .unconf => 0#2
  | .conf => 1#2
  | .run => 2#2
  | .closed => 3#2

/-- One ring buffer (10_state.md R37). `hin` and `hout` are K bits and `cnt` is K+1 bits; K is a parameter, so they
are numbers here, and `RingBuffer.Ok` in Safety.lean says that they keep within their widths (log 10). -/
structure RingBuffer where
  /-- the storage `buf[0..CAP-1]` -/
  buf : Memory
  /-- next write index -/
  hin : Nat
  /-- next read index -/
  hout : Nat
  /-- number of valid bytes currently held -/
  cnt : Nat
deriving DecidableEq, Repr

/-- The record of one device (10_state.md R32 to R44). -/
structure Device where
  /-- R32 -/
  life : Life
  /-- GPIO port handle (R33) -/
  port : Byte
  /-- pin-route selector (R33) -/
  route : Byte
  /-- TX pin mask (R33) -/
  txmask : Byte
  /-- RX pin mask (R33) -/
  rxmask : Byte
  /-- baud register output (R34) -/
  baud : Half
  /-- route output (R35) -/
  routeOut : Byte
  /-- hardware receiver enable (R36) -/
  rxen : Bool
  /-- hardware transmitter enable (R36) -/
  txen : Bool
  /-- receive-complete interrupt enable (R36) -/
  rxcie : Bool
  /-- data-register-empty interrupt enable (R36) -/
  dreie : Bool
  /-- inbound ring buffer (R37) -/
  rx : RingBuffer
  /-- outbound ring buffer (R37) -/
  tx : RingBuffer
  /-- ErrorFlags register (R40) -/
  err : Byte
  /-- receive-complete pending (R42) -/
  hwRxp : Bool
  /-- received data byte (R42) -/
  hwRxd : Byte
  /-- hardware error-status byte (R42) -/
  hwRxs : Byte
  /-- transmit data register empty (R43) -/
  hwDre : Bool
  /-- transmit complete (R43) -/
  hwTxc : Bool
  /-- transmit data register (R43) -/
  hwTxd : Byte
  /-- transmit log (R44) -/
  txLog : List Byte
deriving DecidableEq, Repr

/-- Mainline phase (10_state.md R61). -/
inductive Phase where
  | idle
  /-- SEND_BYTE held on a full TX buffer -/
  | sendWait
  /-- SEND_SEQ in progress -/
  | seq
  | closeDrain
  | closeHw
  | closeSettle
deriving DecidableEq, Repr

/-- An event the environment may take at any point in open mode (44_environment.md R315). -/
inductive EnvEvent where
  /-- ENV_RX (R310) -/
  | rx (d : Dev) (data status : Byte)
  /-- ENV_TXDONE (R312) -/
  | txDone (d : Dev)
  /-- ENV_GIE (R314) -/
  | gie (v : Bool)
deriving DecidableEq, Repr

/-- A step an agent may take (44_environment.md R322 (a) to (e)). -/
inductive Choice where
  /-- (a) consume the next script item -/
  | item
  /-- (b) the mainline continuation of the current phase -/
  | mainline
  /-- (c) the RXC service step of a device -/
  | rxc (d : Dev)
  /-- (d) the DRE service step of a device -/
  | dre (d : Dev)
  /-- (e) an environment event, open mode -/
  | event (e : EnvEvent)
deriving DecidableEq, Repr

/-- The whole machine (10_state.md R30), with the parameters and the script of the run and the model's own two
fields. -/
structure State where
  /-- K, NDEV, CLOSE_WAIT (00_scope.md R10 to R13); no step writes it -/
  cfg : Config
  /-- device records; the devices of the machine are those below NDEV (R30; log 12) -/
  devs : Vector Device 8
  /-- global interrupt enable (R50) -/
  gie : Bool
  /-- pin-direction registers of the 256 ports (R51) -/
  gpioDir : Memory
  /-- the script `S` (44_environment.md R320); no step writes it -/
  script : List Word
  /-- script cursor (R60) -/
  pc : Nat
  /-- mainline phase (R61) -/
  mphase : Phase
  /-- in-flight command word (R61) -/
  mcur : Word
  /-- index of the next byte of a SEND_SEQ (R61) -/
  mseq : BitVec 3
  /-- result register (R62) -/
  res : Half
  /-- result log (R62) -/
  outLog : List Half
  /-- fault code, 0 for none (R63) -/
  faultCode : BitVec 8
  /-- faulting word (R63) -/
  faultWord : Word
  /-- MODEL'S OWN: the scheduling choices still to be taken, the open parameter SCHED as data (00_scope.md R14; log 5) -/
  sched : List Choice
  /-- MODEL'S OWN: how many free bytes `draw8()` has given (00_scope.md R17; log 4) -/
  draws : Nat
deriving DecidableEq, Repr

/-- Why `step` takes no step: no step of any agent is enabled (44_environment.md R322). None of these is a behaviour
the hardware goes on from in scripted mode, so stopping is safe (log 8). No instruction's meaning answers one. -/
inductive Fault where
  /-- raised by `step` when the fault register is set: FAULT, a final state (60_exceptions.md R340, R325). Safe. -/
  | faulted
  /-- raised by `step` when the script is consumed, the mainline idle and no service step enabled: DONE (R325). Safe. -/
  | done
  /-- raised by `step` when no step is enabled and the state is neither: STUCK (R325). Safe. -/
  | stuck
deriving DecidableEq, Repr

/-- Why there is no meaning. Every instruction has one, so nothing answers with this. -/
inductive Refusal where
  /-- raised by an arm of `exec` for an instruction not modelled yet; there is none. Safe. -/
  | notModelled (mnemonic : String)
deriving DecidableEq, Repr

/-- What a step answers. -/
abbrev Result := Host.Outcome State Fault Refusal

/-- An empty ring buffer as power-on leaves it; its storage lists nothing (10_state.md R38; log 3). -/
def RingBuffer.reset : RingBuffer := ⟨[], 0, 0, 0⟩

/-- A device after power-on (the reset table of 10_state.md). The four configuration fields are unspecified there
(R33) and 0 here (log 1). -/
def Device.reset : Device where
  life := .unconf
  port := 0#8
  route := 0#8
  txmask := 0#8
  rxmask := 0#8
  baud := 0#16
  routeOut := 0#8
  rxen := false
  txen := false
  rxcie := false
  dreie := false
  rx := RingBuffer.reset
  tx := RingBuffer.reset
  err := 0x00#8
  hwRxp := false
  hwRxd := 0x00#8
  hwRxs := 0x00#8
  hwDre := true
  hwTxc := false
  hwTxd := 0x00#8
  txLog := []

/-- The machine right after power-on reset with the parameters `c` and the script `S` (70_reset_and_hazards.md R380,
10_state.md reset table). -/
def State.powerOn (c : Config) (S : List Word) : State where
  cfg := c
  devs := Vector.replicate 8 Device.reset
  gie := false
  gpioDir := []
  script := S
  pc := 0
  mphase := .idle
  mcur := 0#64
  mseq := 0#3
  res := 0#16
  outLog := []
  faultCode := 0#8
  faultWord := 0#64
  sched := []
  draws := 0

/-- The machine right after power-on reset, with the spec's default parameters and no script loaded (R380; log 2,
log 6). -/
def State.reset : State := State.powerOn Config.reference []

end Sys2Proof.Machine
end

