-- ==== Sys2Proof/Machine/Ops.lean ====
section
/-! DEFINITION. The shared operations over memory, ring buffers, registers and the fault register. -/

namespace Sys2Proof.Machine

/-! ## Memory in canonical form -/

/-- The two kinds of byte cells of the machine. -/
inductive Space where
  /-- the storage of a ring buffer (20_memory.md R80) -/
  | storage
  /-- the pin-direction registers (10_state.md R51) -/
  | gpio
deriving DecidableEq, Repr

/-- What an unlisted index reads as: no value in a buffer's storage, whose contents at reset are unspecified (R38,
93 U19; log 3), and 0x00 in the pin-direction registers, which are 0x00 at reset (R51). -/
def Space.unlisted : Space → Option Byte
  | .storage => none
  | .gpio => some 0x00#8

/-- The value at an index, where `u` is what an unlisted index reads as. -/
def memLookup (u : Option Byte) : Memory → Nat → Option Byte
  | [], _ => u
  | c :: m, a => if c.1 = a then some c.2 else memLookup u m a

/-- Put a cell in front, unless it says only what an unlisted index reads as. -/
def memCons (u : Option Byte) (a : Nat) (v : Byte) (m : Memory) : Memory :=
  if some v = u then m else (a, v) :: m

/-- Write one byte, keeping the canonical form. -/
def memStore (u : Option Byte) : Memory → Nat → Byte → Memory
  | [], a, v => memCons u a v []
  | c :: m, a, v =>
    if a < c.1 then memCons u a v (c :: m)
    else if a = c.1 then memCons u a v m
    else c :: memStore u m a v

/-- The canonical form: indices strictly rising, and no cell equal to what an unlisted index reads as. -/
def Memory.wf (u : Option Byte) : Memory → Bool
  | [] => true
  | c :: m => decide (some c.2 ≠ u) && m.all (fun c' => decide (c.1 < c'.1)) && Memory.wf u m

/-! ## Ring buffers (40_ringbuffer.md section 1) -/

/-- `is_full(B)` (10_state.md R41). -/
def ringFull (cap : Nat) (B : RingBuffer) : Bool := B.cnt == cap

/-- `is_empty(B)` (10_state.md R41). -/
def ringEmpty (B : RingBuffer) : Bool := B.cnt == 0

/-- An index advances by one and wraps by the mask (20_memory.md R82, 40_ringbuffer.md R165). -/
def ringAdvance (cap i : Nat) : Nat := (i + 1) &&& (cap - 1)

/-- `MemRead(B, i, 1)` (00_scope.md R17). `fill` is what the storage of this buffer held at power-on (log 3). -/
def ringRead (fill : Nat → Byte) (B : RingBuffer) (i : Nat) : Byte :=
  (memLookup Space.storage.unlisted B.buf i).getD (fill i)

/-- `MemWrite(B, i, 1, v)` (00_scope.md R17). -/
def ringWrite (B : RingBuffer) (i : Nat) (v : Byte) : RingBuffer :=
  { B with buf := memStore Space.storage.unlisted B.buf i v }

/-- `reset(B)` (40_ringbuffer.md R160): the storage is not written. -/
def ringReset (B : RingBuffer) : RingBuffer := { B with hin := 0, hout := 0, cnt := 0 }

/-- The slot `insert(B, b)` writes (R163). -/
def insertSlot (B : RingBuffer) : Nat := B.hin

/-- The slot `remove(B)` reads (R164). -/
def removeSlot (B : RingBuffer) : Nat := B.hout

/-- `insert(B, b)` (R163); its callers check that the buffer is not full (R161). -/
def ringInsert (cap : Nat) (B : RingBuffer) (b : Byte) : RingBuffer :=
  let B' := ringWrite B (insertSlot B) b
  { B' with hin := ringAdvance cap B.hin, cnt := B.cnt + 1 }

/-- The byte `remove(B)` returns (R164). -/
def ringHead (fill : Nat → Byte) (B : RingBuffer) : Byte := ringRead fill B (removeSlot B)

/-- What `remove(B)` leaves (R164): the slot keeps its value; its callers check that the buffer is not empty (R162). -/
def ringDrop (cap : Nat) (B : RingBuffer) : RingBuffer :=
  { B with hout := ringAdvance cap B.hout, cnt := B.cnt - 1 }

/-! ## Devices -/

/-- `D[d]`. -/
def State.dev (s : State) (d : Dev) : Device := s.devs[d]

/-- Replace the record of device `d`. -/
def State.setDev (s : State) (d : Dev) (x : Device) : State := { s with devs := s.devs.set d x }

/-- `CAP` (00_scope.md R10). -/
def State.cap (s : State) : Nat := s.cfg.cap

/-- `pc <- pc + 1` (10_state.md R60). -/
def advancePc (s : State) : State := { s with pc := s.pc + 1 }

/-- `emit(v)` (10_state.md R62). -/
def emit (v : Half) (s : State) : State := { s with res := v, outLog := s.outLog ++ [v] }

/-! ## Taking a fault (60_exceptions.md R340) -/

/-- The causes of a fault (60_exceptions.md R341). -/
inductive FaultCode where
  | illegalCmd
  | badState
  | rbInsertFull
  | rbRemoveEmpty
  | envRxOverrun
deriving DecidableEq, Repr

/-- The code of a cause (60_exceptions.md R341). -/
def faultNumber : FaultCode → BitVec 8
  | .illegalCmd => 1#8
  | .badState => 2#8
  | .rbInsertFull => 3#8
  | .rbRemoveEmpty => 4#8
  | .envRxOverrun => 5#8

/-- `raise Fault(c, w)` (60_exceptions.md R340, 10_state.md R63): the fault register is written when it says no fault,
and nothing else of the step happens. The hardware has no handler and no return (R340). -/
def raiseFault (c : FaultCode) (w : Word) (s : State) : State :=
  if s.faultCode = 0#8 then { s with faultCode := faultNumber c, faultWord := w } else s

/-- The legality check of a command (60_exceptions.md R345) before its start step (44_environment.md R321): BAD_STATE
where the table says BAD. -/
def whenLegal (ok : Life → Bool) (d : Dev) (W : Word) (s : State) (r : Result) : Result :=
  if ok (s.dev d).life then r else .next (raiseFault .badState W s)

/-! ## Pin wiring (41_lifecycle.md R212) -/

/-- `gpio_dir[p]` (10_state.md R51). -/
def gpioRead (m : Memory) (p : Byte) : Byte := (memLookup Space.gpio.unlisted m p.toNat).getD 0x00#8

/-- `gpio_dir[p] <- v`. -/
def gpioWrite (m : Memory) (p : Byte) (v : Byte) : Memory := memStore Space.gpio.unlisted m p.toNat v

/-- The new direction of a port: RX pins input, TX pins output, a pin in both an output (R212). -/
def wiredDir (old rxmask txmask : Byte) : Byte := (old &&& ~~~rxmask) ||| txmask

/-- `wire_pins(d)` (R212). -/
def wirePins (d : Dev) (s : State) : State :=
  let D := s.dev d
  let s := s.setDev d { D with routeOut := D.route }
  { s with gpioDir := gpioWrite s.gpioDir D.port (wiredDir (gpioRead s.gpioDir D.port) D.rxmask D.txmask) }

end Sys2Proof.Machine
end

