-- ==== Sys2Proof/Machine/Operands.lean ====
section
/-! DEFINITION. Operand forms: the buffer an operand selects, the operands of the in-flight command word, and the
lifecycle states each command is legal in. -/

namespace Sys2Proof.Machine

/-- The storage space of a buffer: 2d for RX, 2d+1 for TX (20_memory.md R80: exactly 2*NDEV spaces). -/
def spaceOf (d : Dev) (sel : Sel) : Nat := 2 * d.val + sel.bit

/-- What the storage of a buffer held at power-on (10_state.md R38; log 3). -/
def powerOnFill (d : Dev) (sel : Sel) : Nat → Byte := Config.powerOnByte (spaceOf d sel)

/-- `B = (sel == 0) ? D[d].RX : D[d].TX` (30_encoding.md R114). -/
def State.buffer (s : State) (d : Dev) : Sel → RingBuffer
  | .rx => (s.dev d).rx
  | .tx => (s.dev d).tx

/-- Replace a buffer. -/
def State.setBuffer (s : State) (d : Dev) (sel : Sel) (B : RingBuffer) : State :=
  match sel with
  | .rx => s.setDev d { s.dev d with rx := B }
  | .tx => s.setDev d { s.dev d with tx := B }

/-- One byte of storage, `D[d].RX.buf[i]` or `D[d].TX.buf[i]`. -/
def State.storageByte (s : State) (d : Dev) (sel : Sel) (i : Nat) : Byte :=
  ringRead (powerOnFill d sel) (s.buffer d sel) i

/-- `reset(B)` on a buffer of the machine (40_ringbuffer.md R160). -/
def resetBuffer (d : Dev) (sel : Sel) (s : State) : State := s.setBuffer d sel (ringReset (s.buffer d sel))

/-- `insert(B, b)` on a buffer of the machine (R163). -/
def insertByte (d : Dev) (sel : Sel) (b : Byte) (s : State) : State :=
  s.setBuffer d sel (ringInsert s.cap (s.buffer d sel) b)

/-- The byte `remove(B)` returns on a buffer of the machine (R164). -/
def headByte (d : Dev) (sel : Sel) (s : State) : Byte := ringHead (powerOnFill d sel) (s.buffer d sel)

/-- What `remove(B)` does to a buffer of the machine (R164). -/
def dropByte (d : Dev) (sel : Sel) (s : State) : State := s.setBuffer d sel (ringDrop s.cap (s.buffer d sel))

/-! ## The in-flight command word -/

/-- `d = mcur[6:4]` (42_transfer.md R241, R246; 41_lifecycle.md R221). -/
def mcurDev (s : State) : Dev := devField s.mcur

/-- `b = mcur[15:8]` (R241). -/
def mcurByte (s : State) : Byte := field 8 8 s.mcur

/-- `n = mcur[10:8]` (R246). -/
def mcurCount (s : State) : BitVec 3 := field 8 3 s.mcur

/-- `b <- mcur[23 + 8*j : 16 + 8*j]` with `j = mseq` (R246). -/
def mcurSeqByte (s : State) : Byte := seqByte s.mcur s.mseq.toNat

/-! ## The legality table (60_exceptions.md R345) -/

/-- INITIALIZE. -/
def legalInit : Life → Bool
  | .unconf => false
  | .conf => true
  | .run => false
  | .closed => true

/-- SEND_BYTE, SEND_SEQ, CLOSE. -/
def legalRun : Life → Bool
  | .unconf => false
  | .conf => false
  | .run => true
  | .closed => false

/-- READ_BYTE, RX_COUNT. -/
def legalRead : Life → Bool
  | .unconf => false
  | .conf => false
  | .run => true
  | .closed => true

/-- RB_RESET, RB_INSERT, RB_REMOVE, RB_FULL, RB_EMPTY (40_ringbuffer.md R175). -/
def legalTestPort : Life → Bool
  | .unconf => true
  | .conf => true
  | .run => false
  | .closed => true

end Sys2Proof.Machine
end

