-- ==== Sys2Proof/Machine/Flags.lean ====
section
/-! DEFINITION. The ErrorFlags register and the status word (10_state.md R40, 30_encoding.md R120 to R123), and the
enable conditions of the two interrupt sources. -/

namespace Sys2Proof.Machine

/-- `HWMASK`: PE, FE and BOVF (30_encoding.md R123). -/
def hwMask : Byte := 0x46#8

/-- `ERRMASK`: every bit `err` can hold (30_encoding.md R123). -/
def errMask : Byte := 0x47#8

/-- NODATA, bit 0 (10_state.md R40). -/
def nodataBit : Byte := 0x01#8

/-- BOVF, bit 6 (10_state.md R40). -/
def bovfBit : Byte := 0x40#8

/-- `s & 0x46`: what a stored byte's status leaves in `err` (43_isr.md R282). -/
def captureFlags (status : Byte) : Byte := status &&& hwMask

/-- `(s & 0x46) | 0x40`: what a dropped byte's status leaves in `err` (43_isr.md R283). -/
def dropFlags (status : Byte) : Byte := (status &&& hwMask) ||| bovfBit

/-- `err | 0x01`: what an empty read leaves in `err` (42_transfer.md R252). -/
def emptyReadFlags (err : Byte) : Byte := err ||| nodataBit

/-- `(zext_16(flags) << 8) | zext_16(data)` (30_encoding.md R120). -/
def statusWord (flags data : Byte) : Half := (flags.setWidth 16 <<< 8) ||| data.setWidth 16

/-- The status word of a read that found a byte (42_transfer.md R251). -/
def dataStatus (err data : Byte) : Half := statusWord (err &&& hwMask) data

/-- The status word of an empty read, `err` being its value after NODATA is set (42_transfer.md R252). -/
def nodataStatus (err low : Byte) : Half := statusWord (err &&& errMask) low

/-- A truth value as a 16-bit result, 0x0001 or 0x0000 (40_ringbuffer.md R173, R174). -/
def boolResult (b : Bool) : Half := if b then 0x0001#16 else 0x0000#16

/-- `rxc_enabled(d)` but for `fault_code == 0` (43_isr.md R280). -/
def rxcPending (gie : Bool) (D : Device) : Bool := gie && D.rxcie && D.rxen && D.hwRxp

/-- `dre_enabled(d)` but for `fault_code == 0` (43_isr.md R290). -/
def drePending (gie : Bool) (D : Device) : Bool := gie && D.dreie && D.txen && D.hwDre

/-- The hardware flag CLOSE waits on (41_lifecycle.md R222, 00_scope.md R13). -/
def closeFlag (w : CloseWait) (D : Device) : Bool :=
  match w with
  | .dre => D.hwDre
  | .txc => D.hwTxc

/-- CLOSE's last step clears the four enables (41_lifecycle.md R223). -/
def disableAll (D : Device) : Device := { D with rxen := false, txen := false, rxcie := false, dreie := false }

/-- INITIALIZE sets three enables and leaves `dreie` (41_lifecycle.md R210). -/
def enableReceive (D : Device) : Device := { D with rxen := true, txen := true, rxcie := true }

end Sys2Proof.Machine
end

