-- ==== Sys2Proof/Machine/Environment.lean ====
section
/-! DEFINITION. The environment events ENV_RX, ENV_TXDONE and ENV_GIE, as script items and in open mode
(44_environment.md section 1). -/

namespace Sys2Proof.Machine

/-- What ENV_RX does to its device, none for an overrun (R310). -/
def receive (data status : Byte) (D : Device) : Option Device :=
  if D.rxen = false then some D
  else if D.hwRxp then none
  else some { D with hwRxd := data, hwRxs := status, hwRxp := true }

/-- What ENV_TXDONE does to its device (R312). -/
def transmitDone (D : Device) : Device :=
  if D.hwDre then D else { D with hwDre := true, hwTxc := true }

/-- ENV_RX but for the cursor: the state after it, or none where it raises ENV_RX_OVERRUN (R310). -/
def eventRx (d : Dev) (data status : Byte) (s : State) : Option State :=
  (receive data status (s.dev d)).map (s.setDev d)

/-- ENV_TXDONE but for the cursor (R312). -/
def eventTxDone (d : Dev) (s : State) : State := s.setDev d (transmitDone (s.dev d))

/-- ENV_GIE but for the cursor (R314). -/
def eventGie (v : Bool) (s : State) : State := { s with gie := v }

/-- ENV_RX as a script item (R310). -/
def execEnvRx (d : Dev) (data status : Byte) (s : State) : Result :=
  match eventRx d data status s with
  | some t => .next (advancePc t)
  | none => .next (raiseFault .envRxOverrun (encEnvRx d data status) s)

/-- ENV_TXDONE as a script item (R312). -/
def execEnvTxDone (d : Dev) (s : State) : Result := .next (advancePc (eventTxDone d s))

/-- ENV_GIE as a script item (R314). -/
def execEnvGie (v : Bool) (s : State) : Result := .next (advancePc (eventGie v s))

/-- An environment event in open mode: no item is consumed and `pc` keeps its value (R315). An overrun names the word
the event would have as an item (log 13). -/
def openEvent (e : EnvEvent) (s : State) : State :=
  match e with
  | .rx d data status =>
    match eventRx d data status s with
    | some t => t
    | none => raiseFault .envRxOverrun (encEnvRx d data status) s
  | .txDone d => eventTxDone d s
  | .gie v => eventGie v s

end Sys2Proof.Machine
end

