-- ==== Sys2Proof/Machine/Isr.lean ====
section
/-! DEFINITION. The interrupt-service steps RXC and DRE (43_isr.md). Taking an interrupt is the one atomic service
step and its end is the return (60_exceptions.md R353, R354). The condition under which a step may be taken is
`enabled` in Machine/Agents.lean (log 11). -/

namespace Sys2Proof.Machine

/-- `rx_store(d, b, s)` (R282). -/
def rxStore (d : Dev) (b status : Byte) (s : State) : State :=
  let s := insertByte d .rx b s
  s.setDev d { s.dev d with err := captureFlags status }

/-- `rx_drop(d, s)` (R283). -/
def rxDrop (d : Dev) (status : Byte) (s : State) : State :=
  s.setDev d { s.dev d with err := dropFlags status }

/-- RXC service step of device `d` (R281). -/
def execRxc (d : Dev) (s : State) : Result :=
  let D := s.dev d
  let s := s.setDev d { D with hwRxp := false }
  if D.rx.cnt < s.cap then .next (rxStore d D.hwRxd D.hwRxs s)
  else .next (rxDrop d D.hwRxs s)

/-- DRE service step, TX not empty (R291). -/
def transmitByte (d : Dev) (s : State) : State :=
  let b := headByte d .tx s
  let s := dropByte d .tx s
  let D := s.dev d
  s.setDev d { D with hwTxd := b, hwDre := false, hwTxc := false, txLog := D.txLog ++ [b] }

/-- DRE service step, TX empty: self-disarm (R292). -/
def disarm (d : Dev) (s : State) : State := s.setDev d { s.dev d with dreie := false }

/-- DRE service step of device `d` (R291, R292). -/
def execDre (d : Dev) (s : State) : Result :=
  if 0 < (s.dev d).tx.cnt then .next (transmitByte d s) else .next (disarm d s)

end Sys2Proof.Machine
end

