-- ==== Sys2Proof/Machine/Lifecycle.lean ====
section
/-! DEFINITION. CONFIGURE, INITIALIZE and CLOSE (41_lifecycle.md), CLOSE with its three continuation steps. -/

namespace Sys2Proof.Machine

/-- The lifecycle state after CONFIGURE: only UNCONF changes (R200). -/
def lifeConfigured : Life → Life
  | .unconf => .conf
  | .conf => .conf
  | .run => .run
  | .closed => .closed

/-- CONFIGURE (R200, R201): legal in every state, no output of the engine changes. -/
def execConfigure (d : Dev) (port route txmask rxmask : Byte) (s : State) : Result :=
  let D := s.dev d
  .next (advancePc (s.setDev d
    { D with port := port, route := route, txmask := txmask, rxmask := rxmask, life := lifeConfigured D.life }))

/-- The effect of INITIALIZE but for the cursor (R210): both buffers reset, the pins wired (R212), then the registers
of the device. -/
def startDevice (d : Dev) (baud : Half) (s : State) : State :=
  let s := wirePins d (resetBuffer d .tx (resetBuffer d .rx s))
  s.setDev d { enableReceive (s.dev d) with baud := baud, life := .run }

/-- INITIALIZE (R210). -/
def execInit (d : Dev) (baud : Half) (s : State) : Result :=
  whenLegal legalInit d (encInit d baud) s <|
    .next (advancePc (startDevice d baud s))

/-- CLOSE, start step (R220). -/
def execClose (d : Dev) (s : State) : Result :=
  whenLegal legalRun d (encClose d) s <|
    .next (advancePc { s with mcur := encClose d, mphase := .closeDrain })

/-- CLOSE drain step, its condition: TX is empty (R221). -/
def closeDrainReady (s : State) : Bool := ringEmpty (s.dev (mcurDev s)).tx

/-- CLOSE drain step (R221). -/
def closeDrainStep (s : State) : State := { s with mphase := .closeHw }

/-- CLOSE hardware-wait step, its condition: the flag CLOSE_WAIT selects is 1 (R222). -/
def closeHwReady (s : State) : Bool := closeFlag s.cfg.closeWait (s.dev (mcurDev s))

/-- CLOSE hardware-wait step (R222). -/
def closeHwStep (s : State) : State := { s with mphase := .closeSettle }

/-- CLOSE settle-and-disable step (R223). -/
def closeSettleStep (s : State) : State :=
  let d := mcurDev s
  { s.setDev d { disableAll (s.dev d) with life := .closed } with mphase := .idle, mcur := 0#64 }

end Sys2Proof.Machine
end

