-- ==== Sys2Proof/Machine/TestPort.lean ====
section
/-! DEFINITION. The test-port commands RB_RESET, RB_INSERT, RB_REMOVE, RB_FULL, RB_EMPTY (40_ringbuffer.md section 2). -/

namespace Sys2Proof.Machine

/-- RB_RESET (R170). -/
def execRbReset (d : Dev) (sel : Sel) (s : State) : Result :=
  whenLegal legalTestPort d (encRbReset d sel) s <|
    .next (advancePc (resetBuffer d sel s))

/-- RB_INSERT (R171): a full buffer raises RB_INSERT_FULL (R161). -/
def execRbInsert (d : Dev) (sel : Sel) (b : Byte) (s : State) : Result :=
  whenLegal legalTestPort d (encRbInsert d sel b) s <|
    if ringFull s.cap (s.buffer d sel) then .next (raiseFault .rbInsertFull (encRbInsert d sel b) s)
    else .next (advancePc (insertByte d sel b s))

/-- RB_REMOVE (R172): an empty buffer raises RB_REMOVE_EMPTY (R162). -/
def execRbRemove (d : Dev) (sel : Sel) (s : State) : Result :=
  whenLegal legalTestPort d (encRbRemove d sel) s <|
    if ringEmpty (s.buffer d sel) then .next (raiseFault .rbRemoveEmpty (encRbRemove d sel) s)
    else .next (advancePc (emit ((headByte d sel s).setWidth 16) (dropByte d sel s)))

/-- RB_FULL (R173). -/
def execRbFull (d : Dev) (sel : Sel) (s : State) : Result :=
  whenLegal legalTestPort d (encRbFull d sel) s <|
    .next (advancePc (emit (boolResult (ringFull s.cap (s.buffer d sel))) s))

/-- RB_EMPTY (R174). -/
def execRbEmpty (d : Dev) (sel : Sel) (s : State) : Result :=
  whenLegal legalTestPort d (encRbEmpty d sel) s <|
    .next (advancePc (emit (boolResult (ringEmpty (s.buffer d sel))) s))

end Sys2Proof.Machine
end

