-- ==== Sys2Proof/Machine/Transfer.lean ====
section
/-! DEFINITION. SEND_BYTE, SEND_SEQ, READ_BYTE and RX_COUNT (42_transfer.md), the first two with their continuation
steps. -/

namespace Sys2Proof.Machine

/-- SEND_BYTE, start step (R240). -/
def execSendByte (d : Dev) (b : Byte) (s : State) : Result :=
  whenLegal legalRun d (encSendByte d b) s <|
    .next (advancePc { s with mcur := encSendByte d b, mphase := .sendWait })

/-- SEND_SEQ, start step (R245): no byte completes at once. -/
def execSendSeq (d : Dev) (bytes : List Byte) (s : State) : Result :=
  whenLegal legalRun d (encSendSeq d bytes) s <|
    if bytes.length = 0 then .next (advancePc s)
    else .next (advancePc { s with mcur := encSendSeq d bytes, mseq := 0#3, mphase := .seq })

/-- Insert a byte into TX and arm `dreie`, in one step (R241, R246). -/
def queueByte (d : Dev) (b : Byte) (s : State) : State :=
  let s := insertByte d .tx b s
  s.setDev d { s.dev d with dreie := true }

/-- The condition of the SEND_BYTE completion step and of the SEND_SEQ byte step: TX is not full (R241, R246). -/
def txHasRoom (s : State) : Bool := decide ((s.dev (mcurDev s)).tx.cnt < s.cap)

/-- SEND_BYTE completion step (R241). -/
def sendByteStep (s : State) : State :=
  { queueByte (mcurDev s) (mcurByte s) s with mphase := .idle, mcur := 0#64 }

/-- SEND_SEQ byte step (R246). -/
def sendSeqStep (s : State) : State :=
  let t := queueByte (mcurDev s) (mcurSeqByte s) s
  if s.mseq + 1#3 = mcurCount s then { t with mphase := .idle, mseq := 0#3, mcur := 0#64 }
  else { t with mseq := s.mseq + 1#3 }

/-- `read_data(d)` (R251). -/
def readData (d : Dev) (s : State) : State :=
  emit (dataStatus (s.dev d).err (headByte d .rx s)) (dropByte d .rx s)

/-- `read_nodata(d)` (R252): the low byte is `draw8()`, a free value (log 4). -/
def readNodata (d : Dev) (s : State) : State :=
  let s' := s.setDev d { s.dev d with err := emptyReadFlags (s.dev d).err }
  { emit (nodataStatus (s'.dev d).err (Config.freeByte s.draws)) s' with draws := s.draws + 1 }

/-- READ_BYTE (R250): one atomic step, never held. -/
def execReadByte (d : Dev) (s : State) : Result :=
  whenLegal legalRead d (encReadByte d) s <|
    if 0 < (s.dev d).rx.cnt then .next (advancePc (readData d s))
    else .next (advancePc (readNodata d s))

/-- RX_COUNT (R260). -/
def execRxCount (d : Dev) (s : State) : Result :=
  whenLegal legalRead d (encRxCount d) s <|
    .next (advancePc (emit (BitVec.ofNat 16 (s.dev d).rx.cnt) s))

end Sys2Proof.Machine
end

