-- ==== Sys2Proof/Machine/Dispatch.lean ====
section
/-! DEFINITION. exec: one arm per constructor of Instr. -/

namespace Sys2Proof.Machine

/-- The start step of a command, or the service step of a device. -/
def exec (i : Instr) (s : State) : Host.Outcome State Fault Refusal :=
  match i with
  | .configure d port route txmask rxmask => Sys2Proof.Machine.execConfigure d port route txmask rxmask s
  | .init d baud => Sys2Proof.Machine.execInit d baud s
  | .sendByte d b => Sys2Proof.Machine.execSendByte d b s
  | .sendSeq d bytes => Sys2Proof.Machine.execSendSeq d bytes s
  | .readByte d => Sys2Proof.Machine.execReadByte d s
  | .rxCount d => Sys2Proof.Machine.execRxCount d s
  | .close d => Sys2Proof.Machine.execClose d s
  | .rbReset d sel => Sys2Proof.Machine.execRbReset d sel s
  | .rbInsert d sel b => Sys2Proof.Machine.execRbInsert d sel b s
  | .rbRemove d sel => Sys2Proof.Machine.execRbRemove d sel s
  | .rbFull d sel => Sys2Proof.Machine.execRbFull d sel s
  | .rbEmpty d sel => Sys2Proof.Machine.execRbEmpty d sel s
  | .envRx d data status => Sys2Proof.Machine.execEnvRx d data status s
  | .envTxDone d => Sys2Proof.Machine.execEnvTxDone d s
  | .envGie v => Sys2Proof.Machine.execEnvGie v s
  | .rxc d => Sys2Proof.Machine.execRxc d s
  | .dre d => Sys2Proof.Machine.execDre d s

end Sys2Proof.Machine
end

