-- ==== Sys2Proof/Machine/Agents.lean ====
section
/-! DEFINITION. The agents and their steps: consuming a script item, mainline continuations, service steps, open-mode
events, the choice among them, and the test scheduler (44_environment.md R315, R320 to R325). -/

namespace Sys2Proof.Machine

/-! ## Consuming an item (R321) -/

/-- `S[pc]`, if there is one. -/
def nextItem (s : State) : Option Word := s.script[s.pc]?

/-- The item `S[pc]` may be consumed, but for `fault_code == 0` (R321). -/
def itemReady (s : State) : Bool :=
  match nextItem s with
  | none => false
  | some W => isEnvWord W || decide (s.mphase = .idle)

/-- Consume the item `W`: decode, then the legality check and the start step in the instruction's meaning (R321). -/
def consumeWord (W : Word) (s : State) : Result :=
  match decodeWord s.cfg.ndev W with
  | .ok i => exec i s
  | .error _ => .next (raiseFault .illegalCmd W s)

/-- Consume `S[pc]`; past the end no item is consumed (10_state.md R60). -/
def consumeItem (s : State) : Result :=
  match nextItem s with
  | some W => consumeWord W s
  | none => .fault .stuck

/-! ## Mainline continuations (R322 (b)) -/

/-- The continuation of the current phase may be taken, but for `fault_code == 0`. -/
def mainlineReady (s : State) : Bool :=
  match s.mphase with
  | .idle => false
  | .sendWait => txHasRoom s
  | .seq => txHasRoom s
  | .closeDrain => closeDrainReady s
  | .closeHw => closeHwReady s
  | .closeSettle => true

/-- The continuation of the current phase; it consumes no item and raises no fault (60_exceptions.md R341). -/
def mainlineStep (s : State) : State :=
  match s.mphase with
  | .idle => s
  | .sendWait => sendByteStep s
  | .seq => sendSeqStep s
  | .closeDrain => closeDrainStep s
  | .closeHw => closeHwStep s
  | .closeSettle => closeSettleStep s

/-! ## Enabled steps (R322) -/

/-- The operands of an event name a device that exists (R315). -/
def eventOk (ndev : Nat) : EnvEvent → Bool
  | .rx d _ _ => d.val < ndev
  | .txDone d => d.val < ndev
  | .gie _ => true

/-- The step is enabled in the state (R322; R280 and R290 for the service steps, R315 for the events). -/
def enabled (c : Choice) (s : State) : Bool :=
  decide (s.faultCode = 0#8) &&
  match c with
  | .item => itemReady s
  | .mainline => mainlineReady s
  | .rxc d => decide (d.val < s.cfg.ndev) && rxcPending s.gie (s.dev d)
  | .dre d => decide (d.val < s.cfg.ndev) && drePending s.gie (s.dev d)
  | .event e => eventOk s.cfg.ndev e

/-- Take a step. -/
def take (c : Choice) (s : State) : Result :=
  match c with
  | .item => consumeItem s
  | .mainline => .next (mainlineStep s)
  | .rxc d => exec (.rxc d) s
  | .dre d => exec (.dre d) s
  | .event e => .next (openEvent e s)

/-! ## The choice among the enabled steps -/

/-- The order of the test scheduler: the service steps by vector id, then the mainline, then the next item (R323). -/
def testOrder : List Choice :=
  [.rxc 0, .dre 0, .rxc 1, .dre 1, .rxc 2, .dre 2, .rxc 3, .dre 3,
   .rxc 4, .dre 4, .rxc 5, .dre 5, .rxc 6, .dre 6, .rxc 7, .dre 7, .mainline, .item]

/-- What the test scheduler takes (R323 steps 2 to 4). -/
def testChoice (s : State) : Option Choice := testOrder.find? fun c => enabled c s

/-- The first enabled choice of a schedule and the choices after it; a choice that is not enabled at its turn is passed
over (log 5). -/
def pick (s : State) : List Choice → Option (Choice × List Choice)
  | [] => none
  | c :: cs => if enabled c s then some (c, cs) else pick s cs

/-- The step to take next and the schedule left: the schedule's, and the test scheduler's where it gives none
(00_scope.md R14, R322, R323; log 5). -/
def nextChoice (s : State) : Option (Choice × List Choice) :=
  match pick s s.sched with
  | some p => some p
  | none => (testChoice s).map fun c => (c, [])

/-- DONE but for the service steps, which are not enabled where this is asked (R325). -/
def scriptFinished (s : State) : Bool := decide (s.pc = s.script.length) && decide (s.mphase = .idle)

/-- Why no step is taken (R325). -/
def endReason (s : State) : Fault :=
  if s.faultCode ≠ 0#8 then .faulted else if scriptFinished s then .done else .stuck

/-- One step of the machine: exactly one enabled step of one agent, or the end of the run (R322, R325). -/
def stepMachine (s : State) : Result :=
  match nextChoice s with
  | some (c, rest) => take c { s with sched := rest }
  | none => .fault (endReason s)

/-! ## Placing the next instruction (log 7) -/

/-- Put a command word at `S[pc]` and make its consumption the next choice. -/
def placeItem (W : Word) (s : State) : State :=
  { s with
    script := s.script.take s.pc ++ List.replicate (s.pc - s.script.length) 0#64 ++ [W] ++ s.script.drop (s.pc + 1)
    sched := .item :: s.sched }

/-- Make the receive-complete source of a device pending and enabled (R280), and its service step the next choice. -/
def placeRxc (d : Dev) (s : State) : State :=
  { s.setDev d { s.dev d with rxcie := true, rxen := true, hwRxp := true } with
    gie := true, sched := .rxc d :: s.sched }

/-- Make the data-register-empty source of a device pending and enabled (R290), and its service step the next choice. -/
def placeDre (d : Dev) (s : State) : State :=
  { s.setDev d { s.dev d with dreie := true, txen := true, hwDre := true } with
    gie := true, sched := .dre d :: s.sched }

/-- Make the service step of a vector id the next step. -/
def placeVector (V : BitVec 4) (s : State) : State :=
  let d : Dev := ⟨V.toNat / 2, by have := V.isLt; omega⟩
  if V.toNat % 2 = 0 then placeRxc d s else placeDre d s

end Sys2Proof.Machine
end

