-- ==== Sys2Proof/Machine/Step.lean ====
section
/-! DEFINITION. The step of the machine, and how an instruction is placed where the next step runs it. -/

namespace Sys2Proof.Machine

/-- One step (Machine/Agents.lean). -/
def step (s : State) : Host.Outcome State Fault Refusal := stepMachine s

/-- The state in which the next step runs the instruction whose bits are `w`: a command word (more than 8 bits in its
opcode-table row) at `S[pc]`, a vector id (at most 8 bits) with its source pending and enabled (log 7). -/
def State.withFetchWord (s : State) (nbits w : Nat) : State :=
  if nbits ≤ 8 then placeVector (BitVec.ofNat 4 w) s else placeItem (BitVec.ofNat 64 w) s

end Sys2Proof.Machine
end

