-- ==== Sys2Proof/Machine/Assembler.lean ====
section
/-! DEFINITION. The assembler syntax and the pseudo-commands (30_encoding.md R124, R125). The syntax has no semantics of
its own: a line stands for instructions, and a program for the words of a script (44_environment.md R320). Where R124
leaves a detail of the text open, log 14 says what is taken. -/

namespace Sys2Proof.Machine

/-! ## Pseudo-commands (R125) -/

/-- `PUTC d, byte` is `SEND d, byte`. -/
def putc (d : Dev) (b : Byte) : List Instr := [.sendByte d b]

/-- A list in pieces of six, the last with the remainder; `fuel` bounds the pieces. -/
def inSixes (fuel : Nat) (bs : List Byte) : List (List Byte) :=
  match fuel with
  | 0 => []
  | n + 1 => if bs = [] then [] else bs.take 6 :: inSixes n (bs.drop 6)

/-- `SENDSTR d, "text"` is `ceil(len/6)` SEND_SEQ commands carrying the bytes in order, six per command; an empty text
is nothing. -/
def sendStr (d : Dev) (text : List Byte) : List Instr := (inSixes text.length text).map (.sendSeq d)

/-! ## Tokens of a line -/

inductive Token where
  /-- a mnemonic, a buffer name or a number -/
  | word (cs : List Char)
  /-- a quoted character -/
  | quoted (c : Char)
  /-- a double-quoted text -/
  | text (cs : List Char)
  | comma
deriving DecidableEq, Repr

/-- Where the reading of a line stands. -/
inductive LexMode where
  | blank
  | word (acc : List Char)
  | opened
  | closing (c : Char)
  | text (acc : List Char)
deriving DecidableEq, Repr

/-- The tokens of a line, `;` starting a comment (R124). -/
def lexLine : LexMode → List Char → Option (List Token)
  | .blank, [] => some []
  | .word acc, [] => some [.word acc.reverse]
  | .opened, [] => none
  | .closing _, [] => none
  | .text _, [] => none
  | .blank, c :: cs =>
    if c = ';' then some []
    else if c = ' ' ∨ c = '\t' then lexLine .blank cs
    else if c = ',' then (lexLine .blank cs).map (.comma :: ·)
    else if c = '\x27' then lexLine .opened cs
    else if c = '\x22' then lexLine (.text []) cs
    else lexLine (.word [c]) cs
  | .word acc, c :: cs =>
    if c = ';' then some [.word acc.reverse]
    else if c = ' ' ∨ c = '\t' then (lexLine .blank cs).map (.word acc.reverse :: ·)
    else if c = ',' then (lexLine .blank cs).map fun ts => .word acc.reverse :: .comma :: ts
    else if c = '\x27' ∨ c = '\x22' then none
    else lexLine (.word (c :: acc)) cs
  | .opened, c :: cs => lexLine (.closing c) cs
  | .closing c', c :: cs => if c = '\x27' then (lexLine .blank cs).map (.quoted c' :: ·) else none
  | .text acc, c :: cs =>
    if c = '\x22' then (lexLine .blank cs).map (.text acc.reverse :: ·) else lexLine (.text (c :: acc)) cs

/-- The operands of a line, separated by commas; `due` says that one must come next. -/
def operandTokens (due : Bool) : List Token → Option (List Token)
  | [] => if due then none else some []
  | t :: ts =>
    if due then (if t = .comma then none else (operandTokens false ts).map (t :: ·))
    else if t = .comma then operandTokens true ts else none

/-! ## Numbers, bytes, devices, buffers -/

/-- The value of a digit, any of 0-9, a-f, A-F. -/
def digitValue (c : Char) : Option Nat :=
  if 48 ≤ c.toNat ∧ c.toNat ≤ 57 then some (c.toNat - 48)
  else if 97 ≤ c.toNat ∧ c.toNat ≤ 102 then some (c.toNat - 87)
  else if 65 ≤ c.toNat ∧ c.toNat ≤ 70 then some (c.toNat - 55)
  else none

/-- The number the digits stand for in a base, after the number `acc` already read. -/
def digitsFrom (base acc : Nat) : List Char → Option Nat
  | [] => some acc
  | c :: cs =>
    match digitValue c with
    | some v => if v < base then digitsFrom base (base * acc + v) cs else none
    | none => none

/-- A number with at least one digit. -/
def digits (base : Nat) (cs : List Char) : Option Nat := if cs = [] then none else digitsFrom base 0 cs

/-- `0x..` hexadecimal, `0b..` binary, others decimal (00_scope.md R16). -/
def number (cs : List Char) : Option Nat :=
  match cs with
  | '0' :: 'x' :: ds => digits 16 ds
  | '0' :: 'b' :: ds => digits 2 ds
  | ds => digits 10 ds

/-- A number below a bound. -/
def numberBelow (bound : Nat) (cs : List Char) : Option Nat :=
  match number cs with
  | some n => if n < bound then some n else none
  | none => none

/-- A character as its code (00_scope.md R16), if it is an ASCII character. -/
def asciiByte (c : Char) : Option Byte := if c.toNat < 128 then some (BitVec.ofNat 8 c.toNat) else none

/-- A byte is a number or a quoted character (R124). -/
def byteOf : Token → Option Byte
  | .word cs => (numberBelow 256 cs).map (BitVec.ofNat 8)
  | .quoted c => asciiByte c
  | .text _ => none
  | .comma => none

/-- `baud` is a 16-bit number (R124). -/
def halfOf : Token → Option Half
  | .word cs => (numberBelow 65536 cs).map (BitVec.ofNat 16)
  | .quoted _ => none
  | .text _ => none
  | .comma => none

/-- `d` is a decimal device number (R124); one the encoding has no room for is refused. -/
def devOf : Token → Option Dev
  | .word cs => (digits 10 cs).bind fun n => if h : n < 8 then some ⟨n, h⟩ else none
  | .quoted _ => none
  | .text _ => none
  | .comma => none

/-- `buf` is `rx` or `tx` (R124). -/
def selOf : Token → Option Sel
  | .word ['r', 'x'] => some .rx
  | .word ['t', 'x'] => some .tx
  | .word _ => none
  | .quoted _ => none
  | .text _ => none
  | .comma => none

/-- `v` of ENVGIE: 0 or 1. -/
def bitOf : Token → Option Bool
  | .word ['0'] => some false
  | .word ['1'] => some true
  | .word _ => none
  | .quoted _ => none
  | .text _ => none
  | .comma => none

/-- Every byte of a list of operands. -/
def bytesOf : List Token → Option (List Byte)
  | [] => some []
  | t :: ts => (byteOf t).bind fun b => (bytesOf ts).map (b :: ·)

/-- Every character of a text as a byte. -/
def textBytes : List Char → Option (List Byte)
  | [] => some []
  | c :: cs => (asciiByte c).bind fun b => (textBytes cs).map (b :: ·)

/-! ## Lines (R124, R125) -/

/-- A command with a device operand and nothing else. -/
def lineDev (f : Dev → Instr) : List Token → Option (List Instr)
  | [d] => (devOf d).map fun d => [f d]
  | _ => none

/-- A command with a device and a buffer. -/
def lineSel (f : Dev → Sel → Instr) : List Token → Option (List Instr)
  | [d, b] => (devOf d).bind fun d => (selOf b).map fun sel => [f d sel]
  | _ => none

/-- A command with a device and a byte. -/
def lineByte (f : Dev → Byte → List Instr) : List Token → Option (List Instr)
  | [d, b] => (devOf d).bind fun d => (byteOf b).map fun b => f d b
  | _ => none

/-- `CONFIG d, port, route, txmask, rxmask`. -/
def lineConfig : List Token → Option (List Instr)
  | [d, p, r, t, x] =>
    (devOf d).bind fun d => (byteOf p).bind fun p => (byteOf r).bind fun r => (byteOf t).bind fun t =>
      (byteOf x).map fun x => [.configure d p r t x]
  | _ => none

/-- `INIT d, baud`. -/
def lineInit : List Token → Option (List Instr)
  | [d, b] => (devOf d).bind fun d => (halfOf b).map fun b => [.init d b]
  | _ => none

/-- `SENDSEQ d, byte0, ..., byte(n-1)`, at most six bytes. -/
def lineSendSeq : List Token → Option (List Instr)
  | d :: ts => if ts.length ≤ 6 then (devOf d).bind fun d => (bytesOf ts).map fun bs => [.sendSeq d bs] else none
  | [] => none

/-- `RBINS d, buf, byte`. -/
def lineRbIns : List Token → Option (List Instr)
  | [d, s, b] => (devOf d).bind fun d => (selOf s).bind fun s => (byteOf b).map fun b => [.rbInsert d s b]
  | _ => none

/-- `ENVRX d, data, status`. -/
def lineEnvRx : List Token → Option (List Instr)
  | [d, a, b] => (devOf d).bind fun d => (byteOf a).bind fun a => (byteOf b).map fun b => [.envRx d a b]
  | _ => none

/-- `ENVGIE v`. -/
def lineEnvGie : List Token → Option (List Instr)
  | [v] => (bitOf v).map fun v => [.envGie v]
  | _ => none

/-- `SENDSTR d, "text"`. -/
def lineSendStr : List Token → Option (List Instr)
  | [d, .text cs] => (devOf d).bind fun d => (textBytes cs).map fun bs => sendStr d bs
  | _ => none

/-- The line forms by mnemonic (R124, R125). -/
def lineForms : List (List Char × (List Token → Option (List Instr))) :=
  [ ("CONFIG".toList, lineConfig),
    ("INIT".toList, lineInit),
    ("SEND".toList, lineByte fun d b => [.sendByte d b]),
    ("SENDSEQ".toList, lineSendSeq),
    ("READ".toList, lineDev .readByte),
    ("RXCOUNT".toList, lineDev .rxCount),
    ("CLOSE".toList, lineDev .close),
    ("RBRESET".toList, lineSel .rbReset),
    ("RBINS".toList, lineRbIns),
    ("RBREM".toList, lineSel .rbRemove),
    ("RBFULL".toList, lineSel .rbFull),
    ("RBEMPTY".toList, lineSel .rbEmpty),
    ("ENVRX".toList, lineEnvRx),
    ("ENVTXDONE".toList, lineDev .envTxDone),
    ("ENVGIE".toList, lineEnvGie),
    ("PUTC".toList, lineByte putc),
    ("SENDSTR".toList, lineSendStr) ]

/-- The instructions of a line; an empty or comment line has none, and none at all is answered for a line that is not
of the syntax. -/
def assembleLine (line : List Char) : Option (List Instr) :=
  match lexLine .blank line with
  | none => none
  | some [] => some []
  | some (.word m :: ts) =>
    match lineForms.find? fun f => f.1 == m with
    | none => none
    | some f => (if ts = [] then some [] else operandTokens true ts).bind f.2
  | some (_ :: _) => none

/-- The word of a command; a service step has none (30_encoding.md R119). -/
def wordOfInstr (i : Instr) : Option Word :=
  match encode i with
  | .word W => some W
  | .vector _ => none

/-- The script a program stands for, one command per line (R124). -/
def assemble : List (List Char) → Option (List Word)
  | [] => some []
  | line :: lines =>
    (assembleLine line).bind fun is => (assemble lines).map fun ws => is.filterMap wordOfInstr ++ ws

end Sys2Proof.Machine
end

