-- ==== Sys2Proof/Safety.lean ====
section
/-! DEFINITION. What counts as a safe run, in the terms the statements use: ends of runs, invariants, the queue a ring
buffer stands for, runs under every schedule and their fairness. -/

namespace Sys2Proof.Machine

/-- The next state, if there is one. -/
def nextOf : Result → Option State
  | .next s => some s
  | .fault _ => none
  | .refused _ => none

/-! ## Ends of runs (44_environment.md R325) -/

/-- No service step of any device is enabled. -/
def NoService (s : State) : Prop := ∀ d, enabled (.rxc d) s = false ∧ enabled (.dre d) s = false

/-- DONE. -/
def IsDone (s : State) : Prop :=
  s.faultCode = 0#8 ∧ s.pc = s.script.length ∧ s.mphase = .idle ∧ NoService s

/-- FAULT. -/
def IsFaulted (s : State) : Prop := s.faultCode ≠ 0#8

/-- STUCK, in scripted mode: no step is enabled, and the state is neither FAULT nor DONE. -/
def IsStuck (s : State) : Prop :=
  s.faultCode = 0#8 ∧ enabled .item s = false ∧ enabled .mainline s = false ∧ NoService s ∧ ¬ IsDone s

/-- The observation of a DONE run: the result log, every transmit log, and every field (R325). -/
structure Observation where
  outLog : List Half
  txLogs : List (List Byte)
  final : State
deriving DecidableEq, Repr

/-- What is observed of the last state of a run. -/
def observe (s : State) : Observation :=
  ⟨s.outLog, ((List.finRange 8).filter fun d => d.val < s.cfg.ndev).map fun d => (s.dev d).txLog, s⟩

/-! ## The queue a ring buffer stands for (10_state.md R39) -/

/-- The live window, oldest byte first (R39 (c)). -/
def ringContents (cap : Nat) (fill : Nat → Byte) (B : RingBuffer) : List Byte :=
  (List.range B.cnt).map fun j => ringRead fill B ((B.hout + j) % cap)

/-- The bytes a buffer of the machine holds, oldest first. -/
def State.contents (s : State) (d : Dev) (sel : Sel) : List Byte :=
  ringContents s.cap (powerOnFill d sel) (s.buffer d sel)

/-- The ring-buffer invariants (R39), the widths of the indices (00_scope.md R11), and the canonical form of the
storage. -/
structure RingBuffer.Ok (cap : Nat) (B : RingBuffer) : Prop where
  canonical : Memory.wf Space.storage.unlisted B.buf = true
  inside : ∀ c ∈ B.buf, c.1 < cap
  hin_lt : B.hin < cap
  hout_lt : B.hout < cap
  /-- R39 (a) -/
  cnt_le : B.cnt ≤ cap
  /-- R39 (b) -/
  hin_eq : B.hin = (B.hout + B.cnt) % cap
  /-- every slot of the live window was written (R38) -/
  live : ∀ j < B.cnt, (memLookup Space.storage.unlisted B.buf ((B.hout + j) % cap)).isSome = true

/-- An operation on a ring buffer, made only where its precondition holds (40_ringbuffer.md R161, R162). -/
inductive RingOp where
  | insert (b : Byte)
  | remove
deriving DecidableEq, Repr

/-- The operations on a ring buffer, and the bytes the removals return. -/
def ringRun (cap : Nat) (fill : Nat → Byte) : List RingOp → RingBuffer → RingBuffer × List Byte
  | [], B => (B, [])
  | .insert b :: ops, B =>
    if ringFull cap B then ringRun cap fill ops B else ringRun cap fill ops (ringInsert cap B b)
  | .remove :: ops, B =>
    if ringEmpty B then ringRun cap fill ops B
    else let r := ringRun cap fill ops (ringDrop cap B); (r.1, ringHead fill B :: r.2)

/-- The same operations on a queue of at most `cap` bytes. -/
def queueRun (cap : Nat) : List RingOp → List Byte → List Byte × List Byte
  | [], q => (q, [])
  | .insert b :: ops, q => if q.length = cap then queueRun cap ops q else queueRun cap ops (q ++ [b])
  | .remove :: ops, q =>
    match q with
    | [] => queueRun cap ops []
    | b :: q' => let r := queueRun cap ops q'; (r.1, b :: r.2)

/-- The bytes a list of operations puts into a ring buffer: those of the insertions that find room. -/
def ringInserted (cap : Nat) : List RingOp → RingBuffer → List Byte
  | [], _ => []
  | .insert b :: ops, B =>
    if ringFull cap B then ringInserted cap ops B else b :: ringInserted cap ops (ringInsert cap B b)
  | .remove :: ops, B =>
    if ringEmpty B then ringInserted cap ops B else ringInserted cap ops (ringDrop cap B)

/-! ## Invariants -/

/-- What holds of a device record in every reachable state. -/
structure Device.Ok (cap : Nat) (D : Device) : Prop where
  rx : D.rx.Ok cap
  tx : D.tx.Ok cap
  /-- bits 3, 4, 5 and 7 of `err` are 0 (10_state.md R40) -/
  err : D.err &&& 0xB8#8 = 0#8
  /-- `rxen`, `txen` and `rxcie` are set exactly in RUN (R36, 41_lifecycle.md R210, R223) -/
  rxen : D.rxen = decide (D.life = .run)
  txen : D.txen = decide (D.life = .run)
  rxcie : D.rxcie = decide (D.life = .run)
  /-- `dreie` is set only in RUN (R36) -/
  dreie : D.dreie = true → D.life = .run
  /-- armed while pending (43_isr.md R293) -/
  armed : D.life = .run → 0 < D.tx.cnt → D.dreie = true
  /-- transmit complete means that something was sent and the data register is empty again (10_state.md R43,
  44_environment.md R312) -/
  txc : D.hwTxc = (D.hwDre && !D.txLog.isEmpty)
  /-- the data register is full only after a write (43_isr.md R291) -/
  dre : D.hwDre = false → D.txLog ≠ []
  /-- the data register holds the last byte written (R291) -/
  txd : D.hwTxd = D.txLog.getLastD 0x00#8

/-- What holds of the mainline latches in every reachable state (10_state.md R61). -/
structure MainlineOk (s : State) : Prop where
  idle : s.mphase = .idle → s.mcur = 0#64
  mseq : s.mphase ≠ .seq → s.mseq = 0#3
  /-- a command is in flight only on a running device of the machine -/
  busy : s.mphase ≠ .idle → (mcurDev s).val < s.cfg.ndev ∧ (s.dev (mcurDev s)).life = .run
  sendWait : s.mphase = .sendWait → ∃ d b, s.mcur = encSendByte d b
  seq : s.mphase = .seq → ∃ d bytes, s.mcur = encSendSeq d bytes ∧ bytes.length ≤ 6 ∧ s.mseq.toNat < bytes.length
  close : s.mphase = .closeDrain ∨ s.mphase = .closeHw ∨ s.mphase = .closeSettle → ∃ d, s.mcur = encClose d

/-- What the phases of CLOSE guarantee (41_lifecycle.md R224). -/
structure CloseOk (s : State) : Prop where
  drained : s.mphase = .closeHw ∨ s.mphase = .closeSettle → (s.dev (mcurDev s)).tx.cnt = 0
  waited : s.mphase = .closeSettle → closeFlag s.cfg.closeWait (s.dev (mcurDev s)) = true

/-- The invariant of the machine. -/
structure Inv (s : State) : Prop where
  devices : ∀ d, (s.dev d).Ok s.cap
  /-- a slot beyond NDEV stays as power-on leaves it (log 12) -/
  absent : ∀ d : Dev, s.cfg.ndev ≤ d.val → s.dev d = Device.reset
  mainline : MainlineOk s
  closing : CloseOk s
  /-- the pin-direction registers keep their canonical form, and there are 256 of them (10_state.md R51) -/
  gpio : Memory.wf Space.gpio.unlisted s.gpioDir = true
  gpioPorts : ∀ c ∈ s.gpioDir, c.1 < 256
  /-- codes 6 to 255 are never raised (60_exceptions.md R341) -/
  faultCode : s.faultCode.toNat ≤ 5
  faultWord : s.faultCode = 0#8 → s.faultWord = 0#64
  /-- `res` is the last value emitted (10_state.md R62) -/
  res : s.res = s.outLog.getLastD 0#16
  /-- the cursor never passes the end of the script (R60) -/
  pc : s.pc ≤ s.script.length

/-- A state of some run: from power-on with any parameters, any script and any schedule, by steps. -/
inductive Reachable : State → Prop where
  | start (c : Config) (S : List Word) (sched : List Choice) : Reachable { State.powerOn c S with sched := sched }
  | next (s t : State) : Reachable s → step s = .next t → Reachable t

/-! ## The legality table as one relation (60_exceptions.md R345) -/

/-- The table's entry for a command and a lifecycle state; a service step is no command. -/
def legalIn : Instr → Life → Bool
  | .configure _ _ _ _ _, _ => true
  | .init _ _, l => l = .conf ∨ l = .closed
  | .sendByte _ _, l => l = .run
  | .sendSeq _ _, l => l = .run
  | .readByte _, l => l = .run ∨ l = .closed
  | .rxCount _, l => l = .run ∨ l = .closed
  | .close _, l => l = .run
  | .rbReset _ _, l => l ≠ .run
  | .rbInsert _ _ _, l => l ≠ .run
  | .rbRemove _ _, l => l ≠ .run
  | .rbFull _ _, l => l ≠ .run
  | .rbEmpty _ _, l => l ≠ .run
  | .envRx _ _ _, _ => true
  | .envTxDone _, _ => true
  | .envGie _, _ => true
  | .rxc _, _ => true
  | .dre _, _ => true

/-! ## Illegal words in the spec's own terms (60_exceptions.md R342) -/

/-- Bits `W[63:lo]` are zero. -/
def highZero (lo : Nat) (W : Word) : Bool := decide (W.toNat < 2 ^ lo)

/-- The reserved-zero bits of the word's format are zero (30_encoding.md R110, R111), by OP. -/
def reservedZero (W : Word) : Bool :=
  let sel0 := W.getLsbD 7 == false
  let op := (field 0 4 W).toNat
  if op = 0x0 then sel0 && highZero 40 W
  else if op = 0x1 then sel0 && highZero 24 W
  else if op = 0x2 then sel0 && highZero 16 W
  else if op = 0x3 then sel0 && field 11 5 W == 0#5
  else if op ≤ 0x6 then sel0 && highZero 8 W
  else if op = 0x8 then highZero 8 W
  else if op = 0x9 then highZero 16 W
  else if op ≤ 0xC then highZero 8 W
  else if op = 0xD then sel0 && highZero 24 W
  else if op = 0xE then sel0 && highZero 8 W
  else sel0 && devField W == 0 && highZero 9 W

/-- The causes of ILLEGAL_CMD (R342). -/
def IllegalWord (ndev : Nat) (W : Word) : Prop :=
  field 0 4 W = 7#4
  ∨ reservedZero W = false
  ∨ (field 0 4 W ≠ 0xF#4 ∧ ndev ≤ (devField W).val)
  ∨ (field 0 4 W = 3#4 ∧ seqCount W = 7)
  ∨ (field 0 4 W = 3#4 ∧ ∃ j < 6, seqCount W ≤ j ∧ seqByte W j ≠ 0#8)

/-! ## Service steps -/

/-- A service step: a source of a device. -/
def serviceChoice (d : Dev) : Kind → Choice
  | .rxc => .rxc d
  | .dre => .dre d

/-- The instruction of a service step. -/
def serviceInstr (d : Dev) : Kind → Instr
  | .rxc => .rxc d
  | .dre => .dre d

/-- The one device a step may write: the device of its source, of its event, of the in-flight command, or of the item. -/
def choiceDev (s : State) : Choice → Dev
  | .item => devField ((nextItem s).getD 0#64)
  | .mainline => mcurDev s
  | .rxc d => d
  | .dre d => d
  | .event (.rx d _ _) => d
  | .event (.txDone d) => d
  | .event (.gie _) => 0

/-- RX is full and BOVF is set: a byte was dropped and no read has told it yet (43_isr.md R283, R284 (a)). -/
def OverflowPending (s : State) (d : Dev) : Prop :=
  (s.dev d).rx.cnt = s.cap ∧ (s.dev d).err.getLsbD 6 = true

/-! ## Runs under every schedule, and fairness (44_environment.md R322, R324) -/

/-- An infinite run: the states and the step taken in each. -/
structure Run where
  state : Nat → State
  choice : Nat → Choice

/-- Every step of the run is enabled where it is taken (R322). -/
def Run.Valid (r : Run) : Prop :=
  ∀ n, enabled (r.choice n) (r.state n) = true ∧ take (r.choice n) (r.state n) = .next (r.state (n + 1))

/-- A service step or a mainline continuation (what fairness is promised to). -/
def Fairly : Choice → Prop
  | .item => False
  | .mainline => True
  | .rxc _ => True
  | .dre _ => True
  | .event _ => False

/-- Weak fairness: a service step or a mainline continuation that stays enabled from some point on is eventually
taken (R324). -/
def Run.WeaklyFair (r : Run) : Prop :=
  ∀ c, Fairly c → ∀ n, (∀ m, n ≤ m → enabled c (r.state m) = true) → ∃ m, n ≤ m ∧ r.choice m = c

end Sys2Proof.Machine
end

