-- ==== Sys2Proof/Certificates/Slice0/Obligations.lean ====
section
/-! DEFINITION. The statements for the provers. -/

open Sys2Proof Sys2Proof.Machine

/-! ## Encoding -/

/-- R126: each of its seventeen words decodes to the command it stands for, and each of its five illegal words is refused
for its cause; R113: a word that names an absent device is refused; R119: a vector id names its device and kind. -/
def Obligations.WordsOfTheSpecDecode : Prop :=
  decodeWord 8 0x0000000201010200#64 = .ok (.configure 0 2 1 1 2)
  ∧ decodeWord 8 0x0000000000015B01#64 = .ok (.init 0 0x015B)
  ∧ decodeWord 8 0x0000000000004102#64 = .ok (.sendByte 0 0x41)
  ∧ decodeWord 8 0x0000000000004212#64 = .ok (.sendByte 1 0x42)
  ∧ decodeWord 8 0x0000000069480203#64 = .ok (.sendSeq 0 [0x48, 0x69])
  ∧ decodeWord 8 0x0000000000000004#64 = .ok (.readByte 0)
  ∧ decodeWord 8 0x0000000000000005#64 = .ok (.rxCount 0)
  ∧ decodeWord 8 0x0000000000000006#64 = .ok (.close 0)
  ∧ decodeWord 8 0x0000000000000008#64 = .ok (.rbReset 0 .rx)
  ∧ decodeWord 8 0x0000000000004109#64 = .ok (.rbInsert 0 .rx 0x41)
  ∧ decodeWord 8 0x0000000000004189#64 = .ok (.rbInsert 0 .tx 0x41)
  ∧ decodeWord 8 0x000000000000000A#64 = .ok (.rbRemove 0 .rx)
  ∧ decodeWord 8 0x000000000000000B#64 = .ok (.rbFull 0 .rx)
  ∧ decodeWord 8 0x000000000000000C#64 = .ok (.rbEmpty 0 .rx)
  ∧ decodeWord 8 0x000000000004780D#64 = .ok (.envRx 0 0x78 0x04)
  ∧ decodeWord 8 0x000000000000000E#64 = .ok (.envTxDone 0)
  ∧ decodeWord 8 0x000000000000010F#64 = .ok (.envGie true)
  ∧ decodeWord 8 0x0000000000000007#64 = .error .reservedOp
  ∧ decodeWord 8 0x0000000000000084#64 = .error .reservedBits
  ∧ decodeWord 8 0x0000000000000703#64 = .error .seqLength
  ∧ decodeWord 8 0x0000000000410003#64 = .error .seqUnusedByte
  ∧ decodeWord 8 0x000000000000011F#64 = .error .reservedBits
  ∧ decodeWord 2 0x0000000000000024#64 = .error .deviceAbsent
  ∧ decodeVector 8 4#4 = .ok (.rxc 2)
  ∧ decodeVector 8 5#4 = .ok (.dre 2)

/-- Decoding the encoding of any well-formed instruction gives it back, with every operand. -/
def Obligations.DecodeOfEncodeIsTheInstruction : Prop :=
  ∀ (ndev : Nat) (i : Instr), wellFormed ndev i = true → decode ndev (encode i) = .ok i

/-- Bits that decode to an instruction are its encoding, and the instruction is well-formed: no bit is dropped, and each
word has one meaning. -/
def Obligations.EncodeOfDecodeIsTheCode : Prop :=
  ∀ (ndev : Nat) (c : Code) (i : Instr), decode ndev c = .ok i → encode i = c ∧ wellFormed ndev i = true

/-- At most one row of the operation map selects any word. -/
def Obligations.AtMostOneRowSelectsAWord : Prop :=
  ∀ (W : Word) (r r' : Row), r ∈ opTable → r' ∈ opTable → r.selects W = true → r'.selects W = true → r = r'

/-- R342: decoding refuses a word exactly for the listed causes. -/
def Obligations.WordIsRefusedExactlyForTheListedCauses : Prop :=
  ∀ (ndev : Nat) (W : Word), (∃ e, decodeWord ndev W = .error e) ↔ IllegalWord ndev W

/-- A command word laid out in bytes, low byte first, decodes from them as the word does, whatever follows. -/
def Obligations.WordDecodesFromItsLittleEndianBytes : Prop :=
  ∀ (ndev : Nat) (W : Word) (rest : List Byte),
    (bytesOfWord W).length = 8
    ∧ (∀ j < 8, (bytesOfWord W)[j]? = some (W.extractLsb' (8 * j) 8))
    ∧ (∀ i, decodeWord ndev W = .ok i → decodeBytes ndev (bytesOfWord W ++ rest) = .ok (i, rest))
    ∧ (∀ e, decodeWord ndev W = .error e → decodeBytes ndev (bytesOfWord W ++ rest) = .error e)

/-- R10, R12, R383, R392: a configuration is built exactly from a capacity that is a power of two up to 2^15 and 1 to 8
devices, and everything else is refused; whatever is built has the capacity, the device count and the close flag asked
for. -/
def Obligations.ConfigurationIsBuiltExactlyWhenLegal : Prop :=
  ∀ (cap ndev : Nat) (w : CloseWait),
    ((∃ c, Config.build cap ndev w = .ok c) ↔ ((∃ k ≤ 15, cap = 2 ^ k) ∧ 1 ≤ ndev ∧ ndev ≤ 8))
    ∧ ∀ c, Config.build cap ndev w = .ok c → c.cap = cap ∧ c.ndev = ndev ∧ c.closeWait = w

/-! ## Ring-buffer primitives -/

/-- R160: reset clears the indices and the count and does not write the storage. -/
def Obligations.ResetClearsIndicesAndCount : Prop :=
  ∀ B : RingBuffer, ringReset B = { buf := B.buf, hin := 0, hout := 0, cnt := 0 }

/-- R163: insert writes the slot `hin` and no other, advances `hin` by the mask and counts the byte. -/
def Obligations.InsertStoresAtHinAndAdvances : Prop :=
  ∀ (c : Config) (fill : Nat → Byte) (B : RingBuffer) (b : Byte),
    Memory.wf Space.storage.unlisted B.buf = true → B.cnt < c.cap →
    (∀ i, ringRead fill (ringInsert c.cap B b) i = if i = B.hin then b else ringRead fill B i)
    ∧ (ringInsert c.cap B b).hin = (B.hin + 1) &&& (c.cap - 1)
    ∧ (ringInsert c.cap B b).hout = B.hout
    ∧ (ringInsert c.cap B b).cnt = B.cnt + 1

/-- R164: remove returns the byte at `hout`, advances `hout` by the mask, counts down, and does not write the storage. -/
def Obligations.RemoveReadsHoutAndAdvances : Prop :=
  ∀ (c : Config) (fill : Nat → Byte) (B : RingBuffer), 0 < B.cnt →
    ringHead fill B = ringRead fill B B.hout
    ∧ ringDrop c.cap B = { B with hout := (B.hout + 1) &&& (c.cap - 1), cnt := B.cnt - 1 }

/-- R165 (which the spec derives): the mask advances every index as the remainder does exactly when the capacity is a power of two. -/
def Obligations.MaskIsTheRemainderExactlyForPowersOfTwo : Prop :=
  ∀ cap : Nat, 0 < cap → ((∀ i < cap, ringAdvance cap i = (i + 1) % cap) ↔ ∃ k, cap = 2 ^ k)

/-- R166 (which the spec derives): under any sequence of insertions and removals the buffer delivers what a queue delivers and holds what the
queue holds, and inserting up to a capacity of bytes and removing as many gives them back in order. -/
def Obligations.RingBufferDeliversInFifoOrder : Prop :=
  (∀ (c : Config) (fill : Nat → Byte) (B : RingBuffer) (ops : List RingOp), B.Ok c.cap →
    (ringRun c.cap fill ops B).2 = (queueRun c.cap ops (ringContents c.cap fill B)).2
    ∧ ringContents c.cap fill (ringRun c.cap fill ops B).1 = (queueRun c.cap ops (ringContents c.cap fill B)).1
    ∧ (ringRun c.cap fill ops B).1.Ok c.cap)
  ∧ (∀ (c : Config) (fill : Nat → Byte) (B : RingBuffer) (bs : List Byte), B.Ok c.cap → B.cnt = 0 →
    bs.length ≤ c.cap →
    (ringRun c.cap fill (bs.map .insert ++ List.replicate bs.length .remove) B).2 = bs)

/-- R167 (which the spec derives): after any sequence of operations the count is what it was, plus the bytes inserted, minus the bytes removed,
it is at most the capacity, and it tells full and empty. -/
def Obligations.CountIsInsertsMinusRemoves : Prop :=
  ∀ (c : Config) (fill : Nat → Byte) (B : RingBuffer) (ops : List RingOp), B.Ok c.cap →
    let B' := (ringRun c.cap fill ops B).1
    B'.cnt + (ringRun c.cap fill ops B).2.length = B.cnt + (ringInserted c.cap ops B).length
    ∧ B'.cnt ≤ c.cap
    ∧ (ringFull c.cap B' = true ↔ B'.cnt = c.cap)
    ∧ (ringEmpty B' = true ↔ B'.cnt = 0)

/-! ## Test port -/

/-- R170: RB_RESET resets the selected buffer and changes nothing else but the cursor; in RUN it is BAD_STATE. -/
def Obligations.RbResetResetsTheSelectedBuffer : Prop :=
  ∀ (d : Dev) (s : State),
    ((s.dev d).life ≠ .run →
      exec (.rbReset d .rx) s = .next { s.setDev d { s.dev d with
        rx := { (s.dev d).rx with hin := 0, hout := 0, cnt := 0 } } with pc := s.pc + 1 }
      ∧ exec (.rbReset d .tx) s = .next { s.setDev d { s.dev d with
        tx := { (s.dev d).tx with hin := 0, hout := 0, cnt := 0 } } with pc := s.pc + 1 })
    ∧ (∀ sel, (s.dev d).life = .run → s.faultCode = 0#8 →
      exec (.rbReset d sel) s = .next { s with faultCode := 2#8, faultWord := encRbReset d sel })

/-- R171: RB_INSERT stores its byte at `hin` of the selected buffer, and no other byte of any storage changes; on a full
buffer it is RB_INSERT_FULL, in RUN BAD_STATE, both with nothing else changed. -/
def Obligations.RbInsertStoresOneByte : Prop :=
  ∀ (d : Dev) (sel : Sel) (b : Byte) (s : State), Memory.wf Space.storage.unlisted (s.buffer d sel).buf = true →
    ((s.dev d).life ≠ .run → (s.buffer d sel).cnt < s.cap →
      ∃ t, exec (.rbInsert d sel b) s = .next t
        ∧ (∀ e sel' i, t.storageByte e sel' i =
            if e = d ∧ sel' = sel ∧ i = insertSlot (s.buffer d sel) then b else s.storageByte e sel' i)
        ∧ (t.buffer d sel).hin = (insertSlot (s.buffer d sel) + 1) &&& (s.cap - 1)
        ∧ (t.buffer d sel).hout = (s.buffer d sel).hout
        ∧ (t.buffer d sel).cnt = (s.buffer d sel).cnt + 1
        ∧ (sel = .rx → t = { s.setDev d { s.dev d with rx := (t.dev d).rx } with pc := s.pc + 1 })
        ∧ (sel = .tx → t = { s.setDev d { s.dev d with tx := (t.dev d).tx } with pc := s.pc + 1 }))
    ∧ ((s.dev d).life ≠ .run → (s.buffer d sel).cnt = s.cap → s.faultCode = 0#8 →
      exec (.rbInsert d sel b) s = .next { s with faultCode := 3#8, faultWord := encRbInsert d sel b })
    ∧ ((s.dev d).life = .run → s.faultCode = 0#8 →
      exec (.rbInsert d sel b) s = .next { s with faultCode := 2#8, faultWord := encRbInsert d sel b })

/-- R172: RB_REMOVE emits the oldest byte of the selected buffer and takes it out; on an empty buffer it is
RB_REMOVE_EMPTY, in RUN BAD_STATE. -/
def Obligations.RbRemoveEmitsTheOldestByte : Prop :=
  ∀ (d : Dev) (s : State),
    ((s.dev d).life ≠ .run → 0 < (s.dev d).rx.cnt →
      exec (.rbRemove d .rx) s = .next { s.setDev d { s.dev d with
          rx := { (s.dev d).rx with hout := ((s.dev d).rx.hout + 1) &&& (s.cap - 1), cnt := (s.dev d).rx.cnt - 1 } } with
        res := (s.storageByte d .rx (s.dev d).rx.hout).setWidth 16
        outLog := s.outLog ++ [(s.storageByte d .rx (s.dev d).rx.hout).setWidth 16]
        pc := s.pc + 1 })
    ∧ ((s.dev d).life ≠ .run → 0 < (s.dev d).tx.cnt →
      exec (.rbRemove d .tx) s = .next { s.setDev d { s.dev d with
          tx := { (s.dev d).tx with hout := ((s.dev d).tx.hout + 1) &&& (s.cap - 1), cnt := (s.dev d).tx.cnt - 1 } } with
        res := (s.storageByte d .tx (s.dev d).tx.hout).setWidth 16
        outLog := s.outLog ++ [(s.storageByte d .tx (s.dev d).tx.hout).setWidth 16]
        pc := s.pc + 1 })
    ∧ (∀ sel, (s.dev d).life ≠ .run → (s.buffer d sel).cnt = 0 → s.faultCode = 0#8 →
      exec (.rbRemove d sel) s = .next { s with faultCode := 4#8, faultWord := encRbRemove d sel })
    ∧ (∀ sel, (s.dev d).life = .run → s.faultCode = 0#8 →
      exec (.rbRemove d sel) s = .next { s with faultCode := 2#8, faultWord := encRbRemove d sel })

/-- R173, R174: RB_FULL and RB_EMPTY emit 1 or 0 and change nothing else but the cursor; in RUN they are BAD_STATE. -/
def Obligations.RbFullAndRbEmptyEmitThePredicates : Prop :=
  ∀ (d : Dev) (sel : Sel) (s : State),
    ((s.dev d).life ≠ .run →
      (let v : Half := if (s.buffer d sel).cnt = s.cap then 0x0001#16 else 0x0000#16
       exec (.rbFull d sel) s = .next { s with res := v, outLog := s.outLog ++ [v], pc := s.pc + 1 })
      ∧ (let v : Half := if (s.buffer d sel).cnt = 0 then 0x0001#16 else 0x0000#16
       exec (.rbEmpty d sel) s = .next { s with res := v, outLog := s.outLog ++ [v], pc := s.pc + 1 }))
    ∧ ((s.dev d).life = .run → s.faultCode = 0#8 →
      exec (.rbFull d sel) s = .next { s with faultCode := 2#8, faultWord := encRbFull d sel }
      ∧ exec (.rbEmpty d sel) s = .next { s with faultCode := 2#8, faultWord := encRbEmpty d sel })

/-! ## Lifecycle -/

/-- R200: CONFIGURE assigns the four wiring fields, leaves UNCONF for CONF, and changes nothing else but the cursor. -/
def Obligations.ConfigureAssignsTheWiringFieldsOnly : Prop :=
  ∀ (d : Dev) (port route txm rxm : Byte) (s : State),
    exec (.configure d port route txm rxm) s = .next { s.setDev d { s.dev d with
      port := port, route := route, txmask := txm, rxmask := rxm,
      life := if (s.dev d).life = .unconf then .conf else (s.dev d).life } with pc := s.pc + 1 }

/-- R210, R212: INITIALIZE empties both buffers, wires the pins, writes the baud register, sets three enables and enters
RUN; `dreie`, `err`, the peripheral fields, the storage and every other device, port and register keep their values; out
of CONF and CLOSED it is BAD_STATE. -/
def Obligations.InitializeStartsTheDevice : Prop :=
  ∀ (d : Dev) (baud : Half) (s : State), Memory.wf Space.gpio.unlisted s.gpioDir = true →
    ((s.dev d).life = .conf ∨ (s.dev d).life = .closed →
      ∃ t, exec (.init d baud) s = .next t
        ∧ t.dev d = { s.dev d with
            rx := { (s.dev d).rx with hin := 0, hout := 0, cnt := 0 }
            tx := { (s.dev d).tx with hin := 0, hout := 0, cnt := 0 }
            routeOut := (s.dev d).route, baud := baud, rxen := true, txen := true, rxcie := true, life := .run }
        ∧ (∀ e, e ≠ d → t.dev e = s.dev e)
        ∧ (∀ p, gpioRead t.gpioDir p =
            if p = (s.dev d).port then (gpioRead s.gpioDir p &&& ~~~(s.dev d).rxmask) ||| (s.dev d).txmask
            else gpioRead s.gpioDir p)
        ∧ t = { s with devs := t.devs, gpioDir := t.gpioDir, pc := s.pc + 1 })
    ∧ ((s.dev d).life = .unconf ∨ (s.dev d).life = .run → s.faultCode = 0#8 →
      exec (.init d baud) s = .next { s with faultCode := 2#8, faultWord := encInit d baud })

/-- R220: CLOSE's start step latches the command and enters the drain phase; out of RUN it is BAD_STATE. -/
def Obligations.CloseStartEntersTheDrainPhase : Prop :=
  ∀ (d : Dev) (s : State),
    ((s.dev d).life = .run →
      exec (.close d) s = .next { s with mcur := encClose d, mphase := .closeDrain, pc := s.pc + 1 })
    ∧ ((s.dev d).life ≠ .run → s.faultCode = 0#8 →
      exec (.close d) s = .next { s with faultCode := 2#8, faultWord := encClose d })

/-- R221, R222, R223: each phase of CLOSE is enabled exactly when its condition holds, and does what its rule says; only
the last writes the device. -/
def Obligations.ClosePhasesWaitAndThenDisable : Prop :=
  ∀ s : State, s.faultCode = 0#8 →
    (s.mphase = .closeDrain →
      (enabled .mainline s = true ↔ (s.dev (devField s.mcur)).tx.cnt = 0)
      ∧ take .mainline s = .next { s with mphase := .closeHw })
    ∧ (s.mphase = .closeHw →
      (enabled .mainline s = true ↔
        (s.cfg.closeWait = .dre ∧ (s.dev (devField s.mcur)).hwDre = true)
        ∨ (s.cfg.closeWait = .txc ∧ (s.dev (devField s.mcur)).hwTxc = true))
      ∧ take .mainline s = .next { s with mphase := .closeSettle })
    ∧ (s.mphase = .closeSettle →
      enabled .mainline s = true
      ∧ take .mainline s = .next { s.setDev (devField s.mcur) { s.dev (devField s.mcur) with
          rxen := false, txen := false, rxcie := false, dreie := false, life := .closed } with
        mphase := .idle, mcur := 0#64 })

/-! ## Transfer -/

/-- R240: SEND_BYTE's start step latches the command and enters SEND_WAIT; out of RUN it is BAD_STATE. -/
def Obligations.SendByteStartLatchesTheCommand : Prop :=
  ∀ (d : Dev) (b : Byte) (s : State),
    ((s.dev d).life = .run →
      exec (.sendByte d b) s = .next { s with mcur := encSendByte d b, mphase := .sendWait, pc := s.pc + 1 })
    ∧ ((s.dev d).life ≠ .run → s.faultCode = 0#8 →
      exec (.sendByte d b) s = .next { s with faultCode := 2#8, faultWord := encSendByte d b })

/-- R241: SEND_BYTE completes exactly when TX has room; it stores the latched byte at `hin` of TX and no other byte of
any storage, arms `dreie`, frees the mainline, and changes nothing else. -/
def Obligations.SendByteCompletionStoresAndArms : Prop :=
  ∀ s : State, s.faultCode = 0#8 → s.mphase = .sendWait →
    let d := devField s.mcur
    (enabled .mainline s = true ↔ (s.dev d).tx.cnt < s.cap)
    ∧ (Memory.wf Space.storage.unlisted (s.dev d).tx.buf = true → (s.dev d).tx.cnt < s.cap →
      ∃ t, take .mainline s = .next t
        ∧ (∀ e sel i, t.storageByte e sel i =
            if e = d ∧ sel = .tx ∧ i = insertSlot (s.dev d).tx then field 8 8 s.mcur else s.storageByte e sel i)
        ∧ (t.dev d).tx.hin = (insertSlot (s.dev d).tx + 1) &&& (s.cap - 1)
        ∧ (t.dev d).tx.hout = (s.dev d).tx.hout
        ∧ (t.dev d).tx.cnt = (s.dev d).tx.cnt + 1
        ∧ t = { s.setDev d { s.dev d with tx := (t.dev d).tx, dreie := true } with mphase := .idle, mcur := 0#64 })

/-- R245: SEND_SEQ's start step with no byte only advances the cursor; with bytes it latches the command and enters SEQ;
out of RUN it is BAD_STATE. -/
def Obligations.SendSeqStartLatchesTheCommand : Prop :=
  ∀ (d : Dev) (bytes : List Byte) (s : State), bytes.length ≤ 6 →
    ((s.dev d).life = .run → bytes = [] → exec (.sendSeq d bytes) s = .next { s with pc := s.pc + 1 })
    ∧ ((s.dev d).life = .run → bytes ≠ [] →
      exec (.sendSeq d bytes) s =
        .next { s with mcur := encSendSeq d bytes, mseq := 0#3, mphase := .seq, pc := s.pc + 1 })
    ∧ ((s.dev d).life ≠ .run → s.faultCode = 0#8 →
      exec (.sendSeq d bytes) s = .next { s with faultCode := 2#8, faultWord := encSendSeq d bytes })

/-- R246: the SEND_SEQ byte step is enabled exactly when TX has room; it stores byte `mseq` of the latched word at `hin`
of TX and no other byte of any storage, arms `dreie`, and goes to the next byte or frees the mainline after the last. -/
def Obligations.SendSeqByteStepStoresAndArms : Prop :=
  ∀ s : State, s.faultCode = 0#8 → s.mphase = .seq →
    let d := devField s.mcur
    (enabled .mainline s = true ↔ (s.dev d).tx.cnt < s.cap)
    ∧ (Memory.wf Space.storage.unlisted (s.dev d).tx.buf = true → (s.dev d).tx.cnt < s.cap →
      ∃ t, take .mainline s = .next t
        ∧ (∀ e sel i, t.storageByte e sel i =
            if e = d ∧ sel = .tx ∧ i = insertSlot (s.dev d).tx then field (16 + 8 * s.mseq.toNat) 8 s.mcur
            else s.storageByte e sel i)
        ∧ (t.dev d).tx.hin = (insertSlot (s.dev d).tx + 1) &&& (s.cap - 1)
        ∧ (t.dev d).tx.hout = (s.dev d).tx.hout
        ∧ (t.dev d).tx.cnt = (s.dev d).tx.cnt + 1
        ∧ (s.mseq + 1#3 ≠ field 8 3 s.mcur →
          t = { s.setDev d { s.dev d with tx := (t.dev d).tx, dreie := true } with mseq := s.mseq + 1#3 })
        ∧ (s.mseq + 1#3 = field 8 3 s.mcur →
          t = { s.setDev d { s.dev d with tx := (t.dev d).tx, dreie := true } with
                mphase := .idle, mseq := 0#3, mcur := 0#64 }))

/-- R251: READ_BYTE that finds a byte takes the oldest one and emits it with the hardware flags of `err`; nothing else
changes but the cursor. -/
def Obligations.ReadByteReturnsTheOldestByteWithFlags : Prop :=
  ∀ (d : Dev) (s : State), (s.dev d).life = .run ∨ (s.dev d).life = .closed → 0 < (s.dev d).rx.cnt →
    let v : Half := (((s.dev d).err &&& 0x46#8).setWidth 16 <<< 8)
      ||| (s.storageByte d .rx (removeSlot (s.dev d).rx)).setWidth 16
    exec (.readByte d) s = .next { s.setDev d { s.dev d with
        rx := { (s.dev d).rx with hout := ((s.dev d).rx.hout + 1) &&& (s.cap - 1), cnt := (s.dev d).rx.cnt - 1 } } with
      res := v, outLog := s.outLog ++ [v], pc := s.pc + 1 }

/-- R252: READ_BYTE that finds RX empty sets NODATA in `err` and emits the flags with some low byte, whichever the free
draw gives; nothing else of the machine changes but the cursor (`draws` is the model's own counter). -/
def Obligations.EmptyReadSetsAndReportsNoData : Prop :=
  ∀ (d : Dev) (s : State), (s.dev d).life = .run ∨ (s.dev d).life = .closed → (s.dev d).rx.cnt = 0 →
    ∃ (low : Byte) (n : Nat),
      let v : Half := ((((s.dev d).err ||| 0x01#8) &&& 0x47#8).setWidth 16 <<< 8) ||| low.setWidth 16
      exec (.readByte d) s = .next { s.setDev d { s.dev d with err := (s.dev d).err ||| 0x01#8 } with
        res := v, outLog := s.outLog ++ [v], pc := s.pc + 1, draws := n }

/-- R260: RX_COUNT emits the count of RX and changes nothing else but the cursor; out of RUN and CLOSED it is
BAD_STATE. -/
def Obligations.RxCountEmitsTheCount : Prop :=
  ∀ (d : Dev) (s : State),
    ((s.dev d).life = .run ∨ (s.dev d).life = .closed → (s.dev d).rx.cnt ≤ s.cap →
      ∃ v : Half, v.toNat = (s.dev d).rx.cnt
        ∧ exec (.rxCount d) s = .next { s with res := v, outLog := s.outLog ++ [v], pc := s.pc + 1 })
    ∧ ((s.dev d).life = .unconf ∨ (s.dev d).life = .conf → s.faultCode = 0#8 →
      exec (.rxCount d) s = .next { s with faultCode := 2#8, faultWord := encRxCount d })

/-- R120: the status word of a read in a reachable state has the oldest byte or a free byte in bits 7:0, NODATA in
bit 8 exactly when RX was empty, PE, FE and BOVF of `err` in bits 9, 10 and 14, and 0 in bits 11, 12, 13 and 15. -/
def Obligations.StatusWordHasItsLayout : Prop :=
  ∀ (d : Dev) (s t : State), Inv s → (s.dev d).life = .run ∨ (s.dev d).life = .closed →
    exec (.readByte d) s = .next t →
    t.outLog = s.outLog ++ [t.res]
    ∧ (0 < (s.dev d).rx.cnt → t.res.extractLsb' 0 8 = s.storageByte d .rx (removeSlot (s.dev d).rx))
    ∧ (t.res.getLsbD 8 = true ↔ (s.dev d).rx.cnt = 0)
    ∧ t.res.getLsbD 9 = (s.dev d).err.getLsbD 1
    ∧ t.res.getLsbD 10 = (s.dev d).err.getLsbD 2
    ∧ t.res.getLsbD 14 = (s.dev d).err.getLsbD 6
    ∧ t.res.getLsbD 11 = false ∧ t.res.getLsbD 12 = false ∧ t.res.getLsbD 13 = false ∧ t.res.getLsbD 15 = false

/-! ## Interrupt-service steps -/

/-- R281, R282, R283: RXC clears `hw_rxp`; with room it stores `hw_rxd` at `hin` of RX and no other byte of any storage,
and overwrites `err` with the captured flags; on a full RX it stores nothing and overwrites `err` with the captured flags
and BOVF. Nothing else changes. -/
def Obligations.RxcStoresOrDropsTheReceivedByte : Prop :=
  ∀ (d : Dev) (s : State), Memory.wf Space.storage.unlisted (s.dev d).rx.buf = true →
    ((s.dev d).rx.cnt < s.cap →
      ∃ t, exec (.rxc d) s = .next t
        ∧ (∀ e sel i, t.storageByte e sel i =
            if e = d ∧ sel = .rx ∧ i = insertSlot (s.dev d).rx then (s.dev d).hwRxd else s.storageByte e sel i)
        ∧ (t.dev d).rx.hin = (insertSlot (s.dev d).rx + 1) &&& (s.cap - 1)
        ∧ (t.dev d).rx.hout = (s.dev d).rx.hout
        ∧ (t.dev d).rx.cnt = (s.dev d).rx.cnt + 1
        ∧ t = s.setDev d { s.dev d with rx := (t.dev d).rx, hwRxp := false, err := (s.dev d).hwRxs &&& 0x46#8 })
    ∧ (s.cap ≤ (s.dev d).rx.cnt →
      exec (.rxc d) s = .next (s.setDev d { s.dev d with
        hwRxp := false, err := ((s.dev d).hwRxs &&& 0x46#8) ||| 0x40#8 }))

/-- R291, R292: DRE with a byte in TX takes the oldest one out, writes it to the data register and the log, and clears
`hw_dre` and `hw_txc`; with TX empty it clears `dreie`. Nothing else changes. -/
def Obligations.DreTransmitsOrDisarms : Prop :=
  ∀ (d : Dev) (s : State),
    (0 < (s.dev d).tx.cnt →
      let b := s.storageByte d .tx (removeSlot (s.dev d).tx)
      exec (.dre d) s = .next (s.setDev d { s.dev d with
        tx := { (s.dev d).tx with hout := ((s.dev d).tx.hout + 1) &&& (s.cap - 1), cnt := (s.dev d).tx.cnt - 1 }
        hwTxd := b, hwDre := false, hwTxc := false, txLog := (s.dev d).txLog ++ [b] }))
    ∧ ((s.dev d).tx.cnt = 0 → exec (.dre d) s = .next (s.setDev d { s.dev d with dreie := false }))

/-- R45, R295: a service step reads and writes only its own device: the next record of the device depends on its record
and the capacity alone, and every other device and field, the cursor, the mainline latches, the result and the log among
them, keep their values. -/
def Obligations.ServiceStepTouchesOnlyItsDevice : Prop :=
  ∀ (d : Dev) (k : Kind) (s t : State), exec (serviceInstr d k) s = .next t →
    t = { s with devs := t.devs }
    ∧ (∀ e, e ≠ d → t.dev e = s.dev e)
    ∧ (∀ s' t', s'.cap = s.cap → s'.dev d = s.dev d → exec (serviceInstr d k) s' = .next t' → t'.dev d = t.dev d)

/-- R352 (which the spec derives): any two different service steps commute: each stays enabled after the other, and both orders reach one state. -/
def Obligations.ServiceStepsCommute : Prop :=
  ∀ (s : State) (d e : Dev) (k k' : Kind), (d, k) ≠ (e, k') →
    enabled (serviceChoice d k) s = true → enabled (serviceChoice e k') s = true →
    ∃ t u v, exec (serviceInstr d k) s = .next t ∧ exec (serviceInstr e k') s = .next u
      ∧ enabled (serviceChoice e k') t = true ∧ enabled (serviceChoice d k) u = true
      ∧ exec (serviceInstr e k') t = .next v ∧ exec (serviceInstr d k) u = .next v

/-- R280, R290: the two service steps are enabled exactly when their source is pending, both enables are set, `gie` is
set and no fault is held, on a device that exists; a service step is never held: it always completes. -/
def Obligations.ServiceStepsAreEnabledByTheirConditions : Prop :=
  ∀ (d : Dev) (s : State), d.val < s.cfg.ndev →
    (enabled (.rxc d) s = true ↔ s.faultCode = 0#8 ∧ s.gie = true ∧ (s.dev d).rxcie = true ∧ (s.dev d).rxen = true
      ∧ (s.dev d).hwRxp = true)
    ∧ (enabled (.dre d) s = true ↔ s.faultCode = 0#8 ∧ s.gie = true ∧ (s.dev d).dreie = true ∧ (s.dev d).txen = true
      ∧ (s.dev d).hwDre = true)
    ∧ (∀ k, ∃ t, take (serviceChoice d k) s = .next t)

/-! ## Environment -/

/-- R310: ENV_RX does nothing to a disabled receiver, loads an enabled one with nothing pending, and is ENV_RX_OVERRUN on
one with a byte pending; nothing else changes but the cursor. -/
def Obligations.EnvRxLoadsIgnoresOrOverruns : Prop :=
  ∀ (d : Dev) (data status : Byte) (s : State),
    ((s.dev d).rxen = false → exec (.envRx d data status) s = .next { s with pc := s.pc + 1 })
    ∧ ((s.dev d).rxen = true → (s.dev d).hwRxp = false →
      exec (.envRx d data status) s = .next { s.setDev d { s.dev d with
        hwRxd := data, hwRxs := status, hwRxp := true } with pc := s.pc + 1 })
    ∧ ((s.dev d).rxen = true → (s.dev d).hwRxp = true → s.faultCode = 0#8 →
      exec (.envRx d data status) s = .next { s with faultCode := 5#8, faultWord := encEnvRx d data status })

/-- R312, R314: ENV_TXDONE sets `hw_dre` and `hw_txc` when the data register was full and otherwise does nothing; ENV_GIE
writes `gie`; nothing else changes but the cursor. -/
def Obligations.EnvTxDoneAndEnvGieWriteTheirFlags : Prop :=
  ∀ (d : Dev) (v : Bool) (s : State),
    ((s.dev d).hwDre = false →
      exec (.envTxDone d) s = .next { s.setDev d { s.dev d with hwDre := true, hwTxc := true } with pc := s.pc + 1 })
    ∧ ((s.dev d).hwDre = true → exec (.envTxDone d) s = .next { s with pc := s.pc + 1 })
    ∧ exec (.envGie v) s = .next { s with gie := v, pc := s.pc + 1 }

/-- R315, with the word an overrun names as the model chooses it (log 13): in open mode an event does what its item does, without consuming an item: the item's next state is the event's with
the cursor advanced, unless the event overran, and then it is the event's. -/
def Obligations.OpenEventIsTheItemWithoutTheCursor : Prop :=
  ∀ (e : EnvEvent) (s : State), s.faultCode = 0#8 →
    let i : Instr := match e with
      | .rx d data status => .envRx d data status
      | .txDone d => .envTxDone d
      | .gie v => .envGie v
    ∃ t, take (.event e) s = .next t ∧ t.pc = s.pc ∧ t.script = s.script
      ∧ (t.faultCode = 0#8 → exec i s = .next { t with pc := s.pc + 1 })
      ∧ (t.faultCode ≠ 0#8 → exec i s = .next t)

/-! ## Faults -/

/-- R345: a command whose entry in the legality table is BAD raises BAD_STATE with its word and changes nothing else; one
whose entry is ok does not raise it, and ENV_GIE never does. -/
def Obligations.BadStateIsRaisedExactlyByTheLegalityTable : Prop :=
  ∀ (i : Instr) (W : Word) (s : State), encode i = .word W → s.faultCode = 0#8 →
    (∀ d, i.dev? = some d →
      (legalIn i (s.dev d).life = false → exec i s = .next { s with faultCode := 2#8, faultWord := W })
      ∧ (legalIn i (s.dev d).life = true → ∀ t, exec i s = .next t → t.faultCode ≠ 2#8))
    ∧ (i.dev? = none → ∀ t, exec i s = .next t → t.faultCode = 0#8)

/-- R343: consuming a word raises ILLEGAL_CMD when it does not decode, whatever the state of any device; BAD_STATE when it
decodes to a command not legal in its device's state, whatever its buffer holds; and the command's own fault only
otherwise. -/
def Obligations.FaultsOfOneWordHaveTheirPriority : Prop :=
  ∀ (W : Word) (s : State), s.faultCode = 0#8 →
    (∀ e, decodeWord s.cfg.ndev W = .error e → consumeWord W s = .next { s with faultCode := 1#8, faultWord := W })
    ∧ (∀ i d, decodeWord s.cfg.ndev W = .ok i → i.dev? = some d → legalIn i (s.dev d).life = false →
      consumeWord W s = .next { s with faultCode := 2#8, faultWord := W })
    ∧ (∀ t, consumeWord W s = .next t → 3 ≤ t.faultCode.toNat →
      ∃ i, decodeWord s.cfg.ndev W = .ok i ∧ ∀ d, i.dev? = some d → legalIn i (s.dev d).life = true)

/-- From R340 and R341: a step that raises a fault changes nothing but the fault register (and the model's own schedule, log 5), the
code is one of 1 to 5, and after it no step of any agent is enabled and the machine stops as FAULT (so named by the
model, log 8). -/
def Obligations.FaultsArePreciseAndFinal : Prop :=
  (∀ s t : State, step s = .next t → s.faultCode = 0#8 → t.faultCode ≠ 0#8 →
    t = { s with faultCode := t.faultCode, faultWord := t.faultWord, sched := t.sched }
    ∧ 1 ≤ t.faultCode.toNat ∧ t.faultCode.toNat ≤ 5)
  ∧ (∀ s : State, s.faultCode ≠ 0#8 → (∀ c, enabled c s = false) ∧ step s = .fault .faulted)

/-! ## The machine -/

/-- R380: after power-on every field the reset table gives has its value. -/
def Obligations.PowerOnHasTheResetTable : Prop :=
  ∀ (c : Config) (S : List Word),
    let s := State.powerOn c S
    (∀ d, (s.dev d).life = .unconf ∧ (s.dev d).baud = 0#16 ∧ (s.dev d).routeOut = 0#8
      ∧ (s.dev d).rxen = false ∧ (s.dev d).txen = false ∧ (s.dev d).rxcie = false ∧ (s.dev d).dreie = false
      ∧ ((s.dev d).rx.hin = 0 ∧ (s.dev d).rx.hout = 0 ∧ (s.dev d).rx.cnt = 0)
      ∧ ((s.dev d).tx.hin = 0 ∧ (s.dev d).tx.hout = 0 ∧ (s.dev d).tx.cnt = 0)
      ∧ (s.dev d).err = 0x00#8
      ∧ (s.dev d).hwRxp = false ∧ (s.dev d).hwRxd = 0x00#8 ∧ (s.dev d).hwRxs = 0x00#8
      ∧ (s.dev d).hwDre = true ∧ (s.dev d).hwTxc = false ∧ (s.dev d).hwTxd = 0x00#8 ∧ (s.dev d).txLog = [])
    ∧ s.gie = false ∧ (∀ p, gpioRead s.gpioDir p = 0x00#8) ∧ s.pc = 0
    ∧ s.mphase = .idle ∧ s.mcur = 0#64 ∧ s.mseq = 0#3 ∧ s.res = 0#16 ∧ s.outLog = []
    ∧ s.faultCode = 0#8 ∧ s.faultWord = 0#64

/-- Every instruction's meaning answers a next state, in every state: none stops; and the machine never refuses. -/
def Obligations.EveryInstructionAnswersANextState : Prop :=
  (∀ (i : Instr) (s : State), ∃ t, exec i s = .next t) ∧ ∀ (s : State) (r : Refusal), step s ≠ .refused r

/-- R321, with the schedule as the model holds it (log 5): when the item at the cursor may be consumed and its word decodes to an instruction, the step that consumes it is
`exec` of that instruction at that state (the model's own schedule moved on); when its word does not decode, the step
raises ILLEGAL_CMD with the word. The item is consumed when the schedule asks for it, and also with an empty schedule when
no service step and no continuation is enabled. -/
def Obligations.StepRunsTheDecodedItem : Prop :=
  ∀ (s : State) (W : Word) (rest : List Choice), s.faultCode = 0#8 → s.script[s.pc]? = some W →
    (isEnvWord W = true ∨ s.mphase = .idle) →
    (s.sched = .item :: rest ∨
      (s.sched = [] ∧ rest = [] ∧ enabled .mainline s = false ∧
        ∀ d, enabled (.rxc d) s = false ∧ enabled (.dre d) s = false)) →
    (∀ i, decodeWord s.cfg.ndev W = .ok i → step s = exec i { s with sched := rest })
    ∧ (∀ e, decodeWord s.cfg.ndev W = .error e →
      step s = .next { s with faultCode := 1#8, faultWord := W, sched := rest })

/-- A script item is consumed only as R321 allows: past the end none is, and while a command is in flight only an
environment item. -/
def Obligations.ItemIsEnabledExactlyAsItMayBeConsumed : Prop :=
  ∀ s : State, enabled .item s = true ↔
    s.faultCode = 0#8 ∧ ∃ W, s.script[s.pc]? = some W ∧ (0xD ≤ (field 0 4 W).toNat ∨ s.mphase = .idle)

/-- R322, with the schedule as the model holds it (log 5): a step of the machine is one enabled step of one agent, and a step is taken whenever one is enabled in scripted
mode. -/
def Obligations.EveryStepIsOneEnabledStep : Prop :=
  (∀ s t : State, step s = .next t → ∃ c rest, enabled c s = true ∧ take c { s with sched := rest } = .next t)
  ∧ (∀ s : State, (∃ c ∈ testOrder, enabled c s = true) → ∃ t, step s = .next t)

/-- R322, with the schedule as the model holds it (log 5): whichever enabled step the schedule names is the step taken, whatever else is enabled. -/
def Obligations.EveryEnabledStepCanBeTakenNext : Prop :=
  ∀ (s : State) (c : Choice) (rest : List Choice), enabled c s = true →
    step { s with sched := c :: rest } = take c { s with sched := rest }
    ∧ ∃ t, take c { s with sched := rest } = .next t

/-- R323, with an empty schedule standing for the test scheduler (log 5) and the ends of a run as the model names them
(log 8): with no schedule the machine is the test scheduler: a faulted machine stops, then the enabled service step with
the lowest vector id, then the mainline continuation, then the item, and otherwise the run ends. -/
def Obligations.TestSchedulerTakesItsFixedOrder : Prop :=
  ∀ s : State, s.sched = [] →
    (s.faultCode ≠ 0#8 → step s = .fault .faulted)
    ∧ (∀ d k, enabled (serviceChoice d k) s = true →
        (∀ e k', (vectorId e k').toNat < (vectorId d k).toNat → enabled (serviceChoice e k') s = false) →
        step s = exec (serviceInstr d k) s)
    ∧ (NoService s → enabled .mainline s = true → step s = .next (mainlineStep s))
    ∧ (NoService s → enabled .mainline s = false → enabled .item s = true → step s = consumeItem s)
    ∧ (NoService s → enabled .mainline s = false → enabled .item s = false → s.faultCode = 0#8 →
        step s = .fault (if s.pc = s.script.length ∧ s.mphase = .idle then .done else .stuck))

/-- R325, with the ends of a run as the model names them (log 8): with no open-mode event to come, the machine stops as FAULT exactly in a faulted state, as DONE exactly in a DONE
state, and as STUCK exactly in a stuck one. -/
def Obligations.EndOfRunIsNamedRight : Prop :=
  ∀ s : State, s.sched = [] →
    (step s = .fault .faulted ↔ IsFaulted s) ∧ (step s = .fault .done ↔ IsDone s) ∧ (step s = .fault .stuck ↔ IsStuck s)

/-- A step writes the record of one device at most: that of its source, event, in-flight command or item. -/
def Obligations.StepWritesOneDeviceAtMost : Prop :=
  ∀ (c : Choice) (s t : State) (e : Dev), take c s = .next t → e ≠ choiceDev s c → t.dev e = s.dev e

/-- No step writes the parameters (held in State as data, log 2) or the script, the cursor moves by one at most and never back, and only ENV_GIE, as an
item or an event, writes `gie`. -/
def Obligations.StepKeepsParametersScriptAndOrder : Prop :=
  ∀ (c : Choice) (s t : State), take c s = .next t →
    t.cfg = s.cfg ∧ t.script = s.script
    ∧ (t.pc = s.pc ∨ (t.pc = s.pc + 1 ∧ c = .item))
    ∧ (t.gie = s.gie ∨ (∃ v, c = .event (.gie v)) ∨ (c = .item ∧ ∃ v, nextItem s = some (encEnvGie v)))

/-! ## Invariants over every run -/

/-- The invariant `Inv` (Safety.lean) holds after power-on, with any parameters and any script. -/
def Obligations.PowerOnSatisfiesTheInvariant : Prop := ∀ (c : Config) (S : List Word), Inv (State.powerOn c S)

/-- Every step from a state with the invariant gives a state with the invariant. -/
def Obligations.EveryStepKeepsTheInvariant : Prop := ∀ s t : State, Inv s → step s = .next t → Inv t

/-- R39 ((b) and (c) the spec derives): in every reachable state, each ring buffer's count is within its capacity, its write index is its read index plus
its count, and its live window holds bytes that were written. -/
def Obligations.RingInvariantsHoldInEveryReachableState : Prop :=
  ∀ (s : State) (d : Dev) (sel : Sel), Reachable s →
    (s.buffer d sel).cnt ≤ s.cap
    ∧ (s.buffer d sel).hin = ((s.buffer d sel).hout + (s.buffer d sel).cnt) % s.cap
    ∧ (∀ j < (s.buffer d sel).cnt, (s.contents d sel)[j]? =
        memLookup Space.storage.unlisted (s.buffer d sel).buf (((s.buffer d sel).hout + j) % s.cap))

/-- R293 (which the spec derives): in every reachable state, a running device with a byte in TX has its transmit interrupt armed. -/
def Obligations.PendingTransmitIsArmedInEveryReachableState : Prop :=
  ∀ (s : State) (d : Dev), Reachable s → s.faultCode = 0#8 → (s.dev d).life = .run → 0 < (s.dev d).tx.cnt →
    (s.dev d).dreie = true

/-- R224 (which the spec derives): in every reachable state in which CLOSE's last step may be taken, TX is empty and the flag CLOSE waits on is
still set, and the device closes by that step alone. -/
def Obligations.CloseReturnsOnlyAfterTheDrain : Prop :=
  (∀ s : State, Reachable s → s.mphase = .closeSettle →
    (s.dev (devField s.mcur)).tx.cnt = 0 ∧ closeFlag s.cfg.closeWait (s.dev (devField s.mcur)) = true)
  ∧ (∀ (s t : State) (d : Dev), Reachable s → step s = .next t → (s.dev d).life ≠ .closed → (t.dev d).life = .closed →
    s.mphase = .closeSettle ∧ devField s.mcur = d)

/-- No byte sent is lost, doubled or reordered: while a device runs, the bytes written to its line followed by the bytes in
its TX only ever grow, by the byte a SEND_BYTE or SEND_SEQ step inserts. -/
def Obligations.TransmitStreamOnlyGrowsBySentBytes : Prop :=
  ∀ (s t : State) (d : Dev), Inv s → step s = .next t → (s.dev d).life = .run →
    ∃ sent : List Byte,
      (t.dev d).txLog ++ t.contents d .tx = (s.dev d).txLog ++ s.contents d .tx ++ sent
      ∧ (sent = []
        ∨ (s.mphase = .sendWait ∧ devField s.mcur = d ∧ sent = [field 8 8 s.mcur])
        ∨ (s.mphase = .seq ∧ devField s.mcur = d ∧ sent = [field (16 + 8 * s.mseq.toNat) 8 s.mcur]))

/-- R284 (a) (which the spec derives): after a dropped byte, whatever steps are taken while the device runs, the overflow stays pending until a READ_BYTE of
the device, and that read reports BOVF with a byte. -/
def Obligations.OverflowIsReportedByTheNextRead : Prop :=
  ∀ (s t : State) (d : Dev), Inv s → OverflowPending s d → (s.dev d).life = .run → step s = .next t →
    OverflowPending t d
    ∨ (s.script[s.pc]? = some (encReadByte d)
      ∧ ∃ v : Half, t.outLog = s.outLog ++ [v] ∧ v.getLsbD 14 = true ∧ v.getLsbD 8 = false)

/-! ## Liveness under weak fairness -/

/-- From R324 (fairness of runs: log 9): in every weakly fair run in which interrupts stay enabled, a byte pending in the peripheral is eventually serviced. -/
def Obligations.PendingByteIsEventuallyServiced : Prop :=
  ∀ (r : Run) (d : Dev) (n : Nat), r.Valid → r.WeaklyFair → d.val < (r.state n).cfg.ndev →
    (∀ m, n ≤ m → (r.state m).gie = true ∧ ((r.state m).dev d).rxcie = true ∧ ((r.state m).dev d).rxen = true) →
    ((r.state n).dev d).hwRxp = true →
    ∃ m, n ≤ m ∧ r.choice m = .rxc d

/-- From R293's last sentence and R324 (log 9): in every weakly fair run in which `gie` stays 1, the device stays RUN and the environment keeps emptying the data
register, the oldest byte in TX is eventually written to the line. -/
def Obligations.QueuedByteIsEventuallyWritten : Prop :=
  ∀ (r : Run) (d : Dev) (n : Nat), r.Valid → r.WeaklyFair → Inv (r.state n) → d.val < (r.state n).cfg.ndev →
    (∀ m, n ≤ m → (r.state m).gie = true ∧ ((r.state m).dev d).life = .run) →
    (∀ k, n ≤ k → ∃ m, k ≤ m ∧ ((r.state m).dev d).hwDre = true) →
    0 < ((r.state n).dev d).tx.cnt →
    ∃ m, n ≤ m ∧ ((r.state (m + 1)).dev d).txLog = ((r.state m).dev d).txLog ++ [headByte d .tx (r.state n)]

/-! ## Assembler -/

/-- R125: PUTC is SEND_BYTE; SENDSTR is ceil(len/6) SEND_SEQ commands that carry the bytes of the text in order, six per
command and the remainder in the last, all well-formed, and an empty text is nothing. -/
def Obligations.PseudoCommandsExpand : Prop :=
  (∀ d b, putc d b = [.sendByte d b])
  ∧ (∀ (d : Dev) (text : List Byte), ∃ parts : List (List Byte),
    sendStr d text = parts.map (.sendSeq d)
    ∧ parts.flatten = text
    ∧ parts.length = (text.length + 5) / 6
    ∧ (∀ p ∈ parts, 0 < p.length ∧ p.length ≤ 6)
    ∧ (∀ p ∈ parts.dropLast, p.length = 6))
end

