-- ==== Sys2Proof/Laws/Memory.lean ====
section
/-! SUPPORT. The laws of memory in canonical form: read after write, and that writes keep the form. -/

namespace Sys2Proof.Machine

theorem memory_wf_cons (u : Option Byte) (c : Host.Cell) (m : Memory) :
    Memory.wf u (c :: m) = true ↔ some c.2 ≠ u ∧ (∀ c' ∈ m, c.1 < c'.1) ∧ Memory.wf u m = true := by
  simp [Memory.wf, and_assoc]

/-- Below every listed index, nothing is listed. -/
theorem memLookup_below (u : Option Byte) (m : Memory) (a : Nat) (h : ∀ c ∈ m, a < c.1) : memLookup u m a = u := by
  induction m with
  | nil => rfl
  | cons c m ih =>
    have hc := h c (by simp)
    simp only [memLookup]
    rw [if_neg (by omega), ih fun c' hc' => h c' (by simp [hc'])]

/-- A cell put in front is read there and hides nothing else, when nothing behind it lists its index. -/
theorem memLookup_memCons (u : Option Byte) (m : Memory) (a : Nat) (v : Byte) (x : Nat) (h : ∀ c ∈ m, a < c.1) :
    memLookup u (memCons u a v m) x = if x = a then some v else memLookup u m x := by
  unfold memCons
  split
  · next hv =>
    split
    · next hx => rw [hx, memLookup_below u m a h, hv]
    · rfl
  · by_cases hx : x = a
    · subst hx; simp [memLookup]
    · simp [memLookup, hx, Ne.symm hx]

/-- Read after write, on memory in canonical form. -/
theorem memLookup_memStore (u : Option Byte) (m : Memory) (a : Nat) (v : Byte) (x : Nat)
    (hm : Memory.wf u m = true) : memLookup u (memStore u m a v) x = if x = a then some v else memLookup u m x := by
  induction m with
  | nil => simpa [memStore] using memLookup_memCons u [] a v x (by simp)
  | cons c m ih =>
    obtain ⟨-, hlt, hwf⟩ := (memory_wf_cons u c m).1 hm
    simp only [memStore]
    split
    · next h =>
      refine memLookup_memCons u (c :: m) a v x ?_
      intro c' hc'
      rcases List.mem_cons.1 hc' with rfl | hc'
      · exact h
      · exact lt_trans h (hlt c' hc')
    · split
      · next h =>
        subst h
        rw [memLookup_memCons u m c.1 v x hlt]
        by_cases hx : x = c.1 <;> simp [memLookup, hx, eq_comm]
      · next h1 h2 =>
        simp only [memLookup]
        by_cases hx : c.1 = x
        · rw [if_pos hx, if_neg (by omega), if_pos hx]
        · rw [if_neg hx, ih hwf, if_neg hx]

theorem mem_memCons (u : Option Byte) (m : Memory) (a : Nat) (v : Byte) (c : Host.Cell) (h : c ∈ memCons u a v m) :
    c = (a, v) ∨ c ∈ m := by
  unfold memCons at h
  split at h
  · exact .inr h
  · simpa using h

/-- Every cell after a write is the written one or was there before. -/
theorem mem_memStore (u : Option Byte) (m : Memory) (a : Nat) (v : Byte) (c : Host.Cell)
    (h : c ∈ memStore u m a v) : c = (a, v) ∨ c ∈ m := by
  induction m with
  | nil => exact mem_memCons u [] a v c h
  | cons b m ih =>
    simp only [memStore] at h
    split at h
    · exact mem_memCons u _ a v c h
    · split at h
      · rcases mem_memCons u _ a v c h with h | h
        · exact .inl h
        · exact .inr (by simp [h])
      · rcases List.mem_cons.1 h with h | h
        · exact .inr (by simp [h])
        · rcases ih h with h | h
          · exact .inl h
          · exact .inr (by simp [h])

theorem memCons_wf (u : Option Byte) (m : Memory) (a : Nat) (v : Byte) (hm : Memory.wf u m = true)
    (h : ∀ c ∈ m, a < c.1) : Memory.wf u (memCons u a v m) = true := by
  unfold memCons
  split
  · exact hm
  · next hv => exact (memory_wf_cons u (a, v) m).2 ⟨hv, h, hm⟩

/-- A write keeps the canonical form. -/
theorem memStore_wf (u : Option Byte) (m : Memory) (a : Nat) (v : Byte) (hm : Memory.wf u m = true) :
    Memory.wf u (memStore u m a v) = true := by
  induction m with
  | nil => exact memCons_wf u [] a v rfl (by simp)
  | cons b m ih =>
    obtain ⟨hb, hlt, hwf⟩ := (memory_wf_cons u b m).1 hm
    simp only [memStore]
    split
    · next h =>
      refine memCons_wf u _ a v hm ?_
      intro c hc
      rcases List.mem_cons.1 hc with rfl | hc
      · exact h
      · exact lt_trans h (hlt c hc)
    · split
      · next h => subst h; exact memCons_wf u m b.1 v hwf hlt
      · next h1 h2 =>
        refine (memory_wf_cons u b _).2 ⟨hb, ?_, ih hwf⟩
        intro c hc
        rcases mem_memStore u m a v c hc with rfl | hc
        · exact show b.1 < a by omega
        · exact hlt c hc

/-- Equal readings are equal memories: the canonical form is one. -/
theorem memory_eq_of_lookup (u : Option Byte) (m m' : Memory) (hm : Memory.wf u m = true) (hm' : Memory.wf u m' = true)
    (h : ∀ a, memLookup u m a = memLookup u m' a) : m = m' := by
  induction m generalizing m' with
  | nil =>
    cases m' with
    | nil => rfl
    | cons c m' =>
      have := h c.1
      simp only [memLookup, if_true] at this
      exact absurd this.symm ((memory_wf_cons u c m').1 hm').1
  | cons b m ih =>
    obtain ⟨hb, hlt, hwf⟩ := (memory_wf_cons u b m).1 hm
    cases m' with
    | nil =>
      have := h b.1
      simp only [memLookup, if_true] at this
      exact absurd this hb
    | cons c m' =>
      obtain ⟨hc, hlt', hwf'⟩ := (memory_wf_cons u c m').1 hm'
      have hbc : b.1 = c.1 := by
        rcases Nat.lt_trichotomy b.1 c.1 with k | k | k
        · have := h b.1
          simp only [memLookup, if_true] at this
          rw [if_neg (by omega), memLookup_below u m' b.1 fun c' hc' => lt_trans k (hlt' c' hc')] at this
          exact absurd this hb
        · exact k
        · have := h c.1
          simp only [memLookup, if_true] at this
          rw [if_neg (by omega), memLookup_below u m c.1 fun c' hc' => lt_trans k (hlt c' hc')] at this
          exact absurd this.symm hc
      have hv : b.2 = c.2 := by
        have := h b.1
        simpa [memLookup, hbc] using this
      have hm2 : m = m' := by
        refine ih m' hwf hwf' fun a => ?_
        by_cases ha : b.1 = a
        · subst ha
          rw [memLookup_below u m _ hlt, hbc, memLookup_below u m' _ hlt']
        · have := h a
          simpa [memLookup, ha, hbc ▸ ha] using this
      rw [hm2, Prod.ext hbc hv]

end Sys2Proof.Machine
end

