-- ==== Sys2Proof/Laws/Ring.lean ====
section
/-! SUPPORT. The laws of the ring-buffer primitives (40_ringbuffer.md section 1). -/

namespace Sys2Proof.Machine

theorem cap_pos (c : Config) : 0 < c.cap := Nat.two_pow_pos _

theorem cap_le (c : Config) : c.cap ≤ 32768 := by
  have h : c.k.val ≤ 15 := by have := c.k.isLt; omega
  simpa [Config.cap] using Nat.pow_le_pow_right (by decide : 0 < 2) h

/-- The mask is the remainder when the capacity is a power of two (R165). -/
theorem ringAdvance_two_pow (k i : Nat) : ringAdvance (2 ^ k) i = (i + 1) % 2 ^ k :=
  Nat.and_two_pow_sub_one_eq_mod (i + 1) k

theorem ringAdvance_cap (c : Config) (i : Nat) : ringAdvance c.cap i = (i + 1) % c.cap :=
  ringAdvance_two_pow c.k.val i

/-! ## Fields -/

@[simp] theorem ringReset_buf (B : RingBuffer) : (ringReset B).buf = B.buf := rfl
@[simp] theorem ringReset_hin (B : RingBuffer) : (ringReset B).hin = 0 := rfl
@[simp] theorem ringReset_hout (B : RingBuffer) : (ringReset B).hout = 0 := rfl
@[simp] theorem ringReset_cnt (B : RingBuffer) : (ringReset B).cnt = 0 := rfl
@[simp] theorem ringInsert_buf (cap : Nat) (B : RingBuffer) (b : Byte) :
    (ringInsert cap B b).buf = memStore Space.storage.unlisted B.buf B.hin b := rfl
@[simp] theorem ringInsert_hin (cap : Nat) (B : RingBuffer) (b : Byte) :
    (ringInsert cap B b).hin = ringAdvance cap B.hin := rfl
@[simp] theorem ringInsert_hout (cap : Nat) (B : RingBuffer) (b : Byte) : (ringInsert cap B b).hout = B.hout := rfl
@[simp] theorem ringInsert_cnt (cap : Nat) (B : RingBuffer) (b : Byte) : (ringInsert cap B b).cnt = B.cnt + 1 := rfl
@[simp] theorem ringDrop_buf (cap : Nat) (B : RingBuffer) : (ringDrop cap B).buf = B.buf := rfl
@[simp] theorem ringDrop_hin (cap : Nat) (B : RingBuffer) : (ringDrop cap B).hin = B.hin := rfl
@[simp] theorem ringDrop_hout (cap : Nat) (B : RingBuffer) : (ringDrop cap B).hout = ringAdvance cap B.hout := rfl
@[simp] theorem ringDrop_cnt (cap : Nat) (B : RingBuffer) : (ringDrop cap B).cnt = B.cnt - 1 := rfl

/-! ## Storage reads -/

/-- A read depends on the storage alone. -/
theorem ringRead_congr (fill : Nat → Byte) (B B' : RingBuffer) (i : Nat) (h : B.buf = B'.buf) :
    ringRead fill B i = ringRead fill B' i := by simp [ringRead, h]

/-- Insert writes the slot `hin` and no other (R163). -/
theorem ringRead_ringInsert (cap : Nat) (fill : Nat → Byte) (B : RingBuffer) (b : Byte) (i : Nat)
    (h : Memory.wf Space.storage.unlisted B.buf = true) :
    ringRead fill (ringInsert cap B b) i = if i = B.hin then b else ringRead fill B i := by
  simp only [ringRead, ringInsert_buf, memLookup_memStore _ _ _ _ _ h]
  split <;> simp

/-! ## The invariant of a ring buffer -/

theorem ringReset_initial_ok (c : Config) : RingBuffer.reset.Ok c.cap where
  canonical := rfl
  inside := by simp [RingBuffer.reset]
  hin_lt := cap_pos c
  hout_lt := cap_pos c
  cnt_le := Nat.zero_le _
  hin_eq := by simp [RingBuffer.reset]
  live := by simp [RingBuffer.reset]

theorem ringReset_ok (c : Config) (B : RingBuffer) (h : B.Ok c.cap) : (ringReset B).Ok c.cap where
  canonical := h.canonical
  inside := h.inside
  hin_lt := cap_pos c
  hout_lt := cap_pos c
  cnt_le := Nat.zero_le _
  hin_eq := by simp
  live := by simp

/-- The slot of the next insert is behind the live window. -/
theorem live_slot_ne_hin (cap : Nat) (B : RingBuffer) (h : B.Ok cap) (hroom : B.cnt < cap) (j : Nat) (hj : j < B.cnt) :
    (B.hout + j) % cap ≠ B.hin := by
  rw [h.hin_eq]
  have h1 := h.hout_lt
  intro heq
  rcases Nat.lt_or_ge (B.hout + j) cap with h2 | h2 <;> rcases Nat.lt_or_ge (B.hout + B.cnt) cap with h3 | h3
  · rw [Nat.mod_eq_of_lt h2, Nat.mod_eq_of_lt h3] at heq; omega
  · rw [Nat.mod_eq_of_lt h2, Nat.mod_eq_sub_mod h3, Nat.mod_eq_of_lt (by omega)] at heq; omega
  · omega
  · rw [Nat.mod_eq_sub_mod h2, Nat.mod_eq_sub_mod h3, Nat.mod_eq_of_lt (by omega), Nat.mod_eq_of_lt (by omega)] at heq
    omega

theorem ringInsert_ok (c : Config) (B : RingBuffer) (b : Byte) (h : B.Ok c.cap) (hroom : B.cnt < c.cap) :
    (ringInsert c.cap B b).Ok c.cap where
  canonical := memStore_wf _ _ _ _ h.canonical
  inside := by
    intro x hx
    rcases mem_memStore _ _ _ _ _ hx with rfl | hx
    · exact h.hin_lt
    · exact h.inside x hx
  hin_lt := by simpa [ringAdvance_cap] using Nat.mod_lt _ (cap_pos c)
  hout_lt := h.hout_lt
  cnt_le := hroom
  hin_eq := by
    simp only [ringInsert_hin, ringInsert_hout, ringInsert_cnt, ringAdvance_cap]
    rw [h.hin_eq, Nat.mod_add_mod, Nat.add_assoc]
  live := by
    intro j hj
    simp only [ringInsert_cnt, ringInsert_hout, ringInsert_buf] at hj ⊢
    rw [memLookup_memStore _ _ _ _ _ h.canonical]
    split
    · rfl
    · next hne =>
      rcases Nat.lt_succ_iff_lt_or_eq.1 hj with hj | rfl
      · exact h.live j hj
      · exact absurd h.hin_eq.symm hne

theorem ringDrop_ok (c : Config) (B : RingBuffer) (h : B.Ok c.cap) (hany : 0 < B.cnt) :
    (ringDrop c.cap B).Ok c.cap where
  canonical := h.canonical
  inside := h.inside
  hin_lt := h.hin_lt
  hout_lt := by simpa [ringAdvance_cap] using Nat.mod_lt _ (cap_pos c)
  cnt_le := le_trans (Nat.sub_le _ _) h.cnt_le
  hin_eq := by
    simp only [ringDrop_hin, ringDrop_hout, ringDrop_cnt, ringAdvance_cap]
    rw [Nat.mod_add_mod, h.hin_eq]
    congr 1
    omega
  live := by
    intro j hj
    simp only [ringDrop_cnt, ringDrop_hout, ringDrop_buf, ringAdvance_cap] at hj ⊢
    rw [Nat.mod_add_mod, show B.hout + 1 + j = B.hout + (j + 1) by omega]
    exact h.live (j + 1) (by omega)

/-! ## The queue a ring buffer stands for -/

@[simp] theorem ringContents_length (cap : Nat) (fill : Nat → Byte) (B : RingBuffer) :
    (ringContents cap fill B).length = B.cnt := by simp [ringContents]

@[simp] theorem ringContents_ringReset (cap : Nat) (fill : Nat → Byte) (B : RingBuffer) :
    ringContents cap fill (ringReset B) = [] := by simp [ringContents]

/-- Insert appends its byte to the queue (R166). -/
theorem ringContents_ringInsert (cap : Nat) (fill : Nat → Byte) (B : RingBuffer) (b : Byte) (h : B.Ok cap)
    (hroom : B.cnt < cap) : ringContents cap fill (ringInsert cap B b) = ringContents cap fill B ++ [b] := by
  simp only [ringContents, ringInsert_cnt, ringInsert_hout, List.range_succ, List.map_append, List.map_cons,
    List.map_nil]
  congr 1
  · refine List.map_congr_left fun j hj => ?_
    rw [ringRead_ringInsert cap fill B b _ h.canonical,
      if_neg (live_slot_ne_hin cap B h hroom j (List.mem_range.1 hj))]
  · rw [ringRead_ringInsert cap fill B b _ h.canonical, if_pos h.hin_eq.symm]

/-- Remove takes the oldest byte of the queue (R166). -/
theorem ringContents_ringDrop (c : Config) (fill : Nat → Byte) (B : RingBuffer) (h : B.Ok c.cap) (hany : 0 < B.cnt) :
    ringContents c.cap fill B = ringHead fill B :: ringContents c.cap fill (ringDrop c.cap B) := by
  obtain ⟨n, hn⟩ : ∃ n, B.cnt = n + 1 := ⟨B.cnt - 1, by omega⟩
  simp only [ringContents, ringDrop_cnt, ringDrop_hout, hn, List.range_succ_eq_map, List.map_cons, List.map_map,
    Nat.add_zero, Nat.add_sub_cancel, ringAdvance_cap, Nat.mod_add_mod]
  congr 1
  · simp [ringHead, removeSlot, Nat.mod_eq_of_lt h.hout_lt]
  · refine List.map_congr_left fun j _ => ?_
    simp only [Function.comp, Nat.succ_eq_add_one]
    rw [show B.hout + (j + 1) = B.hout + 1 + j by omega]
    exact ringRead_congr fill _ _ _ rfl

end Sys2Proof.Machine
end

