-- ==== Sys2Proof/Laws/State.lean ====
section
/-! SUPPORT. One lemma per field per update of State: what each named update changes and what it leaves. -/

namespace Sys2Proof.Machine

/-! ## Device records: read after write -/

@[simp] theorem dev_setDev_same (s : State) (d : Dev) (x : Device) : (s.setDev d x).dev d = x := by
  simp [State.dev, State.setDev]

theorem dev_setDev_ne (s : State) (d e : Dev) (x : Device) (h : d ≠ e) : (s.setDev d x).dev e = s.dev e := by
  have h' : d.val ≠ e.val := fun k => h (Fin.ext k)
  simp [State.dev, State.setDev, Vector.getElem_set_ne, h']

theorem dev_setDev (s : State) (d e : Dev) (x : Device) :
    (s.setDev d x).dev e = if d = e then x else s.dev e := by
  by_cases h : d = e
  · subst h; simp
  · simp [h, dev_setDev_ne s d e x h]

@[simp] theorem setDev_setDev (s : State) (d : Dev) (x y : Device) : (s.setDev d x).setDev d y = s.setDev d y := by
  simp [State.setDev]

@[simp] theorem setDev_dev (s : State) (d : Dev) : s.setDev d (s.dev d) = s := by
  simp [State.dev, State.setDev]

/-- Writes of two different devices commute. -/
theorem setDev_comm (s : State) (d e : Dev) (x y : Device) (h : d ≠ e) :
    (s.setDev d x).setDev e y = (s.setDev e y).setDev d x := by
  have h' : d.val ≠ e.val := fun k => h (Fin.ext k)
  simp only [State.setDev, Vector.set_comm _ _ h']

/-- The record of a device of a state written out. -/
@[simp] theorem dev_mk (c : Config) (v : Vector Device 8) (g : Bool) (m : Memory) (S : List Word) (p : Nat) (ph : Phase)
    (w : Word) (q : BitVec 3) (r : Half) (o : List Half) (f : BitVec 8) (fw : Word) (sc : List Choice) (n : Nat) (d : Dev) :
    (State.mk c v g m S p ph w q r o f fw sc n).dev d = v[d] := rfl

@[simp] theorem devs_get (s : State) (d : Dev) : s.devs[d] = s.dev d := rfl

@[simp] theorem devs_get_val (s : State) (d : Dev) (h : d.val < 8) : s.devs[d.val]'h = s.dev d := rfl

/-- Two states are equal when their fields and the records of their devices are. -/
theorem devs_ext (s t : State) (h : ∀ d, s.dev d = t.dev d) : s.devs = t.devs := by
  apply Vector.ext
  intro i hi
  exact h ⟨i, hi⟩

@[simp] theorem dev_powerOn (c : Config) (S : List Word) (d : Dev) : (State.powerOn c S).dev d = Device.reset := by
  simp [State.powerOn, dev_mk]

/-! ## `setDev` leaves every other field -/

@[simp] theorem setDev_cfg (s : State) (d : Dev) (x : Device) : (s.setDev d x).cfg = s.cfg := rfl
@[simp] theorem setDev_gie (s : State) (d : Dev) (x : Device) : (s.setDev d x).gie = s.gie := rfl
@[simp] theorem setDev_gpioDir (s : State) (d : Dev) (x : Device) : (s.setDev d x).gpioDir = s.gpioDir := rfl
@[simp] theorem setDev_script (s : State) (d : Dev) (x : Device) : (s.setDev d x).script = s.script := rfl
@[simp] theorem setDev_pc (s : State) (d : Dev) (x : Device) : (s.setDev d x).pc = s.pc := rfl
@[simp] theorem setDev_mphase (s : State) (d : Dev) (x : Device) : (s.setDev d x).mphase = s.mphase := rfl
@[simp] theorem setDev_mcur (s : State) (d : Dev) (x : Device) : (s.setDev d x).mcur = s.mcur := rfl
@[simp] theorem setDev_mseq (s : State) (d : Dev) (x : Device) : (s.setDev d x).mseq = s.mseq := rfl
@[simp] theorem setDev_res (s : State) (d : Dev) (x : Device) : (s.setDev d x).res = s.res := rfl
@[simp] theorem setDev_outLog (s : State) (d : Dev) (x : Device) : (s.setDev d x).outLog = s.outLog := rfl
@[simp] theorem setDev_faultCode (s : State) (d : Dev) (x : Device) : (s.setDev d x).faultCode = s.faultCode := rfl
@[simp] theorem setDev_faultWord (s : State) (d : Dev) (x : Device) : (s.setDev d x).faultWord = s.faultWord := rfl
@[simp] theorem setDev_sched (s : State) (d : Dev) (x : Device) : (s.setDev d x).sched = s.sched := rfl
@[simp] theorem setDev_draws (s : State) (d : Dev) (x : Device) : (s.setDev d x).draws = s.draws := rfl

@[simp] theorem setDev_cap (s : State) (d : Dev) (x : Device) : (s.setDev d x).cap = s.cap := rfl

/-! ## `advancePc` writes the cursor only -/

@[simp] theorem advancePc_pc (s : State) : (advancePc s).pc = s.pc + 1 := rfl
@[simp] theorem advancePc_devs (s : State) : (advancePc s).devs = s.devs := rfl
@[simp] theorem advancePc_dev (s : State) (d : Dev) : (advancePc s).dev d = s.dev d := rfl
@[simp] theorem advancePc_cap (s : State) : (advancePc s).cap = s.cap := rfl
@[simp] theorem advancePc_cfg (s : State) : (advancePc s).cfg = s.cfg := rfl
@[simp] theorem advancePc_gie (s : State) : (advancePc s).gie = s.gie := rfl
@[simp] theorem advancePc_gpioDir (s : State) : (advancePc s).gpioDir = s.gpioDir := rfl
@[simp] theorem advancePc_script (s : State) : (advancePc s).script = s.script := rfl
@[simp] theorem advancePc_mphase (s : State) : (advancePc s).mphase = s.mphase := rfl
@[simp] theorem advancePc_mcur (s : State) : (advancePc s).mcur = s.mcur := rfl
@[simp] theorem advancePc_mseq (s : State) : (advancePc s).mseq = s.mseq := rfl
@[simp] theorem advancePc_res (s : State) : (advancePc s).res = s.res := rfl
@[simp] theorem advancePc_outLog (s : State) : (advancePc s).outLog = s.outLog := rfl
@[simp] theorem advancePc_faultCode (s : State) : (advancePc s).faultCode = s.faultCode := rfl
@[simp] theorem advancePc_faultWord (s : State) : (advancePc s).faultWord = s.faultWord := rfl
@[simp] theorem advancePc_sched (s : State) : (advancePc s).sched = s.sched := rfl
@[simp] theorem advancePc_draws (s : State) : (advancePc s).draws = s.draws := rfl

/-! ## `emit` writes the result register and the result log only -/

@[simp] theorem emit_res (v : Half) (s : State) : (emit v s).res = v := rfl
@[simp] theorem emit_outLog (v : Half) (s : State) : (emit v s).outLog = s.outLog ++ [v] := rfl
@[simp] theorem emit_devs (v : Half) (s : State) : (emit v s).devs = s.devs := rfl
@[simp] theorem emit_dev (v : Half) (s : State) (d : Dev) : (emit v s).dev d = s.dev d := rfl
@[simp] theorem emit_cap (v : Half) (s : State) : (emit v s).cap = s.cap := rfl
@[simp] theorem emit_cfg (v : Half) (s : State) : (emit v s).cfg = s.cfg := rfl
@[simp] theorem emit_gie (v : Half) (s : State) : (emit v s).gie = s.gie := rfl
@[simp] theorem emit_gpioDir (v : Half) (s : State) : (emit v s).gpioDir = s.gpioDir := rfl
@[simp] theorem emit_script (v : Half) (s : State) : (emit v s).script = s.script := rfl
@[simp] theorem emit_pc (v : Half) (s : State) : (emit v s).pc = s.pc := rfl
@[simp] theorem emit_mphase (v : Half) (s : State) : (emit v s).mphase = s.mphase := rfl
@[simp] theorem emit_mcur (v : Half) (s : State) : (emit v s).mcur = s.mcur := rfl
@[simp] theorem emit_mseq (v : Half) (s : State) : (emit v s).mseq = s.mseq := rfl
@[simp] theorem emit_faultCode (v : Half) (s : State) : (emit v s).faultCode = s.faultCode := rfl
@[simp] theorem emit_faultWord (v : Half) (s : State) : (emit v s).faultWord = s.faultWord := rfl
@[simp] theorem emit_sched (v : Half) (s : State) : (emit v s).sched = s.sched := rfl
@[simp] theorem emit_draws (v : Half) (s : State) : (emit v s).draws = s.draws := rfl

/-! ## `raiseFault` writes the fault register only, and only when it says no fault -/

theorem raiseFault_of_none (c : FaultCode) (w : Word) (s : State) (h : s.faultCode = 0#8) :
    raiseFault c w s = { s with faultCode := faultNumber c, faultWord := w } := by simp [raiseFault, h]

theorem raiseFault_of_some (c : FaultCode) (w : Word) (s : State) (h : s.faultCode ≠ 0#8) : raiseFault c w s = s := by
  simp [raiseFault, h]

@[simp] theorem raiseFault_devs (c : FaultCode) (w : Word) (s : State) : (raiseFault c w s).devs = s.devs := by
  unfold raiseFault; split <;> rfl
@[simp] theorem raiseFault_dev (c : FaultCode) (w : Word) (s : State) (d : Dev) : (raiseFault c w s).dev d = s.dev d := by
  unfold raiseFault; split <;> rfl
@[simp] theorem raiseFault_cap (c : FaultCode) (w : Word) (s : State) : (raiseFault c w s).cap = s.cap := by
  unfold raiseFault; split <;> rfl
@[simp] theorem raiseFault_cfg (c : FaultCode) (w : Word) (s : State) : (raiseFault c w s).cfg = s.cfg := by
  unfold raiseFault; split <;> rfl
@[simp] theorem raiseFault_gie (c : FaultCode) (w : Word) (s : State) : (raiseFault c w s).gie = s.gie := by
  unfold raiseFault; split <;> rfl
@[simp] theorem raiseFault_gpioDir (c : FaultCode) (w : Word) (s : State) : (raiseFault c w s).gpioDir = s.gpioDir := by
  unfold raiseFault; split <;> rfl
@[simp] theorem raiseFault_script (c : FaultCode) (w : Word) (s : State) : (raiseFault c w s).script = s.script := by
  unfold raiseFault; split <;> rfl
@[simp] theorem raiseFault_pc (c : FaultCode) (w : Word) (s : State) : (raiseFault c w s).pc = s.pc := by
  unfold raiseFault; split <;> rfl
@[simp] theorem raiseFault_mphase (c : FaultCode) (w : Word) (s : State) : (raiseFault c w s).mphase = s.mphase := by
  unfold raiseFault; split <;> rfl
@[simp] theorem raiseFault_mcur (c : FaultCode) (w : Word) (s : State) : (raiseFault c w s).mcur = s.mcur := by
  unfold raiseFault; split <;> rfl
@[simp] theorem raiseFault_mseq (c : FaultCode) (w : Word) (s : State) : (raiseFault c w s).mseq = s.mseq := by
  unfold raiseFault; split <;> rfl
@[simp] theorem raiseFault_res (c : FaultCode) (w : Word) (s : State) : (raiseFault c w s).res = s.res := by
  unfold raiseFault; split <;> rfl
@[simp] theorem raiseFault_outLog (c : FaultCode) (w : Word) (s : State) : (raiseFault c w s).outLog = s.outLog := by
  unfold raiseFault; split <;> rfl
@[simp] theorem raiseFault_sched (c : FaultCode) (w : Word) (s : State) : (raiseFault c w s).sched = s.sched := by
  unfold raiseFault; split <;> rfl
@[simp] theorem raiseFault_draws (c : FaultCode) (w : Word) (s : State) : (raiseFault c w s).draws = s.draws := by
  unfold raiseFault; split <;> rfl

/-- The causes have the codes 1 to 5 (60_exceptions.md R341). -/
theorem faultNumber_range (c : FaultCode) : 1 ≤ (faultNumber c).toNat ∧ (faultNumber c).toNat ≤ 5 := by
  cases c <;> decide

theorem faultNumber_ne_zero (c : FaultCode) : faultNumber c ≠ 0#8 := by cases c <;> decide

end Sys2Proof.Machine
end

