-- ==== Sys2Proof/Laws/Ops.lean ====
section
/-! SUPPORT. One lemma per shared operation over the state: what it is as one write of a device record, and what it does
to storage and to the pin-direction registers. -/

namespace Sys2Proof.Machine

/-! ## Buffers of the machine as writes of one device record -/

theorem insertByte_rx (d : Dev) (b : Byte) (s : State) :
    insertByte d .rx b s = s.setDev d { s.dev d with rx := ringInsert s.cap (s.dev d).rx b } := rfl

theorem insertByte_tx (d : Dev) (b : Byte) (s : State) :
    insertByte d .tx b s = s.setDev d { s.dev d with tx := ringInsert s.cap (s.dev d).tx b } := rfl

theorem dropByte_rx (d : Dev) (s : State) :
    dropByte d .rx s = s.setDev d { s.dev d with rx := ringDrop s.cap (s.dev d).rx } := rfl

theorem dropByte_tx (d : Dev) (s : State) :
    dropByte d .tx s = s.setDev d { s.dev d with tx := ringDrop s.cap (s.dev d).tx } := rfl

theorem resetBuffer_rx (d : Dev) (s : State) :
    resetBuffer d .rx s = s.setDev d { s.dev d with rx := ringReset (s.dev d).rx } := rfl

theorem resetBuffer_tx (d : Dev) (s : State) :
    resetBuffer d .tx s = s.setDev d { s.dev d with tx := ringReset (s.dev d).tx } := rfl

/-- Queueing a byte for transmission writes TX and `dreie` of one device and nothing else (R241, R246). -/
theorem queueByte_eq (d : Dev) (b : Byte) (s : State) :
    queueByte d b s = s.setDev d { s.dev d with tx := ringInsert s.cap (s.dev d).tx b, dreie := true } := by
  simp [queueByte, insertByte_tx]

/-- What INITIALIZE writes of its device (R210, R212). -/
def startedDevice (baud : Half) (D : Device) : Device :=
  { D with rx := ringReset D.rx, tx := ringReset D.tx, routeOut := D.route, baud := baud, rxen := true, txen := true,
           rxcie := true, life := .run }

/-- INITIALIZE writes one device record and one pin-direction register (R210, R212). -/
theorem startDevice_eq (d : Dev) (baud : Half) (s : State) :
    startDevice d baud s =
      { s.setDev d (startedDevice baud (s.dev d)) with
        gpioDir := gpioWrite s.gpioDir (s.dev d).port
          (wiredDir (gpioRead s.gpioDir (s.dev d).port) (s.dev d).rxmask (s.dev d).txmask) } := by
  simp [startDevice, wirePins, resetBuffer_rx, resetBuffer_tx, startedDevice, enableReceive, State.setDev]

/-- Writing one byte to the line writes one device record (R291). -/
theorem transmitByte_eq (d : Dev) (s : State) :
    transmitByte d s = s.setDev d
      { s.dev d with
        tx := ringDrop s.cap (s.dev d).tx, hwTxd := headByte d .tx s, hwDre := false, hwTxc := false,
        txLog := (s.dev d).txLog ++ [headByte d .tx s] } := by
  simp [transmitByte, dropByte_tx]

/-! ## Legality -/

theorem whenLegal_ok (ok : Life → Bool) (d : Dev) (W : Word) (s : State) (r : Result)
    (h : ok (s.dev d).life = true) : whenLegal ok d W s r = r := by simp [whenLegal, h]

theorem whenLegal_bad (ok : Life → Bool) (d : Dev) (W : Word) (s : State) (r : Result)
    (h : ok (s.dev d).life = false) : whenLegal ok d W s r = .next (raiseFault .badState W s) := by simp [whenLegal, h]

/-- Everything the legality check can do. -/
theorem whenLegal_next (ok : Life → Bool) (d : Dev) (W : Word) (s t : State) (r : Result)
    (h : whenLegal ok d W s r = .next t) :
    (ok (s.dev d).life = true ∧ r = .next t) ∨ (ok (s.dev d).life = false ∧ t = raiseFault .badState W s) := by
  unfold whenLegal at h
  split at h
  · next h1 => exact .inl ⟨h1, h⟩
  · next h1 => exact .inr ⟨by simpa using h1, by cases h; rfl⟩

/-! ## Pin-direction registers -/

/-- A write of one port's register leaves the others (R212). -/
theorem gpioRead_gpioWrite (m : Memory) (p q : Byte) (v : Byte) (h : Memory.wf Space.gpio.unlisted m = true) :
    gpioRead (gpioWrite m p v) q = if q = p then v else gpioRead m q := by
  simp only [gpioRead, gpioWrite, memLookup_memStore _ _ _ _ _ h, BitVec.toNat_inj]
  split <;> simp

theorem gpioWrite_wf (m : Memory) (p v : Byte) (h : Memory.wf Space.gpio.unlisted m = true) :
    Memory.wf Space.gpio.unlisted (gpioWrite m p v) = true := memStore_wf _ _ _ _ h

theorem gpioWrite_ports (m : Memory) (p v : Byte) (h : ∀ c ∈ m, c.1 < 256) :
    ∀ c ∈ gpioWrite m p v, c.1 < 256 := by
  intro c hc
  rcases mem_memStore _ _ _ _ _ hc with rfl | hc
  · exact p.isLt
  · exact h c hc

/-! ## Storage -/

@[simp] theorem buffer_rx (s : State) (d : Dev) : s.buffer d .rx = (s.dev d).rx := rfl
@[simp] theorem buffer_tx (s : State) (d : Dev) : s.buffer d .tx = (s.dev d).tx := rfl

/-- An insert changes the slot it writes and no other byte of storage (20_memory.md R81, R163). -/
theorem storageByte_insertByte (d : Dev) (sel : Sel) (b : Byte) (s : State) (e : Dev) (sel' : Sel) (i : Nat)
    (h : Memory.wf Space.storage.unlisted (s.buffer d sel).buf = true) :
    (insertByte d sel b s).storageByte e sel' i =
      if e = d ∧ sel' = sel ∧ i = insertSlot (s.buffer d sel) then b else s.storageByte e sel' i := by
  by_cases he : d = e
  · subst he
    cases sel <;> cases sel' <;>
      simp_all [State.storageByte, insertByte_rx, insertByte_tx, ringRead_ringInsert, insertSlot]
  · have he' : e ≠ d := fun k => he k.symm
    cases sel <;> cases sel' <;>
      simp [State.storageByte, insertByte_rx, insertByte_tx, dev_setDev_ne, he, he']

end Sys2Proof.Machine
end

