-- ==== Sys2Proof/Laws/Device.lean ====
section
/-! SUPPORT. Each update of a device record keeps `Device.Ok`. -/

namespace Sys2Proof.Machine

theorem Device.reset_ok (c : Config) : Device.reset.Ok c.cap where
  rx := ringReset_initial_ok c
  tx := ringReset_initial_ok c
  err := rfl
  rxen := rfl
  txen := rfl
  rxcie := rfl
  dreie := by decide
  armed := by decide
  txc := rfl
  dre := by decide
  txd := rfl

variable {cap : Nat} {D : Device}

theorem Device.Ok.withRx (h : D.Ok cap) (B : RingBuffer) (hB : B.Ok cap) : Device.Ok cap { D with rx := B } :=
  ⟨hB, h.tx, h.err, h.rxen, h.txen, h.rxcie, h.dreie, h.armed, h.txc, h.dre, h.txd⟩

theorem Device.Ok.withTx (h : D.Ok cap) (B : RingBuffer) (hB : B.Ok cap)
    (harm : D.life = .run → 0 < B.cnt → D.dreie = true) : Device.Ok cap { D with tx := B } :=
  ⟨h.rx, hB, h.err, h.rxen, h.txen, h.rxcie, h.dreie, harm, h.txc, h.dre, h.txd⟩

theorem Device.Ok.withErr (h : D.Ok cap) (e : Byte) (he : e &&& 0xB8#8 = 0#8) : Device.Ok cap { D with err := e } :=
  ⟨h.rx, h.tx, he, h.rxen, h.txen, h.rxcie, h.dreie, h.armed, h.txc, h.dre, h.txd⟩

theorem Device.Ok.withRxp (h : D.Ok cap) (p : Bool) : Device.Ok cap { D with hwRxp := p } :=
  ⟨h.rx, h.tx, h.err, h.rxen, h.txen, h.rxcie, h.dreie, h.armed, h.txc, h.dre, h.txd⟩

/-! ## The masks keep the reserved bits of `err` zero -/

theorem captureFlags_reserved (x : Byte) : captureFlags x &&& 0xB8#8 = 0#8 := by
  rw [captureFlags, hwMask, BitVec.and_assoc]; simp

theorem dropFlags_reserved (x : Byte) : dropFlags x &&& 0xB8#8 = 0#8 := by
  revert x; decide

theorem emptyReadFlags_reserved (x : Byte) (h : x &&& 0xB8#8 = 0#8) : emptyReadFlags x &&& 0xB8#8 = 0#8 := by
  revert x; decide

/-! ## The updates of the instructions -/

theorem lifeConfigured_run (l : Life) : lifeConfigured l = .run ↔ l = .run := by cases l <;> decide

theorem Device.Ok.configured (h : D.Ok cap) (p r t x : Byte) :
    Device.Ok cap { D with port := p, route := r, txmask := t, rxmask := x, life := lifeConfigured D.life } :=
  ⟨h.rx, h.tx, h.err, by simpa [lifeConfigured_run] using h.rxen, by simpa [lifeConfigured_run] using h.txen,
    by simpa [lifeConfigured_run] using h.rxcie, fun k => (lifeConfigured_run _).2 (h.dreie k),
    fun k => h.armed ((lifeConfigured_run _).1 k), h.txc, h.dre, h.txd⟩

theorem Device.Ok.started {c : Config} (h : D.Ok c.cap) (baud : Half) : (startedDevice baud D).Ok c.cap :=
  ⟨ringReset_ok c _ h.rx, ringReset_ok c _ h.tx, h.err, rfl, rfl, rfl, fun _ => rfl,
    fun _ k => absurd k (by simp [startedDevice]), h.txc, h.dre, h.txd⟩

theorem Device.Ok.queued {c : Config} (h : D.Ok c.cap) (b : Byte) (hrun : D.life = .run) (hroom : D.tx.cnt < c.cap) :
    Device.Ok c.cap { D with tx := ringInsert c.cap D.tx b, dreie := true } :=
  ⟨h.rx, ringInsert_ok c _ b h.tx hroom, h.err, h.rxen, h.txen, h.rxcie, fun _ => hrun, fun _ _ => rfl, h.txc, h.dre,
    h.txd⟩

theorem Device.Ok.transmitted {c : Config} (h : D.Ok c.cap) (b : Byte) (hany : 0 < D.tx.cnt) :
    Device.Ok c.cap
      { D with tx := ringDrop c.cap D.tx, hwTxd := b, hwDre := false, hwTxc := false, txLog := D.txLog ++ [b] } :=
  ⟨h.rx, ringDrop_ok c _ h.tx hany, h.err, h.rxen, h.txen, h.rxcie, h.dreie, fun k _ => h.armed k hany, by simp,
    by simp, by simp⟩

theorem Device.Ok.disarmed (h : D.Ok cap) (hempty : ¬ 0 < D.tx.cnt) : Device.Ok cap { D with dreie := false } :=
  ⟨h.rx, h.tx, h.err, h.rxen, h.txen, h.rxcie, by simp, fun _ k => absurd k hempty, h.txc, h.dre, h.txd⟩

theorem Device.Ok.received {data status : Byte} {E : Device} (h : D.Ok cap) (hr : receive data status D = some E) :
    E.Ok cap := by
  unfold receive at hr
  split at hr
  · cases hr; exact h
  · split at hr
    · cases hr
    · cases hr
      exact ⟨h.rx, h.tx, h.err, h.rxen, h.txen, h.rxcie, h.dreie, h.armed, h.txc, h.dre, h.txd⟩

theorem Device.Ok.transmitDone (h : D.Ok cap) : (transmitDone D).Ok cap := by
  unfold Machine.transmitDone
  split
  · exact h
  · next hd =>
    have hne := h.dre (by simpa using hd)
    refine ⟨h.rx, h.tx, h.err, h.rxen, h.txen, h.rxcie, h.dreie, h.armed, ?_, by simp, h.txd⟩
    simpa using hne

theorem Device.Ok.closed (h : D.Ok cap) : Device.Ok cap { disableAll D with life := .closed } :=
  ⟨h.rx, h.tx, h.err, rfl, rfl, rfl, by simp [disableAll], by simp, h.txc, h.dre, h.txd⟩

end Sys2Proof.Machine
end

