-- ==== Sys2Proof/Laws/Encoding.lean ====
section
/-! SUPPORT. The laws of the encoding: masks as fields, fields of encoded words, and the row a word selects. -/

namespace Sys2Proof.Machine

/-! ## Masks as fields -/

/-- A mask split at bit `k` reads the two parts of a number apart. -/
theorem land_split (n M L k : Nat) (hL : L < 2 ^ k) :
    n &&& (2 ^ k * M + L) = 2 ^ k * ((n / 2 ^ k) &&& M) + ((n % 2 ^ k) &&& L) := by
  have h2 : (n % 2 ^ k) &&& L < 2 ^ k := Nat.and_lt_two_pow _ hL
  apply Nat.eq_of_testBit_eq
  intro i
  rw [Nat.testBit_and, Nat.testBit_two_pow_mul_add M hL i, Nat.testBit_two_pow_mul_add _ h2 i]
  split
  · next h => rw [Nat.testBit_and, Nat.testBit_mod_two_pow]; simp [h]
  · next h =>
    rw [Nat.testBit_and, Nat.testBit_div_two_pow]
    congr 2
    omega

theorem land_0F (n : Nat) : n &&& 0x0F = n % 16 := Nat.and_two_pow_sub_one_eq_mod n 4

theorem land_8F (n : Nat) : n &&& 0x8F = 128 * (n / 128 % 2) + n % 16 := by
  rw [show (0x8F : Nat) = 2 ^ 7 * (2 ^ 1 - 1) + 0x0F from rfl, land_split n _ _ 7 (by decide),
    Nat.and_two_pow_sub_one_eq_mod, land_0F]
  omega

/-- A mask that has every bit from `h` up and `L` below it. -/
theorem land_high (n h L : Nat) (hn : n < 2 ^ 64) (hh : h ≤ 64) (hL : L < 2 ^ h) :
    n &&& (2 ^ h * (2 ^ (64 - h) - 1) + L) = 2 ^ h * (n / 2 ^ h) + (n % 2 ^ h &&& L) := by
  rw [land_split n _ L h hL, Nat.and_two_pow_sub_one_eq_mod, Nat.mod_eq_of_lt]
  rw [Nat.div_lt_iff_lt_mul (Nat.two_pow_pos h), ← Nat.pow_add]
  simpa [Nat.sub_add_cancel hh] using hn

/-! ## Fields as numbers -/

@[simp] theorem field_toNat (lo len : Nat) (W : Word) : (field lo len W).toNat = W.toNat / 2 ^ lo % 2 ^ len := by
  simp [field, BitVec.extractLsb'_toNat, Nat.shiftRight_eq_div_pow]

@[simp] theorem devField_val (W : Word) : (devField W).val = W.toNat / 16 % 8 := by simp [devField]

@[simp] theorem seqCount_eq (W : Word) : seqCount W = W.toNat / 256 % 8 := by simp [seqCount]

@[simp] theorem seqByte_toNat (W : Word) (j : Nat) : (seqByte W j).toNat = W.toNat / 2 ^ (16 + 8 * j) % 256 := by
  simp [seqByte]

theorem selField_bit (W : Word) : (selField W).bit = W.toNat / 128 % 2 := by
  have h := field_toNat 7 1 W
  unfold selField
  split
  · next h1 => rw [h1] at h; simpa [Sel.bit] using h
  · next h1 =>
    have : (field 7 1 W).toNat ≠ 1 := fun k => h1 (BitVec.eq_of_toNat_eq k)
    simp only [Sel.bit]
    omega

theorem wordOf_toNat (fs : List (Nat × Nat)) (h : pack fs < 2 ^ 64) : (wordOf fs).toNat = pack fs := by
  simpa [wordOf] using Nat.mod_eq_of_lt h

@[simp] theorem pack_nil : pack [] = 0 := rfl
@[simp] theorem pack_cons (f : Nat × Nat) (fs : List (Nat × Nat)) : pack (f :: fs) = f.2 * 2 ^ f.1 + pack fs := rfl

theorem bit_lt (sel : Sel) : sel.bit < 2 := by cases sel <;> decide

theorem sel_eq_of_bit (s t : Sel) (h : s.bit = t.bit) : s = t := by cases s <;> cases t <;> simp_all [Sel.bit]

theorem natOfBytes_lt (bs : List Byte) : natOfBytes bs < 256 ^ bs.length := by
  induction bs with
  | nil => simp [natOfBytes]
  | cons b bs ih =>
    have := b.isLt
    simp only [natOfBytes, List.length_cons, Nat.pow_succ]
    omega

/-- The little-endian number of bytes gives each byte back. -/
theorem natOfBytes_byte (bs : List Byte) (j : Nat) (h : j < bs.length) :
    natOfBytes bs / 256 ^ j % 256 = (bs[j]).toNat := by
  induction bs generalizing j with
  | nil => simp at h
  | cons b bs ih =>
    have hb := b.isLt
    cases j with
    | zero => simp [natOfBytes]; omega
    | succ j =>
      simp only [natOfBytes, List.getElem_cons_succ]
      rw [← ih j (by simpa using h), Nat.pow_succ', ← Nat.div_div_eq_div_mul,
        show (b.toNat + 256 * natOfBytes bs) / 256 = natOfBytes bs by omega]

/-- Beyond the last byte there is nothing. -/
theorem natOfBytes_beyond (bs : List Byte) (j : Nat) (h : bs.length ≤ j) : natOfBytes bs / 256 ^ j % 256 = 0 := by
  have h1 := natOfBytes_lt bs
  have h2 : 256 ^ bs.length ≤ 256 ^ j := Nat.pow_le_pow_right (by decide) h
  rw [Nat.div_eq_of_lt (by omega)]

/-! ## The numbers of encoded words -/

section Numbers
variable (d : Dev) (sel : Sel) (b b2 b3 b4 : Byte) (h : Half) (v : Bool)

theorem encConfigure_toNat : (encConfigure d b b2 b3 b4).toNat =
    d.val * 16 + b.toNat * 2 ^ 8 + b2.toNat * 2 ^ 16 + b3.toNat * 2 ^ 24 + b4.toNat * 2 ^ 32 := by
  have := d.isLt; have := b.isLt; have := b2.isLt; have := b3.isLt; have := b4.isLt
  rw [encConfigure, wordOf_toNat] <;> simp <;> omega

theorem encInit_toNat : (encInit d h).toNat = 1 + d.val * 16 + h.toNat * 2 ^ 8 := by
  have := d.isLt; have := h.isLt
  rw [encInit, wordOf_toNat] <;> simp <;> omega

theorem encSendByte_toNat : (encSendByte d b).toNat = 2 + d.val * 16 + b.toNat * 2 ^ 8 := by
  have := d.isLt; have := b.isLt
  rw [encSendByte, wordOf_toNat] <;> simp <;> omega

theorem encSendSeq_toNat (bs : List Byte) (hl : bs.length ≤ 6) : (encSendSeq d bs).toNat =
    3 + d.val * 16 + bs.length * 2 ^ 8 + natOfBytes bs * 2 ^ 16 := by
  have := d.isLt
  have h1 := natOfBytes_lt bs
  have h2 : 256 ^ bs.length ≤ 256 ^ 6 := Nat.pow_le_pow_right (by decide) hl
  rw [encSendSeq, wordOf_toNat] <;> simp <;> omega

theorem encReadByte_toNat : (encReadByte d).toNat = 4 + d.val * 16 := by
  have := d.isLt
  rw [encReadByte, wordOf_toNat] <;> simp; omega

theorem encRxCount_toNat : (encRxCount d).toNat = 5 + d.val * 16 := by
  have := d.isLt
  rw [encRxCount, wordOf_toNat] <;> simp; omega

theorem encClose_toNat : (encClose d).toNat = 6 + d.val * 16 := by
  have := d.isLt
  rw [encClose, wordOf_toNat] <;> simp; omega

theorem encRbReset_toNat : (encRbReset d sel).toNat = 8 + d.val * 16 + sel.bit * 128 := by
  have := d.isLt; have := bit_lt sel
  rw [encRbReset, wordOf_toNat] <;> simp <;> omega

theorem encRbInsert_toNat : (encRbInsert d sel b).toNat = 9 + d.val * 16 + sel.bit * 128 + b.toNat * 2 ^ 8 := by
  have := d.isLt; have := bit_lt sel; have := b.isLt
  rw [encRbInsert, wordOf_toNat] <;> simp <;> omega

theorem encRbRemove_toNat : (encRbRemove d sel).toNat = 10 + d.val * 16 + sel.bit * 128 := by
  have := d.isLt; have := bit_lt sel
  rw [encRbRemove, wordOf_toNat] <;> simp <;> omega

theorem encRbFull_toNat : (encRbFull d sel).toNat = 11 + d.val * 16 + sel.bit * 128 := by
  have := d.isLt; have := bit_lt sel
  rw [encRbFull, wordOf_toNat] <;> simp <;> omega

theorem encRbEmpty_toNat : (encRbEmpty d sel).toNat = 12 + d.val * 16 + sel.bit * 128 := by
  have := d.isLt; have := bit_lt sel
  rw [encRbEmpty, wordOf_toNat] <;> simp <;> omega

theorem encEnvRx_toNat : (encEnvRx d b b2).toNat = 13 + d.val * 16 + b.toNat * 2 ^ 8 + b2.toNat * 2 ^ 16 := by
  have := d.isLt; have := b.isLt; have := b2.isLt
  rw [encEnvRx, wordOf_toNat] <;> simp <;> omega

theorem encEnvTxDone_toNat : (encEnvTxDone d).toNat = 14 + d.val * 16 := by
  have := d.isLt
  rw [encEnvTxDone, wordOf_toNat] <;> simp; omega

theorem encEnvGie_toNat : (encEnvGie v).toNat = 15 + v.toNat * 256 := by
  cases v <;> decide

end Numbers

/-! ## What each row of the operation map selects -/

section Rows
variable (W : Word)

theorem selects_configure : W &&& 0xFFFFFF000000008F#64 = 0#64 ↔
    W.toNat % 16 = 0 ∧ W.toNat / 128 % 2 = 0 ∧ W.toNat < 2 ^ 40 := by
  have hn := W.isLt
  rw [← BitVec.toNat_inj, BitVec.toNat_and,
    show (0xFFFFFF000000008F#64).toNat = 2 ^ 40 * (2 ^ (64 - 40) - 1) + 0x8F from rfl,
    land_high _ 40 _ hn (by decide) (by decide), land_8F]
  simp only [BitVec.toNat_ofNat]
  omega

theorem selects_init : W &&& 0xFFFFFFFFFF00008F#64 = 1#64 ↔
    W.toNat % 16 = 1 ∧ W.toNat / 128 % 2 = 0 ∧ W.toNat < 2 ^ 24 := by
  have hn := W.isLt
  rw [← BitVec.toNat_inj, BitVec.toNat_and,
    show (0xFFFFFFFFFF00008F#64).toNat = 2 ^ 24 * (2 ^ (64 - 24) - 1) + 0x8F from rfl,
    land_high _ 24 _ hn (by decide) (by decide), land_8F]
  simp only [BitVec.toNat_ofNat]
  omega

theorem selects_sendByte : W &&& 0xFFFFFFFFFFFF008F#64 = 2#64 ↔
    W.toNat % 16 = 2 ∧ W.toNat / 128 % 2 = 0 ∧ W.toNat < 2 ^ 16 := by
  have hn := W.isLt
  rw [← BitVec.toNat_inj, BitVec.toNat_and,
    show (0xFFFFFFFFFFFF008F#64).toNat = 2 ^ 16 * (2 ^ (64 - 16) - 1) + 0x8F from rfl,
    land_high _ 16 _ hn (by decide) (by decide), land_8F]
  simp only [BitVec.toNat_ofNat]
  omega

theorem selects_sendSeq : W &&& 0x000000000000F88F#64 = 3#64 ↔
    W.toNat % 16 = 3 ∧ W.toNat / 128 % 2 = 0 ∧ W.toNat / 2 ^ 11 % 32 = 0 := by
  rw [← BitVec.toNat_inj, BitVec.toNat_and,
    show (0x000000000000F88F#64).toNat = 2 ^ 11 * (2 ^ 5 - 1) + 0x8F from rfl,
    land_split _ _ _ 11 (by decide), Nat.and_two_pow_sub_one_eq_mod, land_8F]
  simp only [BitVec.toNat_ofNat]
  omega

/-- The rows of format N: only OP and DEV may be set. -/
theorem selects_none (op : Nat) (hop : op < 16) : W &&& 0xFFFFFFFFFFFFFF8F#64 = BitVec.ofNat 64 op ↔
    W.toNat % 16 = op ∧ W.toNat / 128 % 2 = 0 ∧ W.toNat < 2 ^ 8 := by
  have hn := W.isLt
  rw [← BitVec.toNat_inj, BitVec.toNat_and,
    show (0xFFFFFFFFFFFFFF8F#64).toNat = 2 ^ 8 * (2 ^ (64 - 8) - 1) + 0x8F from rfl,
    land_high _ 8 _ hn (by decide) (by decide), land_8F]
  simp only [BitVec.toNat_ofNat]
  omega

/-- The rows of format N+SEL. -/
theorem selects_sel (op : Nat) (hop : op < 16) : W &&& 0xFFFFFFFFFFFFFF0F#64 = BitVec.ofNat 64 op ↔
    W.toNat % 16 = op ∧ W.toNat < 2 ^ 8 := by
  have hn := W.isLt
  rw [← BitVec.toNat_inj, BitVec.toNat_and,
    show (0xFFFFFFFFFFFFFF0F#64).toNat = 2 ^ 8 * (2 ^ (64 - 8) - 1) + 0x0F from rfl,
    land_high _ 8 _ hn (by decide) (by decide), land_0F]
  simp only [BitVec.toNat_ofNat]
  omega

theorem selects_rbInsert : W &&& 0xFFFFFFFFFFFF000F#64 = 9#64 ↔ W.toNat % 16 = 9 ∧ W.toNat < 2 ^ 16 := by
  have hn := W.isLt
  rw [← BitVec.toNat_inj, BitVec.toNat_and,
    show (0xFFFFFFFFFFFF000F#64).toNat = 2 ^ 16 * (2 ^ (64 - 16) - 1) + 0x0F from rfl,
    land_high _ 16 _ hn (by decide) (by decide), land_0F]
  simp only [BitVec.toNat_ofNat]
  omega

theorem selects_envRx : W &&& 0xFFFFFFFFFF00008F#64 = 13#64 ↔
    W.toNat % 16 = 13 ∧ W.toNat / 128 % 2 = 0 ∧ W.toNat < 2 ^ 24 := by
  have hn := W.isLt
  rw [← BitVec.toNat_inj, BitVec.toNat_and,
    show (0xFFFFFFFFFF00008F#64).toNat = 2 ^ 24 * (2 ^ (64 - 24) - 1) + 0x8F from rfl,
    land_high _ 24 _ hn (by decide) (by decide), land_8F]
  simp only [BitVec.toNat_ofNat]
  omega

theorem selects_envGie : W &&& 0xFFFFFFFFFFFFFEFF#64 = 15#64 ↔ W.toNat % 256 = 15 ∧ W.toNat < 2 ^ 9 := by
  have hn := W.isLt
  rw [← BitVec.toNat_inj, BitVec.toNat_and,
    show (0xFFFFFFFFFFFFFEFF#64).toNat = 2 ^ 9 * (2 ^ (64 - 9) - 1) + (2 ^ 8 - 1) from rfl,
    land_high _ 9 _ hn (by decide) (by decide), Nat.and_two_pow_sub_one_eq_mod]
  simp only [BitVec.toNat_ofNat]
  omega

end Rows

/-- What a selected word is, by operation: its OP and its reserved bits, as numbers. -/
def RowFields (op : Op) (n : Nat) : Prop :=
  match op with
  | .configure => n % 16 = 0 ∧ n / 128 % 2 = 0 ∧ n < 2 ^ 40
  | .init => n % 16 = 1 ∧ n / 128 % 2 = 0 ∧ n < 2 ^ 24
  | .sendByte => n % 16 = 2 ∧ n / 128 % 2 = 0 ∧ n < 2 ^ 16
  | .sendSeq => n % 16 = 3 ∧ n / 128 % 2 = 0 ∧ n / 2 ^ 11 % 32 = 0
  | .readByte => n % 16 = 4 ∧ n / 128 % 2 = 0 ∧ n < 2 ^ 8
  | .rxCount => n % 16 = 5 ∧ n / 128 % 2 = 0 ∧ n < 2 ^ 8
  | .close => n % 16 = 6 ∧ n / 128 % 2 = 0 ∧ n < 2 ^ 8
  | .rbReset => n % 16 = 8 ∧ n < 2 ^ 8
  | .rbInsert => n % 16 = 9 ∧ n < 2 ^ 16
  | .rbRemove => n % 16 = 10 ∧ n < 2 ^ 8
  | .rbFull => n % 16 = 11 ∧ n < 2 ^ 8
  | .rbEmpty => n % 16 = 12 ∧ n < 2 ^ 8
  | .envRx => n % 16 = 13 ∧ n / 128 % 2 = 0 ∧ n < 2 ^ 24
  | .envTxDone => n % 16 = 14 ∧ n / 128 % 2 = 0 ∧ n < 2 ^ 8
  | .envGie => n % 256 = 15 ∧ n < 2 ^ 9

/-- A row of the operation map selects exactly the words with its fields. -/
theorem selects_iff (r : Row) (hr : r ∈ opTable) (W : Word) : r.selects W = true ↔ RowFields r.op W.toNat := by
  simp only [opTable, List.mem_cons, List.not_mem_nil, or_false] at hr
  rcases hr with rfl | rfl | rfl | rfl | rfl | rfl | rfl | rfl | rfl | rfl | rfl | rfl | rfl | rfl | rfl <;>
    simp only [Row.selects, beq_iff_eq, RowFields]
  · exact selects_configure W
  · exact selects_init W
  · exact selects_sendByte W
  · exact selects_sendSeq W
  · exact selects_none W 4 (by decide)
  · exact selects_none W 5 (by decide)
  · exact selects_none W 6 (by decide)
  · exact selects_sel W 8 (by decide)
  · exact selects_rbInsert W
  · exact selects_sel W 10 (by decide)
  · exact selects_sel W 11 (by decide)
  · exact selects_sel W 12 (by decide)
  · exact selects_envRx W
  · exact selects_none W 14 (by decide)
  · exact selects_envGie W

/-- The OP of a row, bits 3:0 of its pattern. -/
def opNumber : Op → Nat
  | .configure => 0
  | .init => 1
  | .sendByte => 2
  | .sendSeq => 3
  | .readByte => 4
  | .rxCount => 5
  | .close => 6
  | .rbReset => 8
  | .rbInsert => 9
  | .rbRemove => 10
  | .rbFull => 11
  | .rbEmpty => 12
  | .envRx => 13
  | .envTxDone => 14
  | .envGie => 15

theorem rowFields_op (op : Op) (n : Nat) (h : RowFields op n) : n % 16 = opNumber op := by
  cases op <;> simp only [RowFields, opNumber] at h ⊢ <;> omega

theorem opTable_number : ∀ r ∈ opTable, ∀ r' ∈ opTable, opNumber r.op = opNumber r'.op → r = r' := by decide

/-- The row of an operation is in the map. -/
theorem opTable_op (op : Op) : ∃ r ∈ opTable, r.op = op := by cases op <;> decide

/-- A word with the fields of an operation finds that operation's row. -/
theorem find_row (op : Op) (W : Word) (h : RowFields op W.toNat) :
    ∃ r, opTable.find? (Row.selects · W) = some r ∧ r.op = op := by
  obtain ⟨r, hr, rfl⟩ := opTable_op op
  have hs := (selects_iff r hr W).2 h
  cases hf : opTable.find? (Row.selects · W) with
  | none => exact absurd hs (by simpa using List.find?_eq_none.1 hf r hr)
  | some r' =>
    have hr' := List.mem_of_find?_eq_some hf
    have hs' := (selects_iff r' hr' W).1 (by simpa using List.find?_some hf)
    have := opTable_number r' hr' r hr (by rw [← rowFields_op _ _ hs', ← rowFields_op _ _ h])
    exact ⟨r', rfl, by rw [this]⟩

/-- A word that finds a row has the fields of its operation. -/
theorem fields_of_find (W : Word) (r : Row) (h : opTable.find? (Row.selects · W) = some r) :
    RowFields r.op W.toNat :=
  (selects_iff r (List.mem_of_find?_eq_some h) W).1 (by simpa using List.find?_some h)

/-- A word that finds no row has the fields of no operation. -/
theorem no_fields_of_find (W : Word) (h : opTable.find? (Row.selects · W) = none) (op : Op) :
    ¬ RowFields op W.toNat := by
  obtain ⟨r, hr, rfl⟩ := opTable_op op
  intro hf
  have := List.find?_eq_none.1 h r hr
  exact this (by simpa using (selects_iff r hr W).2 hf)

/-- What `decodeWord` answers for a word with the fields of an operation. -/
theorem decodeWord_of_fields (ndev : Nat) (op : Op) (W : Word) (h : RowFields op W.toNat)
    (hd : op = .envGie ∨ W.toNat / 16 % 8 < ndev)
    (hq : op = .sendSeq → W.toNat / 256 % 8 ≠ 7 ∧ seqUnusedZero W = true) :
    decodeWord ndev W = .ok (operands op W) := by
  obtain ⟨r, hr, rfl⟩ := find_row op W h
  unfold decodeWord
  simp only [hr, devField_val, seqCount_eq]
  rw [if_neg, if_neg, if_neg]
  · rintro ⟨h1, h2⟩; rw [(hq h1).2] at h2; cases h2
  · rintro ⟨h1, h2⟩; exact (hq h1).1 h2
  · rintro ⟨h1, h2⟩
    rcases hd with hd | hd
    · exact h1 hd
    · omega

/-- Everything `decodeWord` can say when it answers an instruction. -/
theorem fields_of_decodeWord (ndev : Nat) (W : Word) (i : Instr) (h : decodeWord ndev W = .ok i) :
    ∃ op, RowFields op W.toNat ∧ (op = .envGie ∨ W.toNat / 16 % 8 < ndev) ∧
      (op = .sendSeq → W.toNat / 256 % 8 ≠ 7 ∧ seqUnusedZero W = true) ∧ i = operands op W := by
  unfold decodeWord at h
  split at h
  · cases h
  · next r hr =>
    refine ⟨r.op, fields_of_find W r hr, ?_⟩
    simp only [devField_val, seqCount_eq] at h
    split at h
    · cases h
    · next h1 =>
      split at h
      · cases h
      · next h2 =>
        split at h
        · cases h
        · next h3 =>
          refine ⟨?_, ?_, by cases h; rfl⟩
          · by_cases hg : r.op = .envGie
            · exact .inl hg
            · exact .inr (by by_contra hlt; exact h1 ⟨hg, by omega⟩)
          · intro hs
            exact ⟨fun h7 => h2 ⟨hs, h7⟩, by by_contra hz; exact h3 ⟨hs, by simpa using hz⟩⟩

/-! ## The device of an in-flight command word -/

@[simp] theorem devField_encSendByte (d : Dev) (b : Byte) : devField (encSendByte d b) = d := by
  have := d.isLt
  apply Fin.ext; rw [devField_val, encSendByte_toNat]; omega

theorem devField_encSendSeq (d : Dev) (bs : List Byte) (h : bs.length ≤ 6) : devField (encSendSeq d bs) = d := by
  have := d.isLt
  apply Fin.ext; rw [devField_val, encSendSeq_toNat d bs h]; omega

@[simp] theorem devField_encClose (d : Dev) : devField (encClose d) = d := by
  have := d.isLt
  apply Fin.ext; rw [devField_val, encClose_toNat]; omega

@[simp] theorem byte_encSendByte (d : Dev) (b : Byte) : field 8 8 (encSendByte d b) = b := by
  have := d.isLt; have := b.isLt
  apply BitVec.eq_of_toNat_eq; rw [field_toNat, encSendByte_toNat]; omega

theorem count_encSendSeq (d : Dev) (bs : List Byte) (h : bs.length ≤ 6) :
    (field 8 3 (encSendSeq d bs)).toNat = bs.length := by
  have := d.isLt
  rw [field_toNat, encSendSeq_toNat d bs h]; omega

theorem byte_encSendSeq (d : Dev) (bs : List Byte) (h : bs.length ≤ 6) (j : Nat) (hj : j < bs.length) :
    seqByte (encSendSeq d bs) j = bs[j] := by
  have hd := d.isLt
  apply BitVec.eq_of_toNat_eq
  rw [seqByte_toNat, encSendSeq_toNat d bs h, Nat.pow_add, ← Nat.div_div_eq_div_mul,
    show (3 + d.val * 16 + bs.length * 2 ^ 8 + natOfBytes bs * 2 ^ 16) / 2 ^ 16 = natOfBytes bs by omega,
    Nat.pow_mul]
  exact natOfBytes_byte bs j hj

theorem unused_encSendSeq (d : Dev) (bs : List Byte) (h : bs.length ≤ 6) (j : Nat) (hj : bs.length ≤ j) :
    seqByte (encSendSeq d bs) j = 0#8 := by
  have hd := d.isLt
  apply BitVec.eq_of_toNat_eq
  rw [seqByte_toNat, encSendSeq_toNat d bs h, Nat.pow_add, ← Nat.div_div_eq_div_mul,
    show (3 + d.val * 16 + bs.length * 2 ^ 8 + natOfBytes bs * 2 ^ 16) / 2 ^ 16 = natOfBytes bs by omega,
    Nat.pow_mul]
  exact natOfBytes_beyond bs j hj

end Sys2Proof.Machine
end

