-- ==== Sys2Proof/Laws/Exec.lean ====
section
/-! SUPPORT. One lemma per meaning whose definition is not one line over a shared operation: what it can answer, as writes
of one device record. -/

namespace Sys2Proof.Machine

/-- What RXC leaves in its device's record (R281 to R283). -/
def serviced (cap : Nat) (D : Device) : Device :=
  if D.rx.cnt < cap then { D with hwRxp := false, rx := ringInsert cap D.rx D.hwRxd, err := captureFlags D.hwRxs }
  else { D with hwRxp := false, err := dropFlags D.hwRxs }

/-- RXC writes one device record and nothing else (R281 to R283). -/
theorem execRxc_eq (d : Dev) (s : State) : execRxc d s = .next (s.setDev d (serviced s.cap (s.dev d))) := by
  simp only [execRxc, setDev_cap, serviced]
  by_cases h : (s.dev d).rx.cnt < s.cap
  · simp [h, rxStore, insertByte_rx]
  · simp [h, rxDrop]

/-- What DRE leaves in its device's record, `b` being the oldest byte of TX (R291, R292). -/
def drained (cap : Nat) (b : Byte) (D : Device) : Device :=
  if 0 < D.tx.cnt then
    { D with tx := ringDrop cap D.tx, hwTxd := b, hwDre := false, hwTxc := false, txLog := D.txLog ++ [b] }
  else { D with dreie := false }

/-- DRE writes one device record and nothing else (R291, R292). -/
theorem execDre_eq (d : Dev) (s : State) :
    execDre d s = .next (s.setDev d (drained s.cap (headByte d .tx s) (s.dev d))) := by
  simp only [execDre, drained]
  split
  · rw [transmitByte_eq]
  · rfl

/-- An empty read writes one device record, the result and the draw counter (R252). -/
theorem readNodata_eq (d : Dev) (s : State) : readNodata d s =
    { emit (nodataStatus (emptyReadFlags (s.dev d).err) (Config.freeByte s.draws))
        (s.setDev d { s.dev d with err := emptyReadFlags (s.dev d).err }) with draws := s.draws + 1 } := by
  simp [readNodata]

/-- SEND_BYTE's completion writes one device record and frees the mainline (R241). -/
theorem sendByteStep_eq (s : State) : sendByteStep s =
    { s.setDev (mcurDev s) { s.dev (mcurDev s) with
        tx := ringInsert s.cap (s.dev (mcurDev s)).tx (mcurByte s), dreie := true } with
      mphase := .idle, mcur := 0#64 } := by
  simp [sendByteStep, queueByte_eq]

/-- An environment event on the receive side writes one device record (R310). -/
theorem eventRx_some (d : Dev) (a b : Byte) (s t : State) (h : eventRx d a b s = some t) :
    ∃ x, receive a b (s.dev d) = some x ∧ t = s.setDev d x := by
  obtain ⟨x, hx, rfl⟩ := Option.map_eq_some_iff.1 h
  exact ⟨x, hx, rfl⟩

theorem serviced_ok {c : Config} {D : Device} (h : D.Ok c.cap) : (serviced c.cap D).Ok c.cap := by
  unfold serviced
  split
  · next hc =>
    exact ((h.withRxp false).withRx _ (ringInsert_ok c _ _ h.rx hc)).withErr _ (captureFlags_reserved _)
  · exact (h.withRxp false).withErr _ (dropFlags_reserved _)

theorem drained_ok {c : Config} {D : Device} (b : Byte) (h : D.Ok c.cap) : (drained c.cap b D).Ok c.cap := by
  unfold drained
  split
  · next hc => exact h.transmitted b hc
  · next hc => exact h.disarmed hc

end Sys2Proof.Machine
end

