-- ==== Sys2Proof/Laws/Invariant.lean ====
section
/-! SUPPORT. Each update of the state keeps the invariant `Inv` (Safety.lean) under the condition the update is made
    in,
and so does each instruction. -/

namespace Sys2Proof.Machine

/-- The parameters, the pin-direction registers and the fault register are the same. -/
structure SameRest (s t : State) : Prop where
  cfg : t.cfg = s.cfg
  gpio : t.gpioDir = s.gpioDir
  fc : t.faultCode = s.faultCode
  fw : t.faultWord = s.faultWord

theorem Inv.build {s t : State} (h : Inv s) (r : SameRest s t) (hdev : ∀ e, (t.dev e).Ok s.cap)
    (habs : ∀ e : Dev, s.cfg.ndev ≤ e.val → t.dev e = s.dev e)
    (hm : MainlineOk t) (hc : CloseOk t) (hres : t.res = t.outLog.getLastD 0#16) (hpc : t.pc ≤ t.script.length) : Inv
        t where
  devices := by
    have : t.cap = s.cap := by simp [State.cap, r.cfg]
    rw [this]; exact hdev
  absent := fun e he => by rw [r.cfg] at he; rw [habs e he]; exact h.absent e he
  mainline := hm
  closing := hc
  gpio := by rw [r.gpio]; exact h.gpio
  gpioPorts := by rw [r.gpio]; exact h.gpioPorts
  faultCode := by rw [r.fc]; exact h.faultCode
  faultWord := by rw [r.fc, r.fw]; exact h.faultWord
  res := hres
  pc := hpc

theorem MainlineOk.of_idle {t : State} (h1 : t.mphase = .idle) (h2 : t.mcur = 0#64) (h3 : t.mseq = 0#3) : MainlineOk
    t :=
  ⟨fun _ => h2, fun _ => h3, fun h => absurd h1 h, by simp [h1], by simp [h1], by simp [h1]⟩
theorem CloseOk.of_idle {t : State} (h1 : t.mphase = .idle) : CloseOk t := ⟨by simp [h1], by simp [h1]⟩

theorem MainlineOk.of_same {s t : State} (h : MainlineOk s) (h1 : t.mphase = s.mphase) (h2 : t.mcur = s.mcur)
    (h3 : t.mseq = s.mseq) (h4 : t.cfg = s.cfg) (h5 : ∀ e, (s.dev e).life = .run → (t.dev e).life = .run) :
        MainlineOk t := by
  refine ⟨?_, ?_, ?_, ?_, ?_, ?_⟩
  · rw [h1, h2]; exact h.idle
  · rw [h1, h3]; exact h.mseq
  · intro hb
    rw [h1] at hb
    have := h.busy hb
    simp only [mcurDev, h2, h4] at this ⊢
    exact ⟨this.1, h5 _ this.2⟩
  · rw [h1, h2]; exact h.sendWait
  · rw [h1, h2, h3]; exact h.seq
  · rw [h1, h2]; exact h.close

theorem CloseOk.of_same {s t : State} (h : CloseOk s) (h1 : t.mphase = s.mphase) (h2 : t.mcur = s.mcur)
    (h4 : t.cfg = s.cfg)
    (h5 : ∀ e, (s.dev e).tx.cnt = 0 → (t.dev e).tx.cnt = 0)
    (h6 : ∀ e w, (s.dev e).tx.cnt = 0 → closeFlag w (s.dev e) = true → closeFlag w (t.dev e) = true) : CloseOk t := by
  refine ⟨?_, ?_⟩
  · rw [h1]; intro hh; simp only [mcurDev, h2]; exact h5 _ (h.drained hh)
  · rw [h1]; intro hh; simp only [mcurDev, h2, h4]; exact h6 _ _ (h.drained (.inr hh)) (h.waited hh)

/-- The latches and the devices untouched. -/
theorem MainlineOk.keep {s t : State} (h : MainlineOk s) (h1 : t.mphase = s.mphase := by rfl)
    (h2 : t.mcur = s.mcur := by rfl) (h3 : t.mseq = s.mseq := by rfl) (h4 : t.cfg = s.cfg := by rfl)
    (h5 : ∀ d, t.dev d = s.dev d := by exact fun _ => rfl) : MainlineOk t :=
  h.of_same h1 h2 h3 h4 fun e k => by rw [h5]; exact k

theorem CloseOk.keep {s t : State} (h : CloseOk s) (h1 : t.mphase = s.mphase := by rfl)
    (h2 : t.mcur = s.mcur := by rfl) (h4 : t.cfg = s.cfg := by rfl)
    (h5 : ∀ d, t.dev d = s.dev d := by exact fun _ => rfl) : CloseOk t :=
  h.of_same h1 h2 h4 (fun e k => by rw [h5]; exact k) fun e w _ k => by rw [h5]; exact k

theorem Inv.raise {s : State} (h : Inv s) (c : FaultCode) (w : Word) : Inv (raiseFault c w s) := by
  unfold raiseFault
  split
  · exact ⟨h.devices, h.absent, h.mainline.keep, h.closing.keep,
      h.gpio, h.gpioPorts, (faultNumber_range c).2, fun k => absurd k (faultNumber_ne_zero c), h.res, h.pc⟩
  · exact h

/-- The schedule is no part of the invariant. -/
theorem Inv.sched {s : State} (h : Inv s) (l : List Choice) : Inv { s with sched := l } :=
  ⟨h.devices, h.absent, h.mainline.keep, h.closing.keep,
      h.gpio, h.gpioPorts, h.faultCode, h.faultWord, h.res, h.pc⟩

/-- One device record written, so that an in-flight command still finds what it relies on. -/
theorem Inv.setDev {s : State} (h : Inv s) (d : Dev) (x : Device) (hd : d.val < s.cfg.ndev) (hx : x.Ok s.cap)
    (hlife : (s.dev d).life = .run → x.life = .run) (hcnt : (s.dev d).tx.cnt = 0 → x.tx.cnt = 0)
    (hflag : ∀ w, (s.dev d).tx.cnt = 0 → closeFlag w (s.dev d) = true → closeFlag w x = true) : Inv (s.setDev d x) :=
        by
  refine h.build ⟨rfl, rfl, rfl, rfl⟩ ?_ ?_ (h.mainline.of_same rfl rfl rfl rfl ?_)
      (h.closing.of_same rfl rfl rfl ?_ ?_) h.res h.pc
  · intro e; rw [dev_setDev]; split
    · exact hx
    · exact h.devices e
  · intro e he; rw [dev_setDev_ne]; intro k; subst k; omega
  · intro e he; rw [dev_setDev]; split
    · next k => subst k; exact hlife he
    · exact he
  · intro e he; rw [dev_setDev]; split
    · next k => subst k; exact hcnt he
    · exact he
  · intro e w he hw; rw [dev_setDev]; split
    · next k => subst k; exact hflag w he hw
    · exact hw

theorem Inv.emit {s : State} (h : Inv s) (v : Half) : Inv (emit v s) := 
  h.build ⟨rfl, rfl, rfl, rfl⟩ h.devices (fun _ _ => rfl) h.mainline.keep h.closing.keep (by simp) h.pc

theorem Inv.draws {s : State} (h : Inv s) (n : Nat) : Inv { s with draws := n } := 
  h.build ⟨rfl, rfl, rfl, rfl⟩ h.devices (fun _ _ => rfl) h.mainline.keep h.closing.keep h.res h.pc

theorem Inv.gie {s : State} (h : Inv s) (v : Bool) : Inv { s with gie := v } := 
  h.build ⟨rfl, rfl, rfl, rfl⟩ h.devices (fun _ _ => rfl) h.mainline.keep h.closing.keep h.res h.pc

theorem Inv.advance {s : State} (h : Inv s) (hp : s.pc < s.script.length) : Inv (advancePc s) := 
  h.build ⟨rfl, rfl, rfl, rfl⟩ h.devices (fun _ _ => rfl) h.mainline.keep h.closing.keep h.res hp

/-- With no command in flight, any good device record may be written. -/
theorem Inv.setDevIdle {s : State} (h : Inv s) (hidle : s.mphase = .idle) (d : Dev) (x : Device)
    (hd : d.val < s.cfg.ndev) (hx : x.Ok s.cap) : Inv (s.setDev d x) := by
  refine h.build ⟨rfl, rfl, rfl, rfl⟩ ?_ ?_
      (.of_idle hidle (h.mainline.idle hidle) (h.mainline.mseq (by simp [hidle]))) (.of_idle hidle) h.res h.pc
  · intro e; rw [dev_setDev]; split
    · exact hx
    · exact h.devices e
  · intro e he; rw [dev_setDev_ne]; intro k; subst k; omega

/-- The environment items (44_environment.md R320). -/
def isEnvInstr : Instr → Bool
  | .envRx _ _ _ => true
  | .envTxDone _ => true
  | .envGie _ => true
  | _ => false

theorem Inv.exec_rxc {s t : State} (h : Inv s) (d : Dev) (hd : d.val < s.cfg.ndev) (ht : execRxc d s = .next t) :
    Inv t := by
  rw [execRxc_eq] at ht; cases ht
  refine h.setDev d _ hd (serviced_ok (c := s.cfg) (h.devices d)) ?_ ?_ ?_ <;> unfold serviced <;> split
  all_goals first
    | exact fun k => k
    | exact fun w _ k => by cases w <;> exact k

theorem Inv.exec_dre {s t : State} (h : Inv s) (d : Dev) (hd : d.val < s.cfg.ndev) (ht : execDre d s = .next t) : Inv
    t := by
  rw [execDre_eq] at ht; cases ht
  refine h.setDev d _ hd (drained_ok (c := s.cfg) _ (h.devices d)) ?_ ?_ ?_ <;> unfold drained <;> split
  all_goals first | exact fun k => k | (intro k; omega) | (intro w k; omega) | exact fun w _ k => by cases w <;>
      exact k

theorem Inv.eventRx {s t : State} (h : Inv s) (d : Dev) (a b : Byte) (hd : d.val < s.cfg.ndev)
    (ht : eventRx d a b s = some t) : Inv t := by
  unfold Machine.eventRx at ht
  obtain ⟨x, hx, rfl⟩ := Option.map_eq_some_iff.1 ht
  have hD := h.devices d
  refine h.setDev d _ hd (hD.received hx) ?_ ?_ ?_ <;> unfold receive at hx <;> split at hx <;> try split at hx
  all_goals cases hx
  all_goals try (exact fun k => k)
  all_goals exact fun w _ k => by cases w <;> exact k

theorem Inv.eventTxDone {s : State} (h : Inv s) (d : Dev) (hd : d.val < s.cfg.ndev) : Inv (eventTxDone d s) := by
  have hD := h.devices d
  refine h.setDev d _ hd hD.transmitDone ?_ ?_ ?_ <;> unfold transmitDone <;> split
  all_goals try (exact fun k => k)
  · exact fun w _ k => k
  · exact fun w _ k => by cases w <;> rfl

theorem Inv.openEvent {s : State} (h : Inv s) (e : EnvEvent) (he : eventOk s.cfg.ndev e = true) : Inv (openEvent e s)
    := by
  cases e with
  | rx d a b =>
    simp only [Machine.openEvent]
    split
    · next t ht => exact h.eventRx d a b (by simpa [eventOk] using he) ht
    · exact h.raise _ _
  | txDone d => exact h.eventTxDone d (by simpa [eventOk] using he)
  | gie v => exact h.gie v

theorem Inv.queue {s : State} (h : Inv s) (d : Dev) (b : Byte) (hrun : (s.dev d).life = .run) (hroom : (s.dev d).tx.cnt < s.cap) :
    ∀ e, ((queueByte d b s).dev e).Ok s.cap := by
  intro e
  rw [queueByte_eq, dev_setDev]
  split
  · exact Device.Ok.queued (h.devices d) b hrun hroom
  · exact h.devices e

theorem Inv.mainlineStep {s : State} (h : Inv s) (hr : mainlineReady s = true) : Inv (mainlineStep s) := by
  unfold mainlineReady at hr
  unfold Machine.mainlineStep
  have hb := h.mainline.busy
  cases hp : s.mphase with
  | idle => simp [hp] at hr
  | sendWait =>
    simp only [hp] at hr ⊢
    obtain ⟨hd, hrun⟩ := hb (by simp [hp])
    have hroom : (s.dev (mcurDev s)).tx.cnt < s.cap := by simpa [txHasRoom] using hr
    have hms := h.mainline.mseq (by simp [hp])
    refine h.build ⟨?_, ?_, ?_, ?_⟩ (h.queue _ _ hrun hroom) ?_ (.of_idle rfl rfl ?_) (.of_idle rfl) ?_ ?_
    all_goals
      simp only [sendByteStep, queueByte_eq, setDev_cfg, setDev_gpioDir, setDev_faultCode, setDev_faultWord,
          setDev_mseq,
        setDev_res, setDev_outLog, setDev_pc, setDev_script]
    · intro e he; exact dev_setDev_ne _ _ _ _ (by intro k; subst k; omega)
    · exact hms
    · exact h.res
    · exact h.pc
  | seq =>
    simp only [hp] at hr ⊢
    obtain ⟨hd, hrun⟩ := hb (by simp [hp])
    have hroom : (s.dev (mcurDev s)).tx.cnt < s.cap := by simpa [txHasRoom] using hr
    obtain ⟨d, bytes, hw, hl, hlt⟩ := h.mainline.seq hp
    unfold sendSeqStep
    simp only []
    split
    · next hlast =>
      refine h.build ⟨?_, ?_, ?_, ?_⟩ (h.queue _ _ hrun hroom) ?_ (.of_idle rfl rfl rfl) (.of_idle rfl) ?_ ?_
      all_goals
        simp only [queueByte_eq, setDev_cfg, setDev_gpioDir, setDev_faultCode, setDev_faultWord,
          setDev_res, setDev_outLog, setDev_pc, setDev_script]
      · intro e he; exact dev_setDev_ne _ _ _ _ (by intro k; subst k; omega)
      · exact h.res
      · exact h.pc
    · next hlast =>
      refine h.build ⟨?_, ?_, ?_, ?_⟩ (h.queue _ _ hrun hroom) ?_ ?_ ?_ ?_ ?_
      all_goals
        simp only [queueByte_eq, setDev_cfg, setDev_gpioDir, setDev_faultCode, setDev_faultWord,
          setDev_res, setDev_outLog, setDev_pc, setDev_script]
      · intro e he; exact dev_setDev_ne _ _ _ _ (by intro k; subst k; omega)
      · refine ⟨by simp [hp], by simp [hp], fun _ => ⟨?_, ?_⟩, by simp [hp], fun _ => ⟨d, bytes, hw, hl, ?_⟩, by simp
          [hp]⟩
        · exact hd
        · show ((s.setDev (mcurDev s) _).dev (mcurDev s)).life = .run
          rw [dev_setDev_same]; exact hrun
        · have hc : mcurCount s = BitVec.ofNat 3 bytes.length := by
            apply BitVec.eq_of_toNat_eq
            rw [mcurCount, hw, count_encSendSeq d bytes hl]; simp; omega
          have : ¬ (s.mseq + 1#3).toNat = (BitVec.ofNat 3 bytes.length).toNat := fun k => hlast
              (by rw [hc]; exact BitVec.eq_of_toNat_eq k)
          simp at this ⊢
          omega
      · exact ⟨by simp [hp], by simp [hp]⟩
      · exact h.res
      · exact h.pc
  | closeDrain =>
    simp only [hp] at hr ⊢
    have hc := h.mainline.close (by simp [hp])
    have hb := hb (by simp [hp])
    have hms := h.mainline.mseq (by simp [hp])
    refine h.build ⟨rfl, rfl, rfl, rfl⟩ h.devices (fun _ _ => rfl)
        ⟨by simp [closeDrainStep], fun _ => hms, fun _ => hb, by simp [closeDrainStep], by simp [closeDrainStep], fun
        _ => hc⟩ ⟨fun _ => ?_, by simp [closeDrainStep]⟩ h.res h.pc
    have : (s.dev (mcurDev s)).tx.cnt = 0 := by simpa [closeDrainReady, ringEmpty] using hr
    exact this
  | closeHw =>
    simp only [hp] at hr ⊢
    have hc := h.mainline.close (by simp [hp])
    have hb := hb (by simp [hp])
    have hms := h.mainline.mseq (by simp [hp])
    have hdr := h.closing.drained (by simp [hp])
    exact h.build ⟨rfl, rfl, rfl, rfl⟩ h.devices (fun _ _ => rfl)
        ⟨by simp [closeHwStep], fun _ => hms, fun _ => hb, by simp [closeHwStep], by simp [closeHwStep], fun _ => hc⟩
        ⟨fun _ => hdr, fun _ => hr⟩ h.res h.pc
  | closeSettle =>
    have hb := hb (by simp [hp])
    have hms := h.mainline.mseq (by simp [hp])
    refine h.build ⟨rfl, rfl, rfl, rfl⟩ ?_ ?_ (.of_idle rfl rfl hms) (.of_idle rfl) h.res h.pc
    · intro e
      show ((s.setDev (mcurDev s) _).dev e).Ok _
      rw [dev_setDev]; split
      · exact (h.devices _).closed
      · exact h.devices e
    · intro e he
      show (s.setDev (mcurDev s) _).dev e = _
      exact dev_setDev_ne _ _ _ _ (by intro k; subst k; omega)

theorem Inv.startMain {s : State} (h : Inv s) (d : Dev) (W : Word) (p : Phase) (q : BitVec 3)
    (hd : d.val < s.cfg.ndev) (hrun : (s.dev d).life = .run) (hW : devField W = d) (hp : p ≠ .idle) (hq : q = 0#3)
    (h1 : p = .sendWait → ∃ d b, W = encSendByte d b)
        (h2 : p = .seq → ∃ d bytes, W = encSendSeq d bytes ∧ bytes.length ≤ 6 ∧ 0 < bytes.length)
    (h3 : p = .closeDrain → ∃ d, W = encClose d) (h4 : p ≠ .closeHw) (h5 : p ≠ .closeSettle) :
    Inv { s with mcur := W, mseq := q, mphase := p } := by
  subst hq
  refine h.build ⟨rfl, rfl, rfl, rfl⟩ h.devices (fun _ _ => rfl)
      ⟨fun k => absurd k hp, fun _ => rfl, fun _ => ?_, h1, ?_, ?_⟩ ⟨by simp [h4, h5], by simp [h5]⟩ h.res h.pc
  · simp only [mcurDev, hW]; exact ⟨hd, hrun⟩
  · intro k; obtain ⟨d, b, e1, e2, e3⟩ := h2 k; exact ⟨d, b, e1, e2, by simpa using e3⟩
  · intro k; rcases k with k | k | k
    · exact h3 k
    · exact absurd k h4
    · exact absurd k h5

theorem ringInsertOk' {s : State} {B : RingBuffer} (b : Byte) (hB : B.Ok s.cap) (h : ¬ ringFull s.cap B = true) :
    (ringInsert s.cap B b).Ok s.cap := by
  refine ringInsert_ok s.cfg B b hB ?_
  have := hB.cnt_le
  simp [ringFull] at h
  exact lt_of_le_of_ne this h

theorem ringDropOk' {s : State} {B : RingBuffer} (hB : B.Ok s.cap) (h : ¬ ringEmpty B = true) : (ringDrop s.cap B).Ok
    s.cap := by
  refine ringDrop_ok s.cfg B hB ?_
  simp [ringEmpty] at h
  omega

theorem Inv.setBufferIdle {s : State} (h : Inv s) (hidle : s.mphase = .idle) (d : Dev) (sel : Sel) (B : RingBuffer)
    (hd : d.val < s.cfg.ndev)
   (hl : legalTestPort (s.dev d).life = true) (hB : B.Ok s.cap) : Inv (s.setBuffer d sel B) := by
  cases sel with
  | rx => exact h.setDevIdle hidle d _ hd ((h.devices d).withRx _ hB)
  | tx => exact h.setDevIdle hidle d _ hd ((h.devices d).withTx _ hB fun k => by simp [k, legalTestPort] at hl)

theorem Inv.bufferOk {s : State} (h : Inv s) (d : Dev) (sel : Sel) : (s.buffer d sel).Ok s.cap := by
  cases sel
  · exact (h.devices d).rx
  · exact (h.devices d).tx

theorem setBuffer_mphase (s : State) (d sel B) : (s.setBuffer d sel B).mphase = s.mphase := by cases sel <;> rfl
theorem setBuffer_pc (s : State) (d sel B) : (s.setBuffer d sel B).pc = s.pc := by cases sel <;> rfl
theorem setBuffer_script (s : State) (d sel B) : (s.setBuffer d sel B).script = s.script := by cases sel <;> rfl

theorem Inv.exec {s t : State} (h : Inv s) (i : Instr) (hwf : wellFormed s.cfg.ndev i = true)
    (hpc : s.pc < s.script.length)
    (hidle : s.mphase = .idle ∨ isEnvInstr i = true) (ht : exec i s = .next t) : Inv t := by
  cases i with
  | rxc d => simp [wellFormed, deviceOk, Instr.dev?] at hwf; exact h.exec_rxc d hwf.1 ht
  | dre d => simp [wellFormed, deviceOk, Instr.dev?] at hwf; exact h.exec_dre d hwf.1 ht
  | envRx d a b =>
    simp [wellFormed, deviceOk, Instr.dev?] at hwf
    simp only [Machine.exec, execEnvRx] at ht
    split at ht
    · next t' ht' =>
      cases ht
      refine (h.eventRx d a b hwf.1 ht').advance ?_
      unfold Machine.eventRx at ht'
      obtain ⟨x, hx, rfl⟩ := Option.map_eq_some_iff.1 ht'
      exact hpc
    · cases ht; exact h.raise _ _
  | envTxDone d =>
    simp [wellFormed, deviceOk, Instr.dev?] at hwf
    cases ht
    exact (h.eventTxDone d hwf.1).advance hpc
  | envGie v => cases ht; exact (h.gie v).advance hpc
  | configure d p r tm x =>
    simp [wellFormed, deviceOk, Instr.dev?] at hwf
    cases ht
    have hidle : s.mphase = .idle := by simpa [isEnvInstr] using hidle
    exact (h.setDevIdle hidle d _ hwf.1 ((h.devices d).configured p r tm x)).advance hpc
  | init d baud =>
    simp [wellFormed, deviceOk, Instr.dev?] at hwf
    have hidle : s.mphase = .idle := by simpa [isEnvInstr] using hidle
    simp only [Machine.exec, execInit] at ht
    rcases whenLegal_next _ _ _ _ _ _ ht with ⟨hl, ht⟩ | ⟨hl, rfl⟩
    · cases ht
      rw [startDevice_eq]
      have h1 := h.setDevIdle hidle d _ hwf.1 ((h.devices d).started baud)
      have h2 : Inv { s.setDev d (startedDevice baud (s.dev d)) with
        gpioDir := gpioWrite s.gpioDir (s.dev d).port
          (wiredDir (gpioRead s.gpioDir (s.dev d).port) (s.dev d).rxmask (s.dev d).txmask) } :=
        ⟨h1.devices, h1.absent, h1.mainline.keep, h1.closing.keep,
          gpioWrite_wf _ _ _ h.gpio, gpioWrite_ports _ _ _ h.gpioPorts, h1.faultCode, h1.faultWord, h1.res, h1.pc⟩
      exact h2.advance hpc
    · exact h.raise _ _
  | sendByte d b =>
    simp [wellFormed, deviceOk, Instr.dev?] at hwf
    have hidle : s.mphase = .idle := by simpa [isEnvInstr] using hidle
    rcases whenLegal_next _ _ _ _ _ _ ht with ⟨hl, ht⟩ | ⟨hl, rfl⟩
    · cases ht
      have hrun : (s.dev d).life = .run := by revert hl; cases (s.dev d).life <;> simp [legalRun]
      have := h.startMain d (encSendByte d b) .sendWait s.mseq hwf.1 hrun (by simp) (by simp)
          (h.mainline.mseq (by simp [hidle]))
        (fun _ => ⟨d, b, rfl⟩) (by simp) (by simp) (by simp) (by simp)
      exact this.advance hpc
    · exact h.raise _ _
  | sendSeq d bs =>
    simp [wellFormed, deviceOk, Instr.dev?, lengthOk] at hwf
    have hidle : s.mphase = .idle := by simpa [isEnvInstr] using hidle
    rcases whenLegal_next _ _ _ _ _ _ ht with ⟨hl, ht⟩ | ⟨hl, rfl⟩
    · have hrun : (s.dev d).life = .run := by revert hl; cases (s.dev d).life <;> simp [legalRun]
      split at ht
      · cases ht; exact h.advance hpc
      · next hne =>
        cases ht
        have := h.startMain d (encSendSeq d bs) .seq 0#3 hwf.1 hrun (devField_encSendSeq d bs hwf.2) (by simp)
            rfl
          (by simp) (fun _ => ⟨d, bs, rfl, hwf.2, by omega⟩) (by simp) (by simp) (by simp)
        exact this.advance hpc
    · exact h.raise _ _
  | readByte d =>
    simp [wellFormed, deviceOk, Instr.dev?] at hwf
    have hidle : s.mphase = .idle := by simpa [isEnvInstr] using hidle
    rcases whenLegal_next _ _ _ _ _ _ ht with ⟨hl, ht⟩ | ⟨hl, rfl⟩
    · split at ht
      · next hc =>
        cases ht
        refine Inv.advance (Inv.emit ?_ _) hpc
        exact h.setDevIdle hidle d _ hwf.1 ((h.devices d).withRx _ (ringDrop_ok s.cfg _ (h.devices d).rx hc))
      · cases ht
        refine Inv.advance (Inv.draws (Inv.emit ?_ _) _) hpc
        exact h.setDevIdle hidle d _ hwf.1 ((h.devices d).withErr _ (emptyReadFlags_reserved _ (h.devices d).err))
    · exact h.raise _ _
  | rxCount d =>
    rcases whenLegal_next _ _ _ _ _ _ ht with ⟨hl, ht⟩ | ⟨hl, rfl⟩
    · cases ht; exact (h.emit _).advance hpc
    · exact h.raise _ _
  | close d =>
    simp [wellFormed, deviceOk, Instr.dev?] at hwf
    have hidle : s.mphase = .idle := by simpa [isEnvInstr] using hidle
    rcases whenLegal_next _ _ _ _ _ _ ht with ⟨hl, ht⟩ | ⟨hl, rfl⟩
    · cases ht
      have hrun : (s.dev d).life = .run := by revert hl; cases (s.dev d).life <;> simp [legalRun]
      have := h.startMain d (encClose d) .closeDrain s.mseq hwf.1 hrun (by simp) (by simp)
          (h.mainline.mseq (by simp [hidle]))
        (by simp) (by simp) (fun _ => ⟨d, rfl⟩) (by simp) (by simp)
      exact this.advance hpc
    · exact h.raise _ _
  | rbReset d sel =>
    simp [wellFormed, deviceOk, Instr.dev?] at hwf
    have hidle : s.mphase = .idle := by simpa [isEnvInstr] using hidle
    rcases whenLegal_next _ _ _ _ _ _ ht with ⟨hl, ht⟩ | ⟨hl, rfl⟩
    · cases ht
      refine Inv.advance ?_ (by rw [resetBuffer, setBuffer_pc, setBuffer_script]; exact hpc)
      exact h.setBufferIdle hidle d sel _ hwf.1 hl (ringReset_ok s.cfg _ (h.bufferOk d sel))
    · exact h.raise _ _
  | rbInsert d sel b =>
    simp [wellFormed, deviceOk, Instr.dev?] at hwf
    have hidle : s.mphase = .idle := by simpa [isEnvInstr] using hidle
    rcases whenLegal_next _ _ _ _ _ _ ht with ⟨hl, ht⟩ | ⟨hl, rfl⟩
    · split at ht
      · cases ht; exact h.raise _ _
      · next hf =>
        cases ht
        refine Inv.advance ?_ (by rw [insertByte, setBuffer_pc, setBuffer_script]; exact hpc)
        exact h.setBufferIdle hidle d sel _ hwf.1 hl (ringInsertOk' b (h.bufferOk d sel) hf)
    · exact h.raise _ _
  | rbRemove d sel =>
    simp [wellFormed, deviceOk, Instr.dev?] at hwf
    have hidle : s.mphase = .idle := by simpa [isEnvInstr] using hidle
    rcases whenLegal_next _ _ _ _ _ _ ht with ⟨hl, ht⟩ | ⟨hl, rfl⟩
    · split at ht
      · cases ht; exact h.raise _ _
      · next hf =>
        cases ht
        refine Inv.advance (Inv.emit ?_ _)
            (by simp only [emit_pc, emit_script]; rw [dropByte, setBuffer_pc, setBuffer_script]; exact hpc)
        exact h.setBufferIdle hidle d sel _ hwf.1 hl (ringDropOk' (h.bufferOk d sel) hf)
    · exact h.raise _ _
  | rbFull d sel =>
    rcases whenLegal_next _ _ _ _ _ _ ht with ⟨hl, ht⟩ | ⟨hl, rfl⟩
    · cases ht; exact (h.emit _).advance hpc
    · exact h.raise _ _
  | rbEmpty d sel =>
    rcases whenLegal_next _ _ _ _ _ _ ht with ⟨hl, ht⟩ | ⟨hl, rfl⟩
    · cases ht; exact (h.emit _).advance hpc
    · exact h.raise _ _

end Sys2Proof.Machine
end

