-- ==== Sys2Proof/Laws/Agents.lean ====
section
/-! SUPPORT. The laws of the choice among the enabled steps, and what decoding an item gives the invariant. -/

namespace Sys2Proof.Machine

/-- The schedule is no part of what makes a step enabled. -/
@[simp] theorem enabled_sched (c : Choice) (s : State) (l : List Choice) : enabled c { s with sched := l } = enabled c s := by
  cases c <;> rfl

@[simp] theorem dev_sched (s : State) (l : List Choice) (d : Dev) : State.dev { s with sched := l } d = s.dev d := rfl

/-- Everything `pick` can answer: the first enabled choice of the schedule, those before it passed over. -/
theorem pick_some {s : State} {l : List Choice} {c : Choice} {r : List Choice} (h : pick s l = some (c, r)) :
    enabled c s = true ∧ ∃ pre, l = pre ++ c :: r ∧ ∀ x ∈ pre, enabled x s = false := by
  induction l with
  | nil => cases h
  | cons a l ih =>
    simp only [pick] at h
    split at h
    · next ha => cases h; exact ⟨ha, [], rfl, by simp⟩
    · next ha =>
      obtain ⟨h1, pre, rfl, h3⟩ := ih h
      refine ⟨h1, a :: pre, rfl, ?_⟩
      intro x hx
      rcases List.mem_cons.1 hx with rfl | hx
      · simpa using ha
      · exact h3 x hx

theorem pick_none {s : State} {l : List Choice} (h : pick s l = none) : ∀ c ∈ l, enabled c s = false := by
  induction l with
  | nil => simp
  | cons a l ih =>
    simp only [pick] at h
    split at h
    · cases h
    · next ha =>
      intro x hx
      rcases List.mem_cons.1 hx with rfl | hx
      · simpa using ha
      · exact ih h x hx

/-- The step chosen is enabled. -/
theorem nextChoice_enabled {s : State} {c : Choice} {r : List Choice} (h : nextChoice s = some (c, r)) :
    enabled c s = true := by
  unfold nextChoice at h
  split at h
  · next p hp => cases h; exact (pick_some hp).1
  · simp only [testChoice, Option.map_eq_some_iff] at h
    obtain ⟨a, ha, hb⟩ := h
    cases hb
    exact List.find?_some (p := fun c => enabled c s) ha

/-- No step is chosen only when no step of the schedule or of the test scheduler is enabled. -/
theorem nextChoice_none {s : State} (h : nextChoice s = none) :
    (∀ c ∈ s.sched, enabled c s = false) ∧ ∀ c ∈ testOrder, enabled c s = false := by
  unfold nextChoice at h
  split at h
  · cases h
  · next hp =>
    refine ⟨pick_none hp, ?_⟩
    have := Option.map_eq_none_iff.1 h
    simpa [testChoice] using this

/-- The test scheduler looks at every step of scripted mode. -/
theorem mem_testOrder (c : Choice) (h : ∀ e, c ≠ .event e) : c ∈ testOrder := by
  cases c with
  | item => decide
  | mainline => decide
  | rxc d => clear h; revert d; decide
  | dre d => clear h; revert d; decide
  | event e => exact absurd rfl (h e)

/-- Nothing is enabled in a faulted state (60_exceptions.md R340). -/
theorem enabled_faulted {s : State} (h : s.faultCode ≠ 0#8) (c : Choice) : enabled c s = false := by
  simp [enabled, h]

/-- An enabled step takes place in a state without a fault (R322). -/
theorem faultCode_of_enabled {s : State} {c : Choice} (h : enabled c s = true) : s.faultCode = 0#8 := by
  by_contra hf
  rw [enabled_faulted hf] at h
  cases h

/-- Everything `step` can answer. -/
theorem step_cases {s : State} {r : Result} (h : step s = r) :
    (∃ c rest, enabled c s = true ∧ r = take c { s with sched := rest }) ∨
    (r = .fault (endReason s) ∧ (∀ c ∈ s.sched, enabled c s = false) ∧ ∀ c ∈ testOrder, enabled c s = false) := by
  unfold step stepMachine at h
  split at h
  · next c rest hc => exact .inl ⟨c, rest, nextChoice_enabled hc, h.symm⟩
  · next hc => exact .inr ⟨h.symm, nextChoice_none hc⟩

/-- An instruction that a word decodes to is well-formed, and an environment item decodes to an environment
instruction. -/
theorem wf_of_decode {ndev : Nat} {W : Word} {i : Instr} (h : decodeWord ndev W = .ok i) :
    wellFormed ndev i = true ∧ (isEnvWord W = true → isEnvInstr i = true) := by
  obtain ⟨op, hf, hd, hq, rfl⟩ := fields_of_decodeWord ndev W i h
  have key : op ≠ .envGie → W.toNat / 16 % 8 < ndev := fun k => hd.resolve_left k
  have hop := rowFields_op op _ hf
  constructor
  · cases op <;> simp_all [operands, wellFormed, deviceOk, lengthOk, Instr.dev?]
    omega
  · intro he
    have h13 : 13 ≤ W.toNat % 16 := by simpa [isEnvWord] using he
    cases op <;> simp only [opNumber] at hop <;> first | rfl | omega

end Sys2Proof.Machine
end

