-- ==== Sys2Proof/Laws/PerInstr.lean ====
section
/-! SUPPORT. Per-instruction laws: the bits of a well-formed instruction name its device. -/

namespace Sys2Proof.Laws.EncDev

/-- The device a code names: `W[6:4]` of a word (30_encoding.md R113), the upper three bits of a vector id (R119). -/
def codeDev : Code → Nat
  | .word W => (devField W).val
  | .vector V => V.toNat / 2

/-- The bits of an instruction name its device, and 0 for an instruction without one (R113). -/
def Statement (i : Instr) : Prop :=
  lengthOk i = true → codeDev (encode i) = match i.dev? with | some d => d.val | none => 0

open Sys2Proof.Machine

/-- `2*d + kind` fits the four bits of a vector id. -/
theorem vectorId_toNat (d : Dev) (k : Kind) : (vectorId d k).toNat = 2 * d.val + k.bit := by
  have := d.isLt
  have : k.bit < 2 := by cases k <;> decide
  simp [vectorId]; omega

theorem configure (d : Dev) (port route txmask rxmask : Byte) : Statement (.configure d port route txmask rxmask) := by
  intro _
  simp only [codeDev, encode, devField_val, encConfigure_toNat, Instr.dev?]; omega

theorem init (d : Dev) (baud : Half) : Statement (.init d baud) := by
  intro _
  simp only [codeDev, encode, devField_val, encInit_toNat, Instr.dev?]; omega

theorem sendByte (d : Dev) (b : Byte) : Statement (.sendByte d b) := by
  intro _
  simp only [codeDev, encode, devField_val, encSendByte_toNat, Instr.dev?]; omega

theorem sendSeq (d : Dev) (bytes : List Byte) : Statement (.sendSeq d bytes) := by
  intro h
  have hl : bytes.length ≤ 6 := by simpa [lengthOk] using h
  simp only [codeDev, encode, devField_val, encSendSeq_toNat d bytes hl, Instr.dev?]; omega

theorem readByte (d : Dev) : Statement (.readByte d) := by
  intro _
  simp only [codeDev, encode, devField_val, encReadByte_toNat, Instr.dev?]; omega

theorem rxCount (d : Dev) : Statement (.rxCount d) := by
  intro _
  simp only [codeDev, encode, devField_val, encRxCount_toNat, Instr.dev?]; omega

theorem close (d : Dev) : Statement (.close d) := by
  intro _
  simp only [codeDev, encode, devField_val, encClose_toNat, Instr.dev?]; omega

theorem rbReset (d : Dev) (sel : Sel) : Statement (.rbReset d sel) := by
  intro _
  simp only [codeDev, encode, devField_val, encRbReset_toNat, Instr.dev?]; omega

theorem rbInsert (d : Dev) (sel : Sel) (b : Byte) : Statement (.rbInsert d sel b) := by
  intro _
  have := bit_lt sel
  simp only [codeDev, encode, devField_val, encRbInsert_toNat, Instr.dev?]; omega

theorem rbRemove (d : Dev) (sel : Sel) : Statement (.rbRemove d sel) := by
  intro _
  simp only [codeDev, encode, devField_val, encRbRemove_toNat, Instr.dev?]; omega

theorem rbFull (d : Dev) (sel : Sel) : Statement (.rbFull d sel) := by
  intro _
  simp only [codeDev, encode, devField_val, encRbFull_toNat, Instr.dev?]; omega

theorem rbEmpty (d : Dev) (sel : Sel) : Statement (.rbEmpty d sel) := by
  intro _
  simp only [codeDev, encode, devField_val, encRbEmpty_toNat, Instr.dev?]; omega

theorem envRx (d : Dev) (data status : Byte) : Statement (.envRx d data status) := by
  intro _
  simp only [codeDev, encode, devField_val, encEnvRx_toNat, Instr.dev?]; omega

theorem envTxDone (d : Dev) : Statement (.envTxDone d) := by
  intro _
  simp only [codeDev, encode, devField_val, encEnvTxDone_toNat, Instr.dev?]; omega

theorem envGie (v : Bool) : Statement (.envGie v) := by
  intro _
  simp only [codeDev, encode, devField_val, encEnvGie_toNat, Instr.dev?]; omega

theorem rxc (d : Dev) : Statement (.rxc d) := by
  intro _
  simp only [codeDev, encode, vectorId_toNat, Kind.bit, Instr.dev?]; omega

theorem dre (d : Dev) : Statement (.dre d) := by
  intro _
  simp only [codeDev, encode, vectorId_toNat, Kind.bit, Instr.dev?]; omega

end Sys2Proof.Laws.EncDev
end

