-- ==== Sys2Proof/Tests/Slice0.lean ====
section
/-! SUPPORT. Tests with the results of spec/95_test_vectors.md and 30_encoding.md R126, and one witness for each statement
that has hypotheses. -/

namespace Sys2Proof.Tests

open Sys2Proof.Machine

/-! ## Helpers: K = 2, NDEV = 2, CLOSE_WAIT = DRE (95 section 0) -/

def cfg2 : Config := ⟨2, 2, by decide, by decide, .dre⟩

/-- The machine after reset with the script. -/
def boot (S : List Word) : State := State.powerOn cfg2 S

/-- The machine after reset with device 0 in the given state. -/
def on (D : Device) : State := (boot []).setDev 0 D

def confDev : Device := { Device.reset with life := .conf }
def runDev : Device := { Device.reset with life := .run, rxen := true, txen := true, rxcie := true }
def closedDev : Device := { Device.reset with life := .closed }

/-- A part of the next state. -/
def after {α : Type} (r : Result) (f : State → α) : Option α := (nextOf r).map f

/-- Why no step is taken. -/
def stopOf : Result → Option Fault
  | .next _ => none
  | .fault f => some f
  | .refused _ => none

/-- The three numbers of a buffer. -/
def nums (B : RingBuffer) : Nat × Nat × Nat := (B.hin, B.hout, B.cnt)

/-- The fault register and the cursor. -/
def trap (s : State) : BitVec 8 × Word × Nat := (s.faultCode, s.faultWord, s.pc)

/-- The oldest byte at slot 0. -/
def one (b : Byte) : RingBuffer := ⟨[(0, b)], 1, 0, 1⟩

def abcd : RingBuffer := ⟨[(0, 0x61#8), (1, 0x62#8), (2, 0x63#8), (3, 0x64#8)], 0, 0, 4⟩

/-! ## Decoding: every constructor, by a word of the spec -/

theorem test_decode_configure :
    decodeWord 2 0x0000002010020310#64 = .ok (.configure 1 3 0x02 0x10 0x20) := by decide
theorem test_decode_init : decodeWord 2 0x0000000000034111#64 = .ok (.init 1 0x0341) := by decide
theorem test_decode_sendByte : decodeWord 2 0x0000000000004212#64 = .ok (.sendByte 1 0x42) := by decide
theorem test_decode_sendSeq :
    decodeWord 2 0x0605040302010603#64 = .ok (.sendSeq 0 [0x01, 0x02, 0x03, 0x04, 0x05, 0x06]) := by decide
theorem test_decode_readByte : decodeWord 2 0x0000000000000014#64 = .ok (.readByte 1) := by decide
theorem test_decode_rxCount : decodeWord 2 0x0000000000000005#64 = .ok (.rxCount 0) := by decide
theorem test_decode_close : decodeWord 2 0x0000000000000016#64 = .ok (.close 1) := by decide
theorem test_decode_rbReset : decodeWord 2 0x0000000000000088#64 = .ok (.rbReset 0 .tx) := by decide
theorem test_decode_rbInsert : decodeWord 2 0x0000000000005A99#64 = .ok (.rbInsert 1 .tx 0x5A) := by decide
theorem test_decode_rbRemove : decodeWord 2 0x000000000000008A#64 = .ok (.rbRemove 0 .tx) := by decide
theorem test_decode_rbFull : decodeWord 2 0x000000000000000B#64 = .ok (.rbFull 0 .rx) := by decide
theorem test_decode_rbEmpty : decodeWord 2 0x000000000000008C#64 = .ok (.rbEmpty 0 .tx) := by decide
theorem test_decode_envRx : decodeWord 2 0x000000000002711D#64 = .ok (.envRx 1 0x71 0x02) := by decide
theorem test_decode_envTxDone : decodeWord 2 0x000000000000001E#64 = .ok (.envTxDone 1) := by decide
theorem test_decode_envGie : decodeWord 2 0x000000000000010F#64 = .ok (.envGie true) := by decide
/-- V = 2*d + kind (R119). -/
theorem test_decode_rxc : decodeVector 2 2#4 = .ok (.rxc 1) := by decide
theorem test_decode_dre : decodeVector 2 3#4 = .ok (.dre 1) := by decide
/-- V = 4 is device 2. -/
theorem test_decode_vector_absent : decodeVector 2 4#4 = .error .deviceAbsent := by decide

/-- The illegal words of 95 section 2.6, DC1 to DC8. -/
theorem test_decode_illegal :
    decodeWord 2 0x0000000000000007#64 = .error .reservedOp
    ∧ decodeWord 2 0x0000000000000084#64 = .error .reservedBits
    ∧ decodeWord 2 0x0000000000000703#64 = .error .seqLength
    ∧ decodeWord 2 0x0000000000410003#64 = .error .seqUnusedByte
    ∧ decodeWord 2 0x000000000000011F#64 = .error .reservedBits
    ∧ decodeWord 2 0x0000000000000024#64 = .error .deviceAbsent
    ∧ decodeWord 2 0x0000000000000108#64 = .error .reservedBits
    ∧ decodeWord 2 0x0000010000000000#64 = .error .reservedBits := by decide

/-- TR6: n = 1 and B1 = 0x42. -/
theorem test_decode_unused_byte : decodeWord 2 0x0000000042410103#64 = .error .seqUnusedByte := by decide

/-- A word is consumed whole: seven bytes are no word (20_memory.md R86). -/
theorem test_decode_truncated : decodeBytes 2 [0x02, 0x41, 0, 0, 0, 0, 0] = .error .truncated := by decide

/-- The bytes of `CONFIG 0, 2, 0x01, 0x01, 0x02`, low byte first (R85). -/
theorem test_decode_bytes : decodeBytes 2 [0x00, 0x02, 0x01, 0x01, 0x02, 0, 0, 0] = .ok (.configure 0 2 1 1 2, []) := by
  decide

/-- The host's numbering: a command word and a vector id. -/
theorem test_decodeTableWord :
    decodeTableWord 64 0x4109 = some (.rbInsert 0 .rx 0x41) ∧ decodeTableWord 4 5 = some (.dre 2)
    ∧ decodeTableWord 64 7 = none := by decide

/-! ## Well-formedness: an ill-formed instruction for each check -/

theorem test_wellFormed_refuses_absent_device : wellFormed 2 (.readByte 2) = false := by decide
theorem test_wellFormed_refuses_seven_bytes : wellFormed 2 (.sendSeq 0 [1, 2, 3, 4, 5, 6, 7]) = false := by decide
theorem test_wellFormed_accepts : wellFormed 2 (.sendSeq 1 [1, 2, 3, 4, 5, 6]) = true := by decide

/-- R392, and the boundaries of R10 and R12. -/
theorem test_config_build :
    Config.build 6 2 .dre = .error .badCapacity ∧ Config.build 65536 2 .dre = .error .badCapacity
    ∧ Config.build 4 0 .dre = .error .badDeviceCount ∧ Config.build 4 9 .dre = .error .badDeviceCount
    ∧ Config.build 4 2 .dre = .ok cfg2 ∧ (Config.build 1 1 .txc).toOption.isSome = true
    ∧ (Config.build 32768 8 .txc).toOption.isSome = true := by decide

/-! ## Memory -/

theorem test_reset_memory_wf :
    Memory.wf Space.gpio.unlisted State.reset.gpioDir = true
    ∧ (∀ d, Memory.wf Space.storage.unlisted (State.reset.dev d).rx.buf = true)
    ∧ (∀ d, Memory.wf Space.storage.unlisted (State.reset.dev d).tx.buf = true) := by decide

/-- Writing what an unlisted index reads as removes the cell. -/
theorem test_memStore_removes : memStore Space.gpio.unlisted [(2, 0x01#8), (3, 0x10#8)] 2 0x00#8 = [(3, 0x10#8)] := by
  decide

/-- The table of 95 section 1.1. -/
theorem test_wrap_formula :
    ringAdvance 32 30 = 31 ∧ ringAdvance 32 31 = 0 ∧ ringAdvance 4 3 = 0 ∧ ringAdvance 1 0 = 0 ∧ ringAdvance 6 5 = 4 := by
  decide

/-! ## Test port -/

/-- RB11. -/
theorem test_rbReset : after (exec (.rbReset 0 .rx) (on { confDev with rx := ⟨[], 2, 2, 0⟩ }))
    (fun t => nums (t.dev 0).rx) = some (0, 0, 0) := by decide

/-- RB2: `hin` wraps. -/
theorem test_rbInsert : after (exec (.rbInsert 0 .rx 0x45) (on { confDev with rx := ⟨[(1, 0x41#8), (2, 0x42#8)], 3, 1, 2⟩ }))
    (fun t => (nums (t.dev 0).rx, (t.dev 0).rx.buf)) =
      some ((0, 1, 3), [(1, 0x41#8), (2, 0x42#8), (3, 0x45#8)]) := by decide

/-- RB5. -/
theorem test_rbInsert_full : after (exec (.rbInsert 0 .rx 0x46) (on { Device.reset with rx := abcd })) trap =
    some (3#8, 0x0000000000004609#64, 0) := by decide

/-- RB10: no flag in the result. -/
theorem test_rbRemove : after (exec (.rbRemove 0 .rx) (on { closedDev with rx := one 0x71#8, err := 0x46#8 }))
    (fun t => (t.res, (t.dev 0).err, nums (t.dev 0).rx)) = some (0x0071#16, 0x46#8, (1, 1, 0)) := by decide

/-- RB6. -/
theorem test_rbRemove_empty : after (exec (.rbRemove 0 .tx) (boot [])) trap = some (4#8, 0x000000000000008A#64, 0) := by
  decide

/-- RB12. -/
theorem test_rbFull : after (exec (.rbFull 0 .tx) (on { Device.reset with tx := ⟨[], 2, 0, 2⟩ })) State.res =
    some 0x0000#16 := by decide
theorem test_rbEmpty : after (exec (.rbEmpty 0 .tx) (on { Device.reset with tx := ⟨[], 2, 0, 2⟩ })) State.res =
    some 0x0000#16 := by decide

/-- RB8. -/
theorem test_rbEmpty_run : after (exec (.rbEmpty 0 .rx) (on runDev)) trap = some (2#8, 0x000000000000000C#64, 0) := by
  decide

/-! ## Lifecycle -/

/-- LC1. -/
theorem test_configure : after (exec (.configure 0 2 0x01 0x01 0x02) (boot []))
    (fun t => ((t.dev 0).port, (t.dev 0).txmask, (t.dev 0).rxmask, (t.dev 0).life, (t.dev 0).routeOut)) =
      some (2#8, 0x01#8, 0x02#8, .conf, 0#8) := by decide

/-- LC2: in RUN nothing but the fields changes. -/
theorem test_configure_run : after (exec (.configure 0 3 0x05 0x01 0x02) (on { runDev with routeOut := 0x01#8 }))
    (fun t => ((t.dev 0).route, (t.dev 0).life, (t.dev 0).routeOut)) = some (0x05#8, .run, 0x01#8) := by decide

/-- LC4: `(0xF0 & ~0x30) | 0x11 = 0xD1`. -/
theorem test_init : after (exec (.init 0 1)
    { on { confDev with port := 2#8, txmask := 0x11#8, rxmask := 0x30#8 } with gpioDir := [(2, 0xF0#8)] })
    (fun t => (gpioRead t.gpioDir 2#8, (t.dev 0).life, (t.dev 0).dreie)) = some (0xD1#8, .run, false) := by decide

/-- LC6. -/
theorem test_init_unconf : after (exec (.init 0 0x0005) (boot [])) trap = some (2#8, 0x0000000000000501#64, 0) := by
  decide

/-- LC10, the start step. -/
theorem test_close : after (exec (.close 0) (on runDev)) (fun t => (t.mphase, t.pc, (t.dev 0).life)) =
    some (.closeDrain, 1, .run) := by decide

/-- LC10, the last step. -/
theorem test_close_settle : after (take .mainline { on runDev with mphase := .closeSettle, mcur := 0x06#64 })
    (fun t => ((t.dev 0).life, (t.dev 0).rxen, (t.dev 0).rxcie, t.mphase, t.mcur)) =
      some (.closed, false, false, .idle, 0#64) := by decide

/-! ## Transfer -/

/-- TR1, the start step. -/
theorem test_sendByte : after (exec (.sendByte 0 0x41) (on runDev)) (fun t => (t.mcur, t.mphase, t.pc)) =
    some (0x4102#64, .sendWait, 1) := by decide

/-- TR1, the completion. -/
theorem test_sendByte_completion : after (take .mainline { on runDev with mphase := .sendWait, mcur := 0x4102#64 })
    (fun t => ((t.dev 0).tx, (t.dev 0).dreie, t.mphase, t.mcur)) = some (one 0x41#8, true, .idle, 0#64) := by decide

/-- TR4. -/
theorem test_sendSeq_none : after (exec (.sendSeq 0 []) (on runDev)) (fun t => (t.mphase, t.pc, (t.dev 0).dreie)) =
    some (.idle, 1, false) := by decide

/-- P1, the second byte step of `SENDSEQ 0, 'H', 'i'`. -/
theorem test_sendSeq_last :
    after (take .mainline { on runDev with mphase := .seq, mcur := 0x69480203#64, mseq := 1#3 })
      (fun t => ((t.dev 0).tx, t.mphase, t.mseq)) = some (one 0x69#8, .idle, 0#3) := by decide

/-- TR8. -/
theorem test_readByte : after (exec (.readByte 0) (on { runDev with rx := one 0x41#8, err := 0x04#8 }))
    (fun t => (t.res, nums (t.dev 0).rx, (t.dev 0).err)) = some (0x0441#16, (1, 1, 0), 0x04#8) := by decide

/-- TR9: `err = 0x45`, and bits 15:8 of the result are 0x45. -/
theorem test_readByte_empty (low : Byte) : nodataStatus 0x45#8 low = 0x4500#16 ||| low.setWidth 16
    ∧ after (exec (.readByte 0) (on { runDev with err := 0x44#8 })) (fun t => (t.dev 0).err) = some 0x45#8 := by
  refine ⟨?_, by decide⟩
  revert low
  decide

/-- TR18: a full buffer of 2^15 bytes. -/
theorem test_rxCount : after (exec (.rxCount 0)
    ((State.powerOn ⟨15, 1, by decide, by decide, .dre⟩ []).setDev 0 { runDev with rx := ⟨[], 0, 0, 32768⟩ })) State.res =
      some 0x8000#16 := by decide

/-! ## Service steps -/

/-- IS1. -/
theorem test_rxc_store : after (exec (.rxc 0) (on { runDev with hwRxp := true, hwRxd := 0x78#8, hwRxs := 0x04#8 }))
    (fun t => ((t.dev 0).rx, (t.dev 0).err, (t.dev 0).hwRxp)) = some (one 0x78#8, 0x04#8, false) := by decide

/-- IS4: stored bytes unchanged, BOVF and PE. -/
theorem test_rxc_drop :
    after (exec (.rxc 0) (on { runDev with rx := abcd, hwRxp := true, hwRxd := 0x65#8, hwRxs := 0x02#8 }))
      (fun t => ((t.dev 0).rx, (t.dev 0).err, (t.dev 0).hwRxp)) = some (abcd, 0x42#8, false) := by decide

/-- IS7. -/
theorem test_dre_write :
    after (exec (.dre 0) (on { runDev with tx := ⟨[(0, 0x48#8), (1, 0x69#8)], 2, 0, 2⟩, dreie := true }))
      (fun t => (nums (t.dev 0).tx, (t.dev 0).hwTxd, (t.dev 0).hwDre, (t.dev 0).txLog, (t.dev 0).dreie)) =
        some ((2, 1, 1), 0x48#8, false, [0x48#8], true) := by decide

/-- IS8. -/
theorem test_dre_disarm : after (exec (.dre 0) (on { runDev with dreie := true }))
    (fun t => ((t.dev 0).dreie, (t.dev 0).hwDre, (t.dev 0).txLog)) = some (false, true, []) := by decide

/-! ## Environment -/

/-- EN1. -/
theorem test_envRx : after (exec (.envRx 0 0x78 0x04) (on runDev))
    (fun t => ((t.dev 0).hwRxp, (t.dev 0).hwRxd, (t.dev 0).hwRxs)) = some (true, 0x78#8, 0x04#8) := by decide

/-- EN2. -/
theorem test_envRx_overrun : after (exec (.envRx 0 0x62 0x00) (on { runDev with hwRxp := true })) trap =
    some (5#8, 0x000000000000620D#64, 0) := by decide

/-- EN4. -/
theorem test_envTxDone : after (exec (.envTxDone 0) (on { runDev with hwDre := false }))
    (fun t => ((t.dev 0).hwDre, (t.dev 0).hwTxc)) = some (true, true) := by decide

/-- EN3: `hw_dre` is already 1, so `hw_txc` stays 0. -/
theorem test_envTxDone_empty : after (exec (.envTxDone 0) (boot [])) (fun t => ((t.dev 0).hwTxc, t.pc)) =
    some (false, 1) := by decide

/-- EN5. -/
theorem test_envGie : after (exec (.envGie true) (boot [])) State.gie = some true := by decide

/-! ## Steps -/

/-- DC9: ILLEGAL_CMD, not BAD_STATE. -/
theorem test_step_illegal : after (step (boot [0x0000000001000001#64])) trap = some (1#8, 0x0000000001000001#64, 0) := by
  decide

/-- EN8: D0's DRE step (V = 1) before D1's RXC step (V = 2). -/
theorem test_step_vector_order :
    after (step { ((on { runDev with tx := one 0x6B#8, dreie := true }).setDev 1 { runDev with hwRxp := true }) with
      gie := true }) (fun t => ((t.dev 0).txLog, (t.dev 1).hwRxp)) = some ([0x6B#8], true) := by decide

/-- EN7: an environment item is consumed while the mainline is held. -/
theorem test_step_env_while_held :
    after (step { (boot [0x000000000000001E#64]).setDev 1 { runDev with tx := abcd, hwDre := false } with
      mphase := .sendWait, mcur := 0x4512#64 }) (fun t => ((t.dev 1).hwDre, t.pc, t.mphase)) =
        some (true, 1, .sendWait) := by decide

/-- EN9, EN10. -/
theorem test_step_ends : stopOf (step (boot [])) = some .done
    ∧ stopOf (step { on { runDev with tx := abcd } with mphase := .sendWait, mcur := 0x6502#64 }) = some .stuck
    ∧ stopOf (step { boot [] with faultCode := 2#8 }) = some .faulted := by decide

/-- The next step after reset runs the instruction placed for it. -/
theorem test_withFetchWord :
    after (step (State.reset.withFetchWord 64 0x4109)) (fun t => (t.dev 0).rx) = some (one 0x41#8)
    ∧ after (step (State.reset.withFetchWord 4 5)) (fun t => (t.dev 2).dreie) = some false
    ∧ ((State.reset.withFetchWord 4 5).dev 2).dreie = true := by decide

/-! ## Assembler -/

/-- Lines of R126. -/
theorem test_assemble : assemble ["CONFIG 0, 2, 0x01, 0x01, 0x02".toList, "SENDSEQ 0, 'H', 'i'  ; two bytes".toList,
    "RBINS 0, tx, 'A'".toList, "ENVGIE 1".toList] =
      some [0x0000000201010200#64, 0x0000000069480203#64, 0x0000000000004189#64, 0x000000000000010F#64] := by decide

/-- TR19. -/
theorem test_assemble_sendStr : assemble ["SENDSTR 0, \"Hello!!\"".toList] =
    some [0x216F6C6C65480603#64, 0x0000000000210103#64] := by decide

/-! ## Witnesses: encoding -/

/-- A configuration that is built, with the parameters asked for (R10, R12). -/
theorem witness_ConfigurationIsBuiltExactlyWhenLegal :
    Config.build 32768 8 .txc = .ok ⟨15, 8, by decide, by decide, .txc⟩ := by decide

theorem witness_DecodeOfEncodeIsTheInstruction :
    wellFormed 8 (.sendSeq 7 [1, 2, 3, 4, 5, 6]) = true ∧ wellFormed 1 (.envGie true) = true
    ∧ wellFormed 1 (.rxc 0) = true := by decide

theorem witness_EncodeOfDecodeIsTheCode :
    decode 2 (.word 0x0605040302010613#64) = .ok (.sendSeq 1 [1, 2, 3, 4, 5, 6])
    ∧ decode 8 (.vector 15#4) = .ok (.dre 7) := by decide

theorem witness_AtMostOneRowSelectsAWord :
    ∃ r ∈ opTable, ∃ r' ∈ opTable, r.selects 0x5A99#64 = true ∧ r'.selects 0x5A99#64 = true := by decide

/-- Its two clauses. -/
theorem witness_WordDecodesFromItsLittleEndianBytes :
    decodeWord 2 0x0605040302010603#64 = .ok (.sendSeq 0 [1, 2, 3, 4, 5, 6])
    ∧ decodeWord 2 0x0605040302010703#64 = .error .seqLength := by decide

/-! ## Witnesses: ring buffers -/

/-- One slot free, and the write index at the last slot. -/
def almost : RingBuffer := ⟨[(0, 0x61#8), (1, 0x62#8), (2, 0x63#8)], 3, 0, 3⟩

theorem witness_InsertStoresAtHinAndAdvances :
    Memory.wf Space.storage.unlisted almost.buf = true ∧ almost.cnt < cfg2.cap := by decide

theorem witness_RemoveReadsHoutAndAdvances : 0 < (one 0x61#8).cnt := by decide

/-- Capacities 1 and 6. -/
theorem witness_MaskIsTheRemainderExactlyForPowersOfTwo :
    (∀ i < 1, ringAdvance 1 i = (i + 1) % 1) ∧ ¬ (∀ i < 6, ringAdvance 6 i = (i + 1) % 6) := by decide

theorem abcd_ok : abcd.Ok 4 :=
  ⟨by decide, by decide, by decide, by decide, by decide, by decide, by decide⟩

theorem almost_ok : almost.Ok 4 :=
  ⟨by decide, by decide, by decide, by decide, by decide, by decide, by decide⟩

theorem one_ok : (one 0x61#8).Ok 4 :=
  ⟨by decide, by decide, by decide, by decide, by decide, by decide, by decide⟩

theorem witness_RingBufferDeliversInFifoOrder :
    almost.Ok cfg2.cap ∧ RingBuffer.reset.Ok cfg2.cap ∧ RingBuffer.reset.cnt = 0
    ∧ [0x01#8, 0x02#8, 0x03#8, 0x04#8].length ≤ cfg2.cap :=
  ⟨almost_ok, ringReset_initial_ok cfg2, rfl, by decide⟩

theorem witness_CountIsInsertsMinusRemoves : abcd.Ok cfg2.cap := abcd_ok

/-! ## Witnesses: test port -/

theorem witness_RbResetResetsTheSelectedBuffer :
    ((on closedDev).dev 0).life ≠ .run ∧ ((on runDev).dev 0).life = .run ∧ (on runDev).faultCode = 0#8 := by decide

/-- Its three clauses: room for one byte, full, and RUN. -/
theorem witness_RbInsertStoresOneByte :
    (∃ s : State, Memory.wf Space.storage.unlisted (s.buffer 0 .rx).buf = true ∧ (s.dev 0).life ≠ .run
      ∧ (s.buffer 0 .rx).cnt + 1 = s.cap)
    ∧ (∃ s : State, Memory.wf Space.storage.unlisted (s.buffer 0 .tx).buf = true ∧ (s.dev 0).life ≠ .run
      ∧ (s.buffer 0 .tx).cnt = s.cap ∧ s.faultCode = 0#8)
    ∧ (∃ s : State, Memory.wf Space.storage.unlisted (s.buffer 0 .rx).buf = true ∧ (s.dev 0).life = .run
      ∧ s.faultCode = 0#8) :=
  ⟨⟨on { confDev with rx := almost }, by decide⟩, ⟨on { closedDev with tx := abcd }, by decide⟩, ⟨on runDev, by decide⟩⟩

/-- Its clauses: one byte in RX, one byte in TX, empty, and RUN. -/
theorem witness_RbRemoveEmitsTheOldestByte :
    (∃ s : State, (s.dev 0).life ≠ .run ∧ (s.dev 0).rx.cnt = 1)
    ∧ (∃ s : State, (s.dev 0).life ≠ .run ∧ (s.dev 0).tx.cnt = 1)
    ∧ (∃ s : State, (s.dev 0).life ≠ .run ∧ (s.buffer 0 .tx).cnt = 0 ∧ s.faultCode = 0#8)
    ∧ (∃ s : State, (s.dev 0).life = .run ∧ s.faultCode = 0#8) :=
  ⟨⟨on { confDev with rx := one 1#8 }, by decide⟩, ⟨on { confDev with tx := one 1#8 }, by decide⟩,
    ⟨on confDev, by decide⟩, ⟨on runDev, by decide⟩⟩

theorem witness_RbFullAndRbEmptyEmitThePredicates :
    ((on { closedDev with rx := abcd }).dev 0).life ≠ .run
    ∧ ((on runDev).dev 0).life = .run ∧ (on runDev).faultCode = 0#8 := by decide

/-! ## Witnesses: lifecycle -/

/-- The four lifecycle states of its clauses. -/
theorem witness_InitializeStartsTheDevice :
    ∀ D ∈ [Device.reset, confDev, runDev, closedDev],
      Memory.wf Space.gpio.unlisted (on D).gpioDir = true ∧ (on D).faultCode = 0#8
      ∧ (((on D).dev 0).life = .conf ∨ ((on D).dev 0).life = .closed
        ∨ ((on D).dev 0).life = .unconf ∨ ((on D).dev 0).life = .run) := by decide

theorem witness_CloseStartEntersTheDrainPhase :
    ((on runDev).dev 0).life = .run ∧ ((on closedDev).dev 0).life ≠ .run ∧ (on closedDev).faultCode = 0#8 := by decide

theorem witness_ClosePhasesWaitAndThenDisable :
    ∀ p ∈ [Phase.closeDrain, Phase.closeHw, Phase.closeSettle],
      { on runDev with mphase := p, mcur := 0x06#64 }.faultCode = 0#8
      ∧ { on runDev with mphase := p, mcur := 0x06#64 }.mphase = p := by decide

/-! ## Witnesses: transfer -/

theorem witness_SendByteStartLatchesTheCommand :
    ((on runDev).dev 0).life = .run ∧ ((on closedDev).dev 0).life ≠ .run ∧ (on closedDev).faultCode = 0#8 := by decide

/-- The last slot free. -/
def sending : State := { on { runDev with tx := almost, dreie := true } with mphase := .sendWait, mcur := 0x4102#64 }

theorem witness_SendByteCompletionStoresAndArms :
    sending.faultCode = 0#8 ∧ sending.mphase = .sendWait
    ∧ Memory.wf Space.storage.unlisted (sending.dev (devField sending.mcur)).tx.buf = true
    ∧ (sending.dev (devField sending.mcur)).tx.cnt + 1 = sending.cap := by decide

theorem witness_SendSeqStartLatchesTheCommand :
    ((on runDev).dev 0).life = .run ∧ [1#8, 2#8, 3#8, 4#8, 5#8, 6#8].length ≤ 6
    ∧ ((on closedDev).dev 0).life ≠ .run ∧ (on closedDev).faultCode = 0#8 := by decide

/-- In a sequence of two bytes, at its byte `q`. -/
def seqAt (q : BitVec 3) : State :=
  { on { runDev with tx := almost, dreie := true } with mphase := .seq, mcur := 0x69480203#64, mseq := q }

/-- Not the last byte, and the last. -/
theorem witness_SendSeqByteStepStoresAndArms :
    (∀ q ∈ [0#3, 1#3], (seqAt q).faultCode = 0#8 ∧ (seqAt q).mphase = .seq
      ∧ Memory.wf Space.storage.unlisted ((seqAt q).dev (devField (seqAt q).mcur)).tx.buf = true
      ∧ ((seqAt q).dev (devField (seqAt q).mcur)).tx.cnt < (seqAt q).cap)
    ∧ (seqAt 0#3).mseq + 1#3 ≠ field 8 3 (seqAt 0#3).mcur
    ∧ (seqAt 1#3).mseq + 1#3 = field 8 3 (seqAt 1#3).mcur := by decide

theorem witness_ReadByteReturnsTheOldestByteWithFlags :
    ∀ D ∈ [{ runDev with rx := one 0x41#8 }, { closedDev with rx := one 0x41#8 }],
      (((on D).dev 0).life = .run ∨ ((on D).dev 0).life = .closed) ∧ 0 < ((on D).dev 0).rx.cnt := by decide

theorem witness_EmptyReadSetsAndReportsNoData :
    ∀ D ∈ [runDev, closedDev],
      (((on D).dev 0).life = .run ∨ ((on D).dev 0).life = .closed) ∧ ((on D).dev 0).rx.cnt = 0 := by decide

/-- Its two clauses, the first at the greatest count. -/
theorem witness_RxCountEmitsTheCount :
    (∃ s : State, (s.dev 0).life = .run ∧ (s.dev 0).rx.cnt = 32768 ∧ (s.dev 0).rx.cnt ≤ s.cap)
    ∧ (∃ s : State, (s.dev 0).life = .unconf ∧ s.faultCode = 0#8) ∧ ∃ s : State, (s.dev 0).life = .conf ∧ s.faultCode = 0#8 :=
  ⟨⟨(State.powerOn ⟨15, 1, by decide, by decide, .dre⟩ []).setDev 0 { runDev with rx := ⟨[], 0, 0, 32768⟩ }, by decide⟩,
    ⟨boot [], by decide⟩, ⟨on confDev, by decide⟩⟩

/-! ## Witnesses: states with the invariant -/

theorem boot_inv (S : List Word) : Inv (boot S) where
  devices d := by rw [boot, dev_powerOn]; exact Device.reset_ok cfg2
  absent d _ := dev_powerOn cfg2 S d
  mainline := .of_idle rfl rfl rfl
  closing := .of_idle rfl
  gpio := rfl
  gpioPorts := by simp [boot, State.powerOn]
  faultCode := Nat.zero_le 5
  faultWord _ := rfl
  res := rfl
  pc := Nat.zero_le _

theorem runDev_ok : runDev.Ok 4 := (Device.reset_ok cfg2).started (c := cfg2) 0#16

/-- Device 0 running with the two buffers, `dreie` armed. -/
def runWith (rx tx : RingBuffer) : Device := { runDev with rx := rx, tx := tx, dreie := true }

theorem runWith_ok (rx tx : RingBuffer) (hrx : rx.Ok 4) (htx : tx.Ok 4) : (runWith rx tx).Ok 4 :=
  ⟨hrx, htx, show 0x00#8 &&& 0xB8#8 = 0#8 by decide, rfl, rfl, rfl, fun _ => rfl, fun _ _ => rfl, rfl,
    fun h => Bool.noConfusion h, rfl⟩

/-- A machine with that device, interrupts on, and a script. -/
def ready (S : List Word) (rx tx : RingBuffer) : State := { (boot S).setDev 0 (runWith rx tx) with gie := true }

theorem ready_inv (S : List Word) (rx tx : RingBuffer) (hrx : rx.Ok 4) (htx : tx.Ok 4) : Inv (ready S rx tx) :=
  ((boot_inv S).setDevIdle rfl 0 _ (Nat.zero_lt_succ 1) (runWith_ok rx tx hrx htx)).gie true

theorem witness_StatusWordHasItsLayout :
    (∃ s t : State, Inv s ∧ (s.dev 0).life = .run ∧ exec (.readByte 0) s = .next t ∧ 0 < (s.dev 0).rx.cnt)
    ∧ ∃ s t : State, Inv s ∧ (s.dev 0).life = .run ∧ exec (.readByte 0) s = .next t ∧ (s.dev 0).rx.cnt = 0 :=
  ⟨⟨ready [] (one 0x61#8) abcd, _, ready_inv _ _ _ one_ok abcd_ok, rfl, rfl, by decide⟩,
    ⟨ready [] RingBuffer.reset abcd, _, ready_inv _ _ _ (ringReset_initial_ok cfg2) abcd_ok, rfl, rfl, rfl⟩⟩

/-! ## Witnesses: service steps -/

/-- Room for one byte, and full. -/
theorem witness_RxcStoresOrDropsTheReceivedByte :
    (∃ s : State, Memory.wf Space.storage.unlisted (s.dev 0).rx.buf = true ∧ (s.dev 0).rx.cnt + 1 = s.cap)
    ∧ ∃ s : State, Memory.wf Space.storage.unlisted (s.dev 0).rx.buf = true ∧ s.cap = (s.dev 0).rx.cnt :=
  ⟨⟨on { runDev with rx := almost }, by decide⟩, ⟨on { runDev with rx := abcd }, by decide⟩⟩

theorem witness_DreTransmitsOrDisarms :
    0 < ((on { runDev with tx := one 1#8 }).dev 0).tx.cnt ∧ ((on runDev).dev 0).tx.cnt = 0 := by decide

/-- Two states that agree on device 0 and the capacity alone. -/
theorem witness_ServiceStepTouchesOnlyItsDevice :
    ∃ s s' t t' : State, exec (serviceInstr 0 .dre) s = .next t ∧ s'.cap = s.cap ∧ s'.dev 0 = s.dev 0
      ∧ exec (serviceInstr 0 .dre) s' = .next t' ∧ s'.gie ≠ s.gie :=
  ⟨ready [] abcd abcd, { ready [] abcd abcd with gie := false }, _, _, rfl, rfl, rfl, rfl, by decide⟩

/-- The two sources of one device, and one source of each of two devices. -/
theorem witness_ServiceStepsCommute :
    (∃ s : State, enabled (serviceChoice 0 .rxc) s = true ∧ enabled (serviceChoice 0 .dre) s = true)
    ∧ ∃ s : State, enabled (serviceChoice 0 .rxc) s = true ∧ enabled (serviceChoice 1 .rxc) s = true :=
  ⟨⟨{ on { runWith almost abcd with hwRxp := true } with gie := true }, by decide⟩,
    ⟨{ (on { runDev with hwRxp := true }).setDev 1 { runDev with hwRxp := true } with gie := true }, by decide⟩⟩

theorem witness_ServiceStepsAreEnabledByTheirConditions : (1 : Dev).val < (on runDev).cfg.ndev := by decide

/-! ## Witnesses: environment and faults -/

theorem witness_EnvRxLoadsIgnoresOrOverruns :
    ((on confDev).dev 0).rxen = false
    ∧ (((on runDev).dev 0).rxen = true ∧ ((on runDev).dev 0).hwRxp = false)
    ∧ (((on { runDev with hwRxp := true }).dev 0).rxen = true ∧ ((on { runDev with hwRxp := true }).dev 0).hwRxp = true
      ∧ (on { runDev with hwRxp := true }).faultCode = 0#8) := by decide

theorem witness_EnvTxDoneAndEnvGieWriteTheirFlags :
    ((on { runDev with hwDre := false }).dev 0).hwDre = false ∧ ((on runDev).dev 0).hwDre = true := by decide

/-- An event that loads, and one that overruns. -/
theorem witness_OpenEventIsTheItemWithoutTheCursor :
    after (take (.event (.rx 0 1 0)) (on runDev)) State.faultCode = some 0#8
    ∧ (on { runDev with hwRxp := true }).faultCode = 0#8
    ∧ after (take (.event (.rx 0 1 0)) (on { runDev with hwRxp := true })) State.faultCode = some 5#8 := by decide

/-- A command refused, one allowed, and the command without a device. -/
theorem witness_BadStateIsRaisedExactlyByTheLegalityTable :
    (on closedDev).faultCode = 0#8
    ∧ (encode (.sendByte 0 0x41) = .word 0x4102#64 ∧ (Instr.sendByte 0 0x41).dev? = some 0
      ∧ legalIn (.sendByte 0 0x41) ((on closedDev).dev 0).life = false)
    ∧ (encode (.readByte 0) = .word 0x04#64 ∧ (Instr.readByte 0).dev? = some 0
      ∧ legalIn (.readByte 0) ((on closedDev).dev 0).life = true)
    ∧ (encode (.envGie true) = .word 0x10F#64 ∧ (Instr.envGie true).dev? = none) := by decide

/-- ILLEGAL_CMD, BAD_STATE (DC10), and RB_INSERT_FULL. -/
theorem witness_FaultsOfOneWordHaveTheirPriority :
    (on runDev).faultCode = 0#8 ∧ decodeWord (on runDev).cfg.ndev 0x1000001#64 = .error .reservedBits
    ∧ (decodeWord (on { runDev with rx := abcd }).cfg.ndev 0x4609#64 = .ok (.rbInsert 0 .rx 0x46)
      ∧ legalIn (.rbInsert 0 .rx 0x46) ((on { runDev with rx := abcd }).dev 0).life = false)
    ∧ after (consumeWord 0x4609#64 (on { confDev with rx := abcd })) State.faultCode = some 3#8 := by decide

theorem witness_FaultsArePreciseAndFinal :
    (boot [7#64]).faultCode = 0#8 ∧ after (step (boot [7#64])) State.faultCode = some 1#8
    ∧ { boot [] with faultCode := 2#8 }.faultCode ≠ 0#8 := by decide

/-! ## Witnesses: steps -/

/-- The scheduled item, the item of an empty schedule, an environment item while the mainline is held, and a word that
does not decode. -/
theorem witness_StepRunsTheDecodedItem :
    (∃ s : State, s.faultCode = 0#8 ∧ s.script[s.pc]? = some 0x4109#64 ∧ s.mphase = .idle ∧ s.sched = [.item, .mainline]
      ∧ decodeWord s.cfg.ndev 0x4109#64 = .ok (.rbInsert 0 .rx 0x41))
    ∧ (∃ s : State, s.faultCode = 0#8 ∧ s.script[s.pc]? = some 0x1E#64 ∧ isEnvWord 0x1E#64 = true ∧ s.mphase = .sendWait
      ∧ s.sched = [] ∧ enabled .mainline s = false ∧ (∀ d, enabled (.rxc d) s = false ∧ enabled (.dre d) s = false)
      ∧ decodeWord s.cfg.ndev 0x1E#64 = .ok (.envTxDone 1))
    ∧ (∃ s : State, s.faultCode = 0#8 ∧ s.script[s.pc]? = some 7#64 ∧ s.mphase = .idle ∧ s.sched = []
      ∧ enabled .mainline s = false ∧ (∀ d, enabled (.rxc d) s = false ∧ enabled (.dre d) s = false)
      ∧ decodeWord s.cfg.ndev 7#64 = .error .reservedOp) :=
  ⟨⟨{ boot [0x4109#64] with sched := [.item, .mainline] }, by decide⟩,
    ⟨{ (boot [0x1E#64]).setDev 1 { runDev with tx := abcd, hwDre := false } with mphase := .sendWait, mcur := 0x4512#64 },
      by decide⟩,
    ⟨boot [7#64], by decide⟩⟩

theorem witness_EveryStepIsOneEnabledStep :
    (∃ s t : State, step s = .next t) ∧ ∃ s : State, ∃ c ∈ testOrder, enabled c s = true :=
  ⟨⟨boot [0x10F#64], _, rfl⟩, ⟨boot [0x10F#64], .item, by decide, by decide⟩⟩

/-- Two steps enabled in one state: each may be named. -/
theorem witness_EveryEnabledStepCanBeTakenNext :
    enabled (.dre 0) (ready [0x04#64] abcd abcd) = true ∧ enabled .item (ready [0x04#64] abcd abcd) = true := by decide

/-- Its clauses: a fault, the lowest vector id, the mainline, an item, and the two ends. -/
theorem witness_TestSchedulerTakesItsFixedOrder :
    (∃ s : State, s.sched = [] ∧ s.faultCode ≠ 0#8)
    ∧ (∃ s : State, s.sched = [] ∧ enabled (serviceChoice 1 .rxc) s = true
      ∧ enabled (serviceChoice 0 .rxc) s = false ∧ enabled (serviceChoice 0 .dre) s = false
      ∧ enabled (serviceChoice 1 .dre) s = true)
    ∧ (∃ s : State, s.sched = [] ∧ NoService s ∧ enabled .mainline s = true ∧ enabled .item s = true)
    ∧ (∃ s : State, s.sched = [] ∧ NoService s ∧ enabled .mainline s = false ∧ enabled .item s = true)
    ∧ (∃ s : State, s.sched = [] ∧ NoService s ∧ enabled .mainline s = false ∧ enabled .item s = false
      ∧ s.faultCode = 0#8 ∧ s.pc = s.script.length ∧ s.mphase = .idle)
    ∧ (∃ s : State, s.sched = [] ∧ NoService s ∧ enabled .mainline s = false ∧ enabled .item s = false
      ∧ s.faultCode = 0#8 ∧ s.mphase ≠ .idle) :=
  ⟨⟨{ boot [] with faultCode := 1#8 }, by decide⟩,
    ⟨{ (boot []).setDev 1 { runWith abcd abcd with hwRxp := true } with gie := true }, by decide⟩,
    ⟨{ boot [0x10F#64] with mphase := .closeSettle, mcur := 0x06#64 }, rfl, by unfold NoService; decide, by decide⟩,
    ⟨boot [0x10F#64], rfl, by unfold NoService; decide, by decide⟩,
    ⟨boot [], rfl, by unfold NoService; decide, by decide⟩,
    ⟨{ on { runDev with tx := abcd } with mphase := .sendWait, mcur := 0x6502#64 }, rfl, by unfold NoService; decide,
      by decide⟩⟩

/-- The three ends. -/
theorem witness_EndOfRunIsNamedRight :
    (∃ s : State, s.sched = [] ∧ IsFaulted s) ∧ (∃ s : State, s.sched = [] ∧ IsDone s)
    ∧ ∃ s : State, s.sched = [] ∧ IsStuck s :=
  ⟨⟨{ boot [] with faultCode := 1#8 }, rfl, by unfold IsFaulted; decide⟩,
    ⟨boot [], rfl, by unfold IsDone NoService; decide⟩,
    ⟨{ on { runDev with tx := abcd } with mphase := .sendWait, mcur := 0x6502#64 }, rfl,
      by unfold IsStuck IsDone NoService; decide⟩⟩

theorem witness_StepWritesOneDeviceAtMost :
    ∃ s t : State, take .item s = .next t ∧ (1 : Dev) ≠ choiceDev s .item :=
  ⟨boot [0x4109#64], _, rfl, by decide⟩

/-- An item that writes `gie`. -/
theorem witness_StepKeepsParametersScriptAndOrder :
    ∃ s t : State, take .item s = .next t ∧ t.pc = s.pc + 1 ∧ t.gie ≠ s.gie :=
  ⟨boot [0x10F#64], _, rfl, rfl, by decide⟩

/-! ## Witnesses: invariants over every run -/

theorem witness_EveryStepKeepsTheInvariant :
    ∃ s t : State, Inv s ∧ step s = .next t ∧ (t.dev 0).txLog ≠ (s.dev 0).txLog :=
  ⟨ready [] abcd abcd, _, ready_inv _ _ _ abcd_ok abcd_ok, rfl, by decide⟩

/-- The state some steps later, or the last one. -/
def later : Nat → State → State
  | 0, s => s
  | n + 1, s =>
    match step s with
    | .next t => later n t
    | .fault _ => s
    | .refused _ => s

theorem reachable_later (n : Nat) (s : State) (h : Reachable s) : Reachable (later n s) := by
  induction n generalizing s with
  | zero => exact h
  | succ n ih =>
    rw [later]
    split
    · next t ht => exact ih t (.next s t h ht)
    · exact h
    · exact h

/-- CONFIG, INIT and one more word. -/
def begun (W : Word) : State := boot [0x0000000201010200#64, 0x0000000000015B01#64, W]

theorem begun_reachable (W : Word) : Reachable (begun W) := .start cfg2 _ []

/-- After `SEND 0, 'a'` with interrupts off. -/
theorem sent_reachable : Reachable (later 4 (begun 0x6102#64)) := reachable_later _ _ (begun_reachable _)

theorem witness_RingInvariantsHoldInEveryReachableState :
    ∃ s : State, Reachable s ∧ 0 < (s.buffer 0 .tx).cnt :=
  ⟨_, sent_reachable, by decide⟩

theorem witness_PendingTransmitIsArmedInEveryReachableState :
    ∃ s : State, Reachable s ∧ s.faultCode = 0#8 ∧ (s.dev 0).life = .run ∧ 0 < (s.dev 0).tx.cnt :=
  ⟨_, sent_reachable, by decide⟩

/-- CLOSE before its last step, and that step. -/
theorem witness_CloseReturnsOnlyAfterTheDrain :
    ∃ s t : State, Reachable s ∧ s.mphase = .closeSettle ∧ step s = .next t ∧ (s.dev 0).life ≠ .closed
      ∧ (t.dev 0).life = .closed :=
  ⟨later 5 (begun 0x06#64), _, reachable_later _ _ (begun_reachable _), by decide, rfl, by decide, by decide⟩

/-- A step that sends nothing, a SEND_BYTE step and a SEND_SEQ step. -/
theorem witness_TransmitStreamOnlyGrowsBySentBytes :
    (∃ s t : State, Inv s ∧ step s = .next t ∧ (s.dev 0).life = .run ∧ s.mphase = .idle)
    ∧ (∃ s t : State, Inv s ∧ step s = .next t ∧ (s.dev 0).life = .run ∧ s.mphase = .sendWait ∧ (t.dev 0).tx.cnt = 4)
    ∧ (∃ s t : State, Inv s ∧ step s = .next t ∧ (s.dev 0).life = .run ∧ s.mphase = .seq ∧ (t.dev 0).tx.cnt = 4) :=
  ⟨⟨ready [] abcd abcd, _, ready_inv _ _ _ abcd_ok abcd_ok, rfl, rfl, rfl⟩,
    ⟨{ ready [] abcd almost with mcur := encSendByte 0 0x41, mphase := .sendWait, sched := [.mainline] }, _,
      ((ready_inv [] abcd almost abcd_ok almost_ok).startMain 0 (encSendByte 0 0x41) .sendWait 0#3 (by decide) rfl
        (by decide) (by decide) rfl (fun _ => ⟨0, 0x41, rfl⟩) (fun h => Phase.noConfusion h) (fun h => Phase.noConfusion h) (by decide)
        (by decide)).sched _,
      rfl, rfl, rfl, by decide⟩,
    ⟨{ ready [] abcd almost with mcur := encSendSeq 0 [0x48, 0x69], mphase := .seq, sched := [.mainline] }, _,
      ((ready_inv [] abcd almost abcd_ok almost_ok).startMain 0 (encSendSeq 0 [0x48, 0x69]) .seq 0#3 (by decide) rfl
        (by decide) (by decide) rfl (fun h => Phase.noConfusion h) (fun _ => ⟨0, [0x48, 0x69], rfl, by decide, by decide⟩)
        (fun h => Phase.noConfusion h) (by decide) (by decide)).sched _,
      rfl, rfl, rfl, by decide⟩⟩

/-- RX full with a byte dropped (`err = 0x40`). -/
def dropped (S : List Word) (sched : List Choice) : State :=
  { (boot S).setDev 0 { runWith abcd abcd with err := 0x40#8 } with gie := true, sched := sched }

theorem dropped_inv (S : List Word) (sched : List Choice) : Inv (dropped S sched) :=
  (((boot_inv S).setDevIdle rfl 0 _ (Nat.zero_lt_succ 1) ((runWith_ok abcd abcd abcd_ok abcd_ok).withErr 0x40#8 rfl)).gie
    true).sched sched

/-- A step that is no read, and the read. -/
theorem witness_OverflowIsReportedByTheNextRead :
    (∃ s t : State, Inv s ∧ OverflowPending s 0 ∧ (s.dev 0).life = .run ∧ step s = .next t ∧ t.outLog = s.outLog)
    ∧ ∃ s t : State, Inv s ∧ OverflowPending s 0 ∧ (s.dev 0).life = .run ∧ step s = .next t ∧ t.outLog ≠ s.outLog :=
  ⟨⟨dropped [] [], _, dropped_inv _ _, ⟨by decide, by decide⟩, rfl, rfl, rfl⟩,
    ⟨dropped [0x04#64] [.item], _, dropped_inv _ _, ⟨by decide, by decide⟩, rfl, rfl, by decide⟩⟩

/-! ## Witnesses: fair runs -/

/-- The event that sets `gie` where it is set already: no step. -/
def idleEvent : Choice := .event (.gie true)

/-- A byte is pending, is serviced, and then nothing happens. -/
def receiveRun : Run where
  state n := match n with
    | 0 => { on { runDev with hwRxp := true, hwRxd := 0x78#8 } with gie := true }
    | _ + 1 => { on { runDev with rx := one 0x78#8, hwRxd := 0x78#8 } with gie := true }
  choice n := match n with
    | 0 => .rxc 0
    | _ + 1 => idleEvent

theorem receiveRun_valid : receiveRun.Valid := by
  intro n
  match n with
  | 0 => exact ⟨by decide, rfl⟩
  | n + 1 => exact ⟨show enabled (receiveRun.choice 1) (receiveRun.state 1) = true by decide, rfl⟩

/-- A fair choice that a quiet state does not enable. -/
theorem fairly_disabled (s : State) (hm : enabled .mainline s = false) (hs : NoService s) (c : Choice) (hc : Fairly c) :
    enabled c s = false := by
  cases c with
  | item => cases hc
  | mainline => exact hm
  | rxc d => exact (hs d).1
  | dre d => exact (hs d).2
  | event e => cases hc

/-- A run whose states from some point on enable no fair choice is fair. -/
theorem fair_of_quiet (r : Run) (k : Nat)
    (h : ∀ n, k ≤ n → enabled .mainline (r.state n) = false ∧ NoService (r.state n)) : r.WeaklyFair := by
  intro c hc n hen
  have h1 := h (max n k) (le_max_right _ _)
  have h2 := hen (max n k) (le_max_left _ _)
  rw [fairly_disabled _ h1.1 h1.2 c hc] at h2
  cases h2

theorem receiveRun_fair : receiveRun.WeaklyFair := by
  refine fair_of_quiet _ 1 fun n hn => ?_
  match n, hn with
  | n + 1, _ => exact ⟨by show enabled .mainline (receiveRun.state 1) = false; decide,
      by show NoService (receiveRun.state 1); unfold NoService; decide⟩

theorem witness_PendingByteIsEventuallyServiced :
    receiveRun.Valid ∧ receiveRun.WeaklyFair ∧ (0 : Dev).val < (receiveRun.state 0).cfg.ndev
    ∧ (∀ m, 0 ≤ m → (receiveRun.state m).gie = true ∧ ((receiveRun.state m).dev 0).rxcie = true
      ∧ ((receiveRun.state m).dev 0).rxen = true)
    ∧ ((receiveRun.state 0).dev 0).hwRxp = true := by
  refine ⟨receiveRun_valid, receiveRun_fair, by decide, fun m _ => ?_, rfl⟩
  match m with
  | 0 => exact ⟨rfl, rfl, rfl⟩
  | m + 1 => exact ⟨rfl, rfl, rfl⟩

/-- Device 0 after its one byte was written. -/
def written : Device := { runDev with
  tx := ⟨[(0, 0x61#8)], 1, 1, 0⟩, dreie := true, hwTxd := 0x61#8, hwDre := false, txLog := [0x61#8] }

/-- A byte is in TX, is written, the data register empties, the source disarms, and then nothing happens. -/
def transmitRun : Run where
  state n := match n with
    | 0 => ready [] RingBuffer.reset (one 0x61#8)
    | 1 => { on written with gie := true }
    | 2 => { on { written with hwDre := true, hwTxc := true } with gie := true }
    | _ + 3 => { on { written with hwDre := true, hwTxc := true, dreie := false } with gie := true }
  choice n := match n with
    | 0 => .dre 0
    | 1 => .event (.txDone 0)
    | 2 => .dre 0
    | _ + 3 => idleEvent

theorem transmitRun_valid : transmitRun.Valid := by
  intro n
  match n with
  | 0 => exact ⟨by decide, rfl⟩
  | 1 => exact ⟨by decide, rfl⟩
  | 2 => exact ⟨by decide, rfl⟩
  | n + 3 => exact ⟨show enabled (transmitRun.choice 3) (transmitRun.state 3) = true by decide, rfl⟩

theorem transmitRun_fair : transmitRun.WeaklyFair := by
  refine fair_of_quiet _ 3 fun n hn => ?_
  match n, hn with
  | n + 3, _ => exact ⟨by show enabled .mainline (transmitRun.state 3) = false; decide,
      by show NoService (transmitRun.state 3); unfold NoService; decide⟩

theorem witness_QueuedByteIsEventuallyWritten :
    transmitRun.Valid ∧ transmitRun.WeaklyFair ∧ Inv (transmitRun.state 0)
    ∧ (0 : Dev).val < (transmitRun.state 0).cfg.ndev
    ∧ (∀ m, 0 ≤ m → (transmitRun.state m).gie = true ∧ ((transmitRun.state m).dev 0).life = .run)
    ∧ (∀ k, 0 ≤ k → ∃ m, k ≤ m ∧ ((transmitRun.state m).dev 0).hwDre = true)
    ∧ 0 < ((transmitRun.state 0).dev 0).tx.cnt := by
  refine ⟨transmitRun_valid, transmitRun_fair, ready_inv _ _ _ (ringReset_initial_ok cfg2) one_ok, by decide,
    fun m _ => ?_, fun k _ => ⟨k + 3, by omega, rfl⟩, by decide⟩
  match m with
  | 0 => exact ⟨rfl, rfl⟩
  | 1 => exact ⟨rfl, rfl⟩
  | 2 => exact ⟨rfl, rfl⟩
  | m + 3 => exact ⟨rfl, rfl⟩

end Sys2Proof.Tests
end

section
/-! PROOFS. What `Config.build` accepts, and what it builds (00_scope.md R10, R12). -/

namespace Sys2Proof.Machine

/-- The search of `Config.build` finds the logarithm of the capacity: powers of two are injective, so it does not
matter that the search stops at the first hit. -/
theorem find?_two_pow_eq_some_iff (cap : Nat) (k : Fin 16) :
    (List.finRange 16).find? (fun j => 2 ^ j.val == cap) = some k ↔ 2 ^ k.val = cap := by
  constructor
  · intro h
    simpa using List.find?_some h
  · rintro rfl
    cases hfind : (List.finRange 16).find? (fun j => 2 ^ j.val == 2 ^ k.val) with
    | none => simpa using List.find?_eq_none.mp hfind k (List.mem_finRange k)
    | some j =>
      have hpow : 2 ^ j.val = 2 ^ k.val := by simpa using List.find?_some hfind
      rw [Fin.ext (Nat.pow_right_injective (le_refl 2) hpow)]

/-- What is built has the parameters asked for, and each configuration is built from its own parameters. -/
theorem build_eq_ok_iff (cap ndev : Nat) (w : CloseWait) (c : Config) :
    Config.build cap ndev w = .ok c ↔ c.cap = cap ∧ c.ndev = ndev ∧ c.closeWait = w := by
  constructor
  · intro h
    unfold Config.build at h
    split at h
    · cases h
    · next k hfind =>
      split at h
      · cases h
        exact ⟨(find?_two_pow_eq_some_iff cap k).mp hfind, rfl, rfl⟩
      · cases h
  · rintro ⟨rfl, rfl, rfl⟩
    have hfind := (find?_two_pow_eq_some_iff c.cap c.k).mpr rfl
    simp [Config.build, hfind, c.ndev_pos, c.ndev_le]

/-- The values the parameters of a configuration can have (R10, R12): `c.cap` and `c.ndev` stay within the bounds, and
every choice within the bounds is some configuration's. -/
theorem exists_config_iff (cap ndev : Nat) (w : CloseWait) :
    (∃ c : Config, c.cap = cap ∧ c.ndev = ndev ∧ c.closeWait = w) ↔
      (∃ k ≤ 15, cap = 2 ^ k) ∧ 1 ≤ ndev ∧ ndev ≤ 8 := by
  constructor
  · rintro ⟨c, rfl, rfl, -⟩
    exact ⟨⟨c.k.val, Nat.le_of_lt_succ c.k.isLt, rfl⟩, c.ndev_pos, c.ndev_le⟩
  · rintro ⟨⟨k, hk, rfl⟩, hpos, hle⟩
    exact ⟨⟨⟨k, Nat.lt_succ_of_le hk⟩, ndev, hpos, hle, w⟩, rfl, rfl, rfl⟩

/-- Settles O7: a build answers the configuration with the parameters asked for (`build_eq_ok_iff`), so it answers one
exactly when some configuration has them. -/
theorem configurationIsBuiltExactlyWhenLegal : Obligations.ConfigurationIsBuiltExactlyWhenLegal := by
  intro cap ndev w
  constructor
  · simp only [build_eq_ok_iff]
    exact exists_config_iff cap ndev w
  · intro c
    exact (build_eq_ok_iff cap ndev w c).mp

end Sys2Proof.Machine
end

section
/-! PROOFS. The invariant at power-on, over a step and in every reachable state (10_state.md R39), and what a step
leaves of the devices that are not its own (R45). -/

namespace Sys2Proof.Machine

/-! ## The invariant at power-on -/

/-- Settles O51: every device is at reset, the mainline is idle, and nothing is logged. -/
theorem powerOnSatisfiesTheInvariant : Obligations.PowerOnSatisfiesTheInvariant := by
  intro c S
  exact
    { devices := fun d => by rw [dev_powerOn]; exact Device.reset_ok c
      absent := fun d _ => dev_powerOn c S d
      mainline := .of_idle rfl rfl rfl
      closing := .of_idle rfl
      gpio := rfl
      gpioPorts := fun _ hc => absurd hc List.not_mem_nil
      faultCode := Nat.zero_le 5
      faultWord := fun _ => rfl
      res := rfl
      pc := Nat.zero_le _ }

/-! ## The invariant over a step -/

/-- An item is ready exactly where the cursor stands on a word that may be consumed in the current phase (R321). -/
theorem itemReady_iff (s : State) :
    itemReady s = true ↔ ∃ W, nextItem s = some W ∧ (isEnvWord W = true ∨ s.mphase = .idle) := by
  unfold itemReady
  cases nextItem s <;> simp

theorem consumeItem_of_nextItem {s : State} {W : Word} (hW : nextItem s = some W) :
    consumeItem s = consumeWord W s := by
  simp [consumeItem, hW]

/-- Consuming a word is the meaning of the instruction it decodes to, or ILLEGAL_CMD (R321). -/
theorem consumeWord_next {W : Word} {s t : State} (h : consumeWord W s = .next t) :
    (∃ i, decodeWord s.cfg.ndev W = .ok i ∧ exec i s = .next t) ∨ t = raiseFault .illegalCmd W s := by
  unfold consumeWord at h
  split at h
  · next i hi => exact .inl ⟨i, hi, h⟩
  · cases h
    exact .inr rfl

/-- Consuming a ready item keeps the invariant: what it decodes to exists on this machine, and outside the idle phase it
is an environment item. -/
theorem Inv.consumeItem {s t : State} (h : Inv s) (hready : itemReady s = true) (ht : consumeItem s = .next t) :
    Inv t := by
  obtain ⟨W, hW, hphase⟩ := (itemReady_iff s).1 hready
  obtain ⟨hpc, -⟩ := List.getElem?_eq_some_iff.1 hW
  rw [consumeItem_of_nextItem hW] at ht
  rcases consumeWord_next ht with ⟨i, hi, hexec⟩ | rfl
  · obtain ⟨hwf, henv⟩ := wf_of_decode hi
    exact h.exec i hwf hpc (hphase.symm.imp_right henv) hexec
  · exact h.raise _ _

/-- Every enabled step of every agent keeps the invariant. -/
theorem Inv.take {s t : State} {c : Choice} (h : Inv s) (hc : enabled c s = true) (ht : take c s = .next t) :
    Inv t := by
  simp only [enabled, Bool.and_eq_true] at hc
  obtain ⟨-, hc⟩ := hc
  cases c with
  | item => exact h.consumeItem hc ht
  | mainline => cases ht; exact h.mainlineStep hc
  | rxc d =>
    simp only [Bool.and_eq_true, decide_eq_true_eq] at hc
    exact h.exec_rxc d hc.1 ht
  | dre d =>
    simp only [Bool.and_eq_true, decide_eq_true_eq] at hc
    exact h.exec_dre d hc.1 ht
  | event e => cases ht; exact h.openEvent e hc

/-- Settles O52: a step is one enabled step of one agent, and each of those keeps the invariant (`Inv.take`). -/
theorem everyStepKeepsTheInvariant : Obligations.EveryStepKeepsTheInvariant := by
  intro s t h ht
  rcases step_cases ht with ⟨c, rest, hc, htake⟩ | ⟨hstop, -⟩
  · exact (h.sched rest).take ((enabled_sched c s rest).trans hc) htake.symm
  · cases hstop

/-! ## The invariant in every reachable state -/

/-- The invariant holds of every reachable state. -/
theorem Reachable.inv {s : State} (h : Reachable s) : Inv s := by
  induction h with
  | start c S sched => exact (powerOnSatisfiesTheInvariant c S).sched sched
  | next s t _ hstep ih => exact everyStepKeepsTheInvariant s t ih hstep

/-- Every byte of the queue a good buffer stands for was written to the slot it is read from (R39 (c)). -/
theorem RingBuffer.Ok.getElem?_ringContents {cap : Nat} {B : RingBuffer} (h : B.Ok cap) (fill : Nat → Byte) {j : Nat}
    (hj : j < B.cnt) :
    (ringContents cap fill B)[j]? = memLookup Space.storage.unlisted B.buf ((B.hout + j) % cap) := by
  obtain ⟨b, hb⟩ := Option.isSome_iff_exists.1 (h.live j hj)
  simp [ringContents, hj, ringRead, hb]

/-- Settles O53: the three clauses are part of what the invariant says of each buffer. -/
theorem ringInvariantsHoldInEveryReachableState : Obligations.RingInvariantsHoldInEveryReachableState := by
  intro s d sel hs
  have hB := hs.inv.bufferOk d sel
  exact ⟨hB.cnt_le, hB.hin_eq, fun j hj => hB.getElem?_ringContents _ hj⟩

/-! ## Service steps -/

/-- The record a service step leaves its device with, from the record it finds (R281, R291, R292). -/
def serviceRecord (cap : Nat) (d : Dev) (D : Device) : Kind → Device
  | .rxc => serviced cap D
  | .dre => drained cap (ringHead (powerOnFill d .tx) D.tx) D

/-- A service step writes the record of its device, as a function of the capacity and that record, and nothing else. -/
theorem exec_serviceInstr (d : Dev) (k : Kind) (s : State) :
    exec (serviceInstr d k) s = .next (s.setDev d (serviceRecord s.cap d (s.dev d) k)) := by
  cases k with
  | rxc => exact execRxc_eq d s
  | dre => exact execDre_eq d s

theorem exec_serviceInstr_dev_ne {d e : Dev} {k : Kind} {s t : State} (ht : exec (serviceInstr d k) s = .next t)
    (h : d ≠ e) : t.dev e = s.dev e := by
  rw [exec_serviceInstr] at ht
  cases ht
  exact dev_setDev_ne _ _ _ _ h

/-- Settles O32: a service step is one write of its device's record (`exec_serviceInstr`). -/
theorem serviceStepTouchesOnlyItsDevice : Obligations.ServiceStepTouchesOnlyItsDevice := by
  intro d k s t ht
  refine ⟨?_, fun e he => exec_serviceInstr_dev_ne ht he.symm, ?_⟩
  · rw [exec_serviceInstr] at ht
    cases ht
    rfl
  · intro s' t' hcap hdev ht'
    rw [exec_serviceInstr] at ht ht'
    cases ht
    cases ht'
    rw [dev_setDev_same, dev_setDev_same, hcap, hdev]

/-! ## What a step leaves of the other devices -/

theorem dev_setBuffer_ne (s : State) {d e : Dev} (sel : Sel) (B : RingBuffer) (h : d ≠ e) :
    (s.setBuffer d sel B).dev e = s.dev e := by
  cases sel <;> exact dev_setDev_ne _ _ _ _ h

/-- A command that keeps a device's record where it is legal keeps it where it is BAD_STATE too. -/
theorem whenLegal_dev {ok : Life → Bool} {d : Dev} {W : Word} {s t : State} {r : Result} {e : Dev}
    (ht : whenLegal ok d W s r = .next t) (h : r = .next t → t.dev e = s.dev e) : t.dev e = s.dev e := by
  rcases whenLegal_next _ _ _ _ _ _ ht with ⟨-, hr⟩ | ⟨-, rfl⟩
  · exact h hr
  · exact raiseFault_dev _ _ _ _

theorem eventRx_dev_ne {d e : Dev} {data status : Byte} {s t : State} (h : eventRx d data status s = some t)
    (hd : d ≠ e) : t.dev e = s.dev e := by
  obtain ⟨x, -, rfl⟩ := eventRx_some _ _ _ _ _ h
  exact dev_setDev_ne _ _ _ _ hd

theorem queueByte_dev_ne {d e : Dev} (b : Byte) (s : State) (hd : d ≠ e) : (queueByte d b s).dev e = s.dev e := by
  rw [queueByte_eq]
  exact dev_setDev_ne _ _ _ _ hd

/-- An instruction leaves the record of every device but its operand's. -/
theorem exec_dev_ne {i : Instr} {s t : State} {e : Dev} (he : ∀ d, i.dev? = some d → d ≠ e)
    (ht : exec i s = .next t) : t.dev e = s.dev e := by
  cases i with
  | configure d port route txmask rxmask => cases ht; exact dev_setDev_ne _ _ _ _ (he d rfl)
  | init d baud =>
    refine whenLegal_dev ht fun hr => ?_
    cases hr
    rw [startDevice_eq]
    exact dev_setDev_ne _ _ _ _ (he d rfl)
  | sendByte d b => exact whenLegal_dev ht fun hr => by cases hr; rfl
  | sendSeq d bytes =>
    refine whenLegal_dev ht fun hr => ?_
    split at hr <;> cases hr <;> rfl
  | readByte d =>
    refine whenLegal_dev ht fun hr => ?_
    split at hr
    · cases hr; exact dev_setBuffer_ne s .rx _ (he d rfl)
    · cases hr; exact dev_setDev_ne _ _ _ _ (he d rfl)
  | rxCount d => exact whenLegal_dev ht fun hr => by cases hr; rfl
  | close d => exact whenLegal_dev ht fun hr => by cases hr; rfl
  | rbReset d sel => exact whenLegal_dev ht fun hr => by cases hr; exact dev_setBuffer_ne s sel _ (he d rfl)
  | rbInsert d sel b =>
    refine whenLegal_dev ht fun hr => ?_
    split at hr
    · cases hr; exact raiseFault_dev _ _ _ _
    · cases hr; exact dev_setBuffer_ne s sel _ (he d rfl)
  | rbRemove d sel =>
    refine whenLegal_dev ht fun hr => ?_
    split at hr
    · cases hr; exact raiseFault_dev _ _ _ _
    · cases hr; exact dev_setBuffer_ne s sel _ (he d rfl)
  | rbFull d sel => exact whenLegal_dev ht fun hr => by cases hr; rfl
  | rbEmpty d sel => exact whenLegal_dev ht fun hr => by cases hr; rfl
  | envRx d data status =>
    simp only [exec, execEnvRx] at ht
    split at ht
    · next u hu => cases ht; rw [advancePc_dev]; exact eventRx_dev_ne hu (he d rfl)
    · cases ht; exact raiseFault_dev _ _ _ _
  | envTxDone d => cases ht; exact dev_setDev_ne _ _ _ _ (he d rfl)
  | envGie v => cases ht; rfl
  | rxc d => exact exec_serviceInstr_dev_ne (k := .rxc) ht (he d rfl)
  | dre d => exact exec_serviceInstr_dev_ne (k := .dre) ht (he d rfl)

/-- A word decodes to an instruction of the device in its DEV field, or of none (30_encoding.md R113). -/
theorem dev?_of_decodeWord {ndev : Nat} {W : Word} {i : Instr} {d : Dev} (h : decodeWord ndev W = .ok i)
    (hd : i.dev? = some d) : d = devField W := by
  obtain ⟨op, -, -, -, rfl⟩ := fields_of_decodeWord ndev W i h
  cases op <;> cases hd <;> rfl

/-- Consuming an item leaves the record of every device but the one its word names. -/
theorem consumeItem_dev_ne {s t : State} {e : Dev} (ht : consumeItem s = .next t) (he : e ≠ choiceDev s .item) :
    t.dev e = s.dev e := by
  cases hW : nextItem s with
  | none => simp [consumeItem, hW] at ht
  | some W =>
    rw [consumeItem_of_nextItem hW] at ht
    simp only [choiceDev, hW, Option.getD_some] at he
    rcases consumeWord_next ht with ⟨i, hi, hexec⟩ | rfl
    · exact exec_dev_ne (fun d hd => dev?_of_decodeWord hi hd ▸ he.symm) hexec
    · exact raiseFault_dev _ _ _ _

/-- A mainline continuation leaves the record of every device but the in-flight command's. -/
theorem mainlineStep_dev_ne {s : State} {e : Dev} (he : mcurDev s ≠ e) : (mainlineStep s).dev e = s.dev e := by
  unfold mainlineStep
  cases s.mphase with
  | idle => rfl
  | sendWait => exact queueByte_dev_ne _ s he
  | seq =>
    show (sendSeqStep s).dev e = s.dev e
    unfold sendSeqStep
    split <;> exact queueByte_dev_ne _ s he
  | closeDrain => rfl
  | closeHw => rfl
  | closeSettle => exact dev_setDev_ne _ _ _ _ he

/-- An open-mode event leaves the record of every device but its own. -/
theorem openEvent_dev_ne {ev : EnvEvent} {s : State} {e : Dev} (he : e ≠ choiceDev s (.event ev)) :
    (openEvent ev s).dev e = s.dev e := by
  cases ev with
  | rx d data status =>
    simp only [openEvent]
    split
    · next t ht => exact eventRx_dev_ne ht he.symm
    · exact raiseFault_dev _ _ _ _
  | txDone d => exact dev_setDev_ne _ _ _ _ he.symm
  | gie v => rfl

/-- Settles O49: by the agent that takes the step. -/
theorem stepWritesOneDeviceAtMost : Obligations.StepWritesOneDeviceAtMost := by
  intro c s t e ht he
  cases c with
  | item => exact consumeItem_dev_ne ht he
  | mainline => cases ht; exact mainlineStep_dev_ne he.symm
  | rxc d => exact exec_serviceInstr_dev_ne (k := .rxc) ht he.symm
  | dre d => exact exec_serviceInstr_dev_ne (k := .dre) ht he.symm
  | event ev => cases ht; exact openEvent_dev_ne he

end Sys2Proof.Machine
end

section
/-! PROOFS. A command word and its little-endian bytes (20_memory.md R85). -/

namespace Sys2Proof.Machine

/-! ## The bytes of a word -/

@[simp] theorem bytesOfWord_length (W : Word) : (bytesOfWord W).length = 8 := by
  simp [bytesOfWord]

theorem getElem?_bytesOfWord (W : Word) {j : Nat} (hj : j < 8) :
    (bytesOfWord W)[j]? = some (field (8 * j) 8 W) := by
  simp [bytesOfWord, hj]

/-! ## The word of the bytes -/

theorem natOfBytes_append (as bs : List Byte) :
    natOfBytes (as ++ bs) = natOfBytes as + 256 ^ as.length * natOfBytes bs := by
  induction as with
  | nil => simp [natOfBytes]
  | cons a as ih =>
    simp only [List.cons_append, natOfBytes, ih, List.length_cons, Nat.pow_succ]
    ring

/-- The first `n` bytes of a word, low byte first, stand for the word's remainder: each further byte is the next digit
to base 256. -/
theorem natOfBytes_map_field (W : Word) (n : Nat) :
    natOfBytes ((List.range n).map fun j => field (8 * j) 8 W) = W.toNat % 256 ^ n := by
  induction n with
  | zero => simp [natOfBytes, Nat.mod_one]
  | succ n ih =>
    have hpow : 2 ^ (8 * n) = 256 ^ n := Nat.pow_mul 2 8 n
    have hdigit : (field (8 * n) 8 W).toNat = W.toNat / 256 ^ n % 256 := by simp [hpow]
    rw [List.range_succ, List.map_append, natOfBytes_append, ih, Nat.mod_pow_succ]
    simp [natOfBytes, hdigit]

theorem natOfBytes_bytesOfWord (W : Word) : natOfBytes (bytesOfWord W) = W.toNat := by
  rw [bytesOfWord, natOfBytes_map_field]
  exact Nat.mod_eq_of_lt W.isLt

/-! ## Decoding from bytes -/

/-- Decoding a word's bytes consumes exactly those eight and answers what decoding the word answers. -/
theorem decodeBytes_bytesOfWord_append (ndev : Nat) (W : Word) (rest : List Byte) :
    decodeBytes ndev (bytesOfWord W ++ rest) = (decodeWord ndev W).map fun i => (i, rest) := by
  have hlong : ¬ (bytesOfWord W ++ rest).length < 8 := by simp
  have htake : (bytesOfWord W ++ rest).take 8 = bytesOfWord W := List.take_left' (bytesOfWord_length W)
  have hdrop : (bytesOfWord W ++ rest).drop 8 = rest := List.drop_left' (bytesOfWord_length W)
  rw [decodeBytes, if_neg hlong, htake, hdrop, natOfBytes_bytesOfWord, BitVec.ofNat_toNat, BitVec.setWidth_eq]
  cases decodeWord ndev W <;> rfl

/-- Settles O6: the word is recovered from its bytes (`natOfBytes_bytesOfWord`), so decoding them is decoding it. -/
theorem wordDecodesFromItsLittleEndianBytes : Obligations.WordDecodesFromItsLittleEndianBytes := by
  intro ndev W rest
  refine ⟨bytesOfWord_length W, fun j hj => getElem?_bytesOfWord W hj, fun i hi => ?_, fun e he => ?_⟩
  · rw [decodeBytes_bytesOfWord_append, hi]
    rfl
  · rw [decodeBytes_bytesOfWord_append, he]
    rfl

end Sys2Proof.Machine
end

section
/-! PROOFS. Encoding and decoding are inverse to each other (30_encoding.md R110 to R119), for command words and vector
ids. -/

namespace Sys2Proof.Machine

/-! ## The row of a word -/

/-- Settles O4: the row a word selects has the word's OP, and the rows of the map have different OPs. -/
theorem atMostOneRowSelectsAWord : Obligations.AtMostOneRowSelectsAWord := by
  intro W r r' hr hr' hs hs'
  have hop := rowFields_op _ _ ((selects_iff r hr W).1 hs)
  have hop' := rowFields_op _ _ ((selects_iff r' hr' W).1 hs')
  exact opTable_number r hr r' hr' (hop.symm.trans hop')

/-! ## Fields read back -/

theorem devField_eq {W : Word} {d : Dev} (h : W.toNat / 16 % 8 = d.val) : devField W = d :=
  Fin.ext ((devField_val W).trans h)

theorem selField_eq {W : Word} {sel : Sel} (h : W.toNat / 128 % 2 = sel.bit) : selField W = sel :=
  sel_eq_of_bit _ _ ((selField_bit W).trans h)

theorem field_eq {lo len : Nat} {W : Word} {b : BitVec len} (h : W.toNat / 2 ^ lo % 2 ^ len = b.toNat) :
    field lo len W = b :=
  BitVec.eq_of_toNat_eq ((field_toNat lo len W).trans h)

theorem toNat_beq_one (b : BitVec 1) : (b == 1#1).toNat = b.toNat := by
  revert b
  decide

/-! ## The bytes of a SEND_SEQ word -/

/-- The bytes of a SEND_SEQ word as a list (30_encoding.md R114). -/
def seqBytes (W : Word) : List Byte := (List.range (seqCount W)).map (seqByte W)

@[simp] theorem seqBytes_length (W : Word) : (seqBytes W).length = seqCount W := by simp [seqBytes]

theorem seqUnusedZero_iff (W : Word) :
    seqUnusedZero W = true ↔ ∀ j < 6, seqCount W ≤ j → seqByte W j = 0#8 := by
  simp only [seqUnusedZero, List.all_eq_true, List.mem_range, Bool.or_eq_true, decide_eq_true_eq, beq_iff_eq,
    ← not_lt, or_iff_not_imp_left]

theorem seqCount_encSendSeq (d : Dev) (bs : List Byte) (h : bs.length ≤ 6) :
    seqCount (encSendSeq d bs) = bs.length :=
  count_encSendSeq d bs h

theorem seqBytes_encSendSeq (d : Dev) (bs : List Byte) (h : bs.length ≤ 6) : seqBytes (encSendSeq d bs) = bs := by
  apply List.ext_getElem
  · rw [seqBytes_length, seqCount_encSendSeq d bs h]
  · intro j _ hj
    simpa [seqBytes] using byte_encSendSeq d bs h j hj

theorem seqUnusedZero_encSendSeq (d : Dev) (bs : List Byte) (h : bs.length ≤ 6) :
    seqUnusedZero (encSendSeq d bs) = true := by
  rw [seqUnusedZero_iff, seqCount_encSendSeq d bs h]
  exact fun j _ hj => unused_encSendSeq d bs h j hj

/-- The byte fields of a word are the bytes of the word shifted down by the two bytes below them. -/
theorem seqByte_eq_field (W : Word) (j : Nat) : seqByte W j = field (8 * j) 8 (W >>> 16) := by
  apply BitVec.eq_of_toNat_eq
  rw [seqByte, field_toNat, field_toNat, BitVec.toNat_ushiftRight, Nat.shiftRight_eq_div_pow,
    Nat.div_div_eq_div_mul, ← Nat.pow_add]

/-- Zero digits from `n` on leave the remainder as it is. -/
theorem mod_pow_of_zero_digits {x n m : Nat} (hnm : n ≤ m) (h : ∀ j, n ≤ j → j < m → x / 256 ^ j % 256 = 0) :
    x % 256 ^ m = x % 256 ^ n := by
  induction m, hnm using Nat.le_induction with
  | base => rfl
  | succ m hm ih =>
    rw [Nat.mod_pow_succ, h m hm (Nat.lt_succ_self m), ih fun j hj hlt => h j hj (Nat.lt_succ_of_lt hlt)]
    rfl

/-- The bytes of a SEND_SEQ word are all that it holds from bit 16 up, where the unused byte fields are zero. -/
theorem natOfBytes_seqBytes {W : Word} (hn : seqCount W ≤ 6) (hz : seqUnusedZero W = true) :
    natOfBytes (seqBytes W) = W.toNat / 2 ^ 16 := by
  have hW := W.isLt
  have hshift : (W >>> 16).toNat = W.toNat / 2 ^ 16 := by
    rw [BitVec.toNat_ushiftRight, Nat.shiftRight_eq_div_pow]
  have hdigits : ∀ j, seqCount W ≤ j → j < 6 → (W >>> 16).toNat / 256 ^ j % 256 = 0 := by
    intro j hj hlt
    have hbyte := congrArg BitVec.toNat ((seqUnusedZero_iff W).1 hz j hlt hj)
    rw [seqByte_eq_field, field_toNat, Nat.pow_mul] at hbyte
    exact hbyte
  have hbytes : seqBytes W = (List.range (seqCount W)).map fun j => field (8 * j) 8 (W >>> 16) :=
    List.map_congr_left fun j _ => seqByte_eq_field W j
  calc natOfBytes (seqBytes W)
      = (W >>> 16).toNat % 256 ^ seqCount W := by rw [hbytes, natOfBytes_map_field]
    _ = (W >>> 16).toNat % 256 ^ 6 := (mod_pow_of_zero_digits hn hdigits).symm
    _ = W.toNat / 2 ^ 16 := by rw [hshift]; omega

/-! ## The words of an instruction -/

/-- The word has the row of the operation, with the operands of the instruction and the values SEND_SEQ allows: all that
decoding asks of a word but that its device exists. -/
structure StandsFor (op : Op) (W : Word) (i : Instr) : Prop where
  fields : RowFields op W.toNat
  operands : operands op W = i
  seqValues : op = .sendSeq → W.toNat / 256 % 8 ≠ 7 ∧ seqUnusedZero W = true

theorem deviceOk_operands (ndev : Nat) (op : Op) (W : Word) :
    deviceOk ndev (operands op W) = true ↔ op = .envGie ∨ W.toNat / 16 % 8 < ndev := by
  cases op <;> simp [operands, deviceOk, Instr.dev?]

/-- What decoding a word answers, as a relation. -/
theorem decodeWord_eq_ok_iff_standsFor (ndev : Nat) (W : Word) (i : Instr) :
    decodeWord ndev W = .ok i ↔ deviceOk ndev i = true ∧ ∃ op, StandsFor op W i := by
  constructor
  · intro h
    obtain ⟨op, hfields, hdev, hseq, rfl⟩ := fields_of_decodeWord ndev W i h
    exact ⟨(deviceOk_operands ndev op W).2 hdev, op, hfields, rfl, hseq⟩
  · rintro ⟨hdev, op, hfields, rfl, hseq⟩
    exact decodeWord_of_fields ndev op W hfields ((deviceOk_operands ndev op W).1 hdev) hseq

/-- The encoding of the operands of a word is the word: its row and the SEND_SEQ checks leave no other bit set. -/
theorem encode_operands {op : Op} {W : Word} (hfields : RowFields op W.toNat)
    (hseq : op = .sendSeq → W.toNat / 256 % 8 ≠ 7 ∧ seqUnusedZero W = true) : encode (operands op W) = .word W := by
  have of_toNat {V : Word} (hV : V.toNat = W.toNat) : Code.word V = .word W := by rw [BitVec.eq_of_toNat_eq hV]
  cases op <;> refine of_toNat ?_ <;> simp only [RowFields] at hfields
  case configure => simp only [encConfigure_toNat, devField_val, field_toNat]; omega
  case init => simp only [encInit_toNat, devField_val, field_toNat]; omega
  case sendByte => simp only [encSendByte_toNat, devField_val, field_toNat]; omega
  case sendSeq =>
    obtain ⟨hcount, hzero⟩ := hseq rfl
    have hle : seqCount W ≤ 6 := by rw [seqCount_eq]; omega
    change (encSendSeq (devField W) (seqBytes W)).toNat = W.toNat
    rw [encSendSeq_toNat _ _ (by rwa [seqBytes_length]), natOfBytes_seqBytes hle hzero, seqBytes_length,
      devField_val, seqCount_eq]
    omega
  case readByte => simp only [encReadByte_toNat, devField_val]; omega
  case rxCount => simp only [encRxCount_toNat, devField_val]; omega
  case close => simp only [encClose_toNat, devField_val]; omega
  case rbReset => simp only [encRbReset_toNat, devField_val, selField_bit]; omega
  case rbInsert => simp only [encRbInsert_toNat, devField_val, selField_bit, field_toNat]; omega
  case rbRemove => simp only [encRbRemove_toNat, devField_val, selField_bit]; omega
  case rbFull => simp only [encRbFull_toNat, devField_val, selField_bit]; omega
  case rbEmpty => simp only [encRbEmpty_toNat, devField_val, selField_bit]; omega
  case envRx => simp only [encEnvRx_toNat, devField_val, field_toNat]; omega
  case envTxDone => simp only [encEnvTxDone_toNat, devField_val]; omega
  case envGie =>
    rw [encEnvGie_toNat, toNat_beq_one, field_toNat]
    omega

theorem StandsFor.encode_eq {op : Op} {W : Word} {i : Instr} (h : StandsFor op W i) : encode i = .word W := by
  rw [← h.operands]
  exact encode_operands h.fields h.seqValues

/-- The encoding of an instruction stands for it: each field of the word reads back the operand it was given. -/
theorem standsFor_of_encode {i : Instr} {W : Word} (hl : lengthOk i = true) (he : encode i = .word W) :
    ∃ op, StandsFor op W i := by
  cases i <;> cases he
  case configure d port route txmask rxmask =>
    have hn := encConfigure_toNat d port route txmask rxmask
    refine ⟨.configure, ⟨by omega, by omega, by omega⟩, ?_, nofun⟩
    simp only [operands, Instr.configure.injEq]
    exact ⟨devField_eq (by omega), field_eq (by omega), field_eq (by omega), field_eq (by omega), field_eq (by omega)⟩
  case init d baud =>
    have hn := encInit_toNat d baud
    refine ⟨.init, ⟨by omega, by omega, by omega⟩, ?_, nofun⟩
    simp only [operands, Instr.init.injEq]
    exact ⟨devField_eq (by omega), field_eq (by omega)⟩
  case sendByte d b =>
    have hn := encSendByte_toNat d b
    refine ⟨.sendByte, ⟨by omega, by omega, by omega⟩, ?_, nofun⟩
    simp only [operands, Instr.sendByte.injEq]
    exact ⟨devField_eq (by omega), field_eq (by omega)⟩
  case sendSeq d bytes =>
    have hle : bytes.length ≤ 6 := by simpa [lengthOk] using hl
    have hn := encSendSeq_toNat d bytes hle
    refine ⟨.sendSeq, ⟨by omega, by omega, by omega⟩, ?_, fun _ => ⟨by omega, seqUnusedZero_encSendSeq d bytes hle⟩⟩
    simp only [operands, Instr.sendSeq.injEq]
    exact ⟨devField_eq (by omega), seqBytes_encSendSeq d bytes hle⟩
  case readByte d =>
    have hn := encReadByte_toNat d
    exact ⟨.readByte, ⟨by omega, by omega, by omega⟩, congrArg Instr.readByte (devField_eq (by omega)), nofun⟩
  case rxCount d =>
    have hn := encRxCount_toNat d
    exact ⟨.rxCount, ⟨by omega, by omega, by omega⟩, congrArg Instr.rxCount (devField_eq (by omega)), nofun⟩
  case close d =>
    have hn := encClose_toNat d
    exact ⟨.close, ⟨by omega, by omega, by omega⟩, congrArg Instr.close (devField_eq (by omega)), nofun⟩
  case rbReset d sel =>
    have hn := encRbReset_toNat d sel
    have hb := bit_lt sel
    exact ⟨.rbReset, ⟨by omega, by omega⟩,
      congrArg₂ Instr.rbReset (devField_eq (by omega)) (selField_eq (by omega)), nofun⟩
  case rbInsert d sel b =>
    have hn := encRbInsert_toNat d sel b
    have hb := bit_lt sel
    refine ⟨.rbInsert, ⟨by omega, by omega⟩, ?_, nofun⟩
    simp only [operands, Instr.rbInsert.injEq]
    exact ⟨devField_eq (by omega), selField_eq (by omega), field_eq (by omega)⟩
  case rbRemove d sel =>
    have hn := encRbRemove_toNat d sel
    have hb := bit_lt sel
    exact ⟨.rbRemove, ⟨by omega, by omega⟩,
      congrArg₂ Instr.rbRemove (devField_eq (by omega)) (selField_eq (by omega)), nofun⟩
  case rbFull d sel =>
    have hn := encRbFull_toNat d sel
    have hb := bit_lt sel
    exact ⟨.rbFull, ⟨by omega, by omega⟩,
      congrArg₂ Instr.rbFull (devField_eq (by omega)) (selField_eq (by omega)), nofun⟩
  case rbEmpty d sel =>
    have hn := encRbEmpty_toNat d sel
    have hb := bit_lt sel
    exact ⟨.rbEmpty, ⟨by omega, by omega⟩,
      congrArg₂ Instr.rbEmpty (devField_eq (by omega)) (selField_eq (by omega)), nofun⟩
  case envRx d data status =>
    have hn := encEnvRx_toNat d data status
    refine ⟨.envRx, ⟨by omega, by omega, by omega⟩, ?_, nofun⟩
    simp only [operands, Instr.envRx.injEq]
    exact ⟨devField_eq (by omega), field_eq (by omega), field_eq (by omega)⟩
  case envTxDone d =>
    have hn := encEnvTxDone_toNat d
    exact ⟨.envTxDone, ⟨by omega, by omega, by omega⟩, congrArg Instr.envTxDone (devField_eq (by omega)), nofun⟩
  case envGie v =>
    have hn := encEnvGie_toNat v
    have hv := v.toNat_lt
    exact ⟨.envGie, ⟨by omega, by omega⟩, by cases v <;> decide, nofun⟩

/-- A word decodes to an instruction exactly when it is its encoding and the instruction exists. -/
theorem decodeWord_eq_ok_iff (ndev : Nat) (W : Word) (i : Instr) :
    decodeWord ndev W = .ok i ↔ encode i = .word W ∧ wellFormed ndev i = true := by
  constructor
  · intro h
    obtain ⟨-, op, hop⟩ := (decodeWord_eq_ok_iff_standsFor ndev W i).1 h
    exact ⟨hop.encode_eq, (wf_of_decode h).1⟩
  · rintro ⟨he, hwf⟩
    obtain ⟨hdev, hlength⟩ := Bool.and_eq_true_iff.1 hwf
    exact (decodeWord_eq_ok_iff_standsFor ndev W i).2 ⟨hdev, standsFor_of_encode hlength he⟩

/-! ## Vector ids (30_encoding.md R119) -/

/-- Every vector id names a source of a device. -/
theorem exists_vectorId (V : BitVec 4) : ∃ d k, V = vectorId d k := by
  have hV := V.isLt
  obtain ⟨k, hk⟩ : ∃ k : Kind, k.bit = V.toNat % 2 := by
    rcases Nat.mod_two_eq_zero_or_one V.toNat with h | h
    · exact ⟨.rxc, h.symm⟩
    · exact ⟨.dre, h.symm⟩
  refine ⟨⟨V.toNat / 2, by omega⟩, k, BitVec.eq_of_toNat_eq ?_⟩
  rw [Laws.EncDev.vectorId_toNat, hk]
  exact (Nat.div_add_mod V.toNat 2).symm

theorem decodeVector_vectorId (ndev : Nat) (d : Dev) (k : Kind) :
    decodeVector ndev (vectorId d k) = if ndev ≤ d.val then .error .deviceAbsent else .ok (serviceInstr d k) := by
  have hV := Laws.EncDev.vectorId_toNat d k
  have hd : (2 * d.val + k.bit) / 2 = d.val := by cases k <;> simp only [Kind.bit] <;> omega
  simp only [decodeVector, hV, hd]
  cases k <;> simp [Kind.bit, serviceInstr]

theorem encode_serviceInstr (d : Dev) (k : Kind) : encode (serviceInstr d k) = .vector (vectorId d k) := by
  cases k <;> rfl

theorem wellFormed_serviceInstr (ndev : Nat) (d : Dev) (k : Kind) :
    wellFormed ndev (serviceInstr d k) = true ↔ d.val < ndev := by
  cases k <;> simp [wellFormed, deviceOk, lengthOk, serviceInstr, Instr.dev?]

/-- Only service steps are encoded as vector ids. -/
theorem encode_eq_vector {i : Instr} {V : BitVec 4} (h : encode i = .vector V) :
    ∃ d k, i = serviceInstr d k ∧ V = vectorId d k := by
  cases i <;> cases h
  case rxc d => exact ⟨d, .rxc, rfl, rfl⟩
  case dre d => exact ⟨d, .dre, rfl, rfl⟩

/-- A vector id decodes to an instruction exactly when it is its encoding and the instruction exists. -/
theorem decodeVector_eq_ok_iff (ndev : Nat) (V : BitVec 4) (i : Instr) :
    decodeVector ndev V = .ok i ↔ encode i = .vector V ∧ wellFormed ndev i = true := by
  constructor
  · intro h
    obtain ⟨d, k, rfl⟩ := exists_vectorId V
    rw [decodeVector_vectorId] at h
    split at h
    · cases h
    · next hd =>
      cases h
      exact ⟨encode_serviceInstr d k, (wellFormed_serviceInstr ndev d k).2 (by omega)⟩
  · rintro ⟨he, hwf⟩
    obtain ⟨d, k, rfl, rfl⟩ := encode_eq_vector he
    have hd := (wellFormed_serviceInstr ndev d k).1 hwf
    rw [decodeVector_vectorId, if_neg (by omega)]

/-! ## The round trips -/

/-- Decoding is the inverse of encoding on the instructions that exist on the machine. -/
theorem decode_eq_ok_iff (ndev : Nat) (c : Code) (i : Instr) :
    decode ndev c = .ok i ↔ encode i = c ∧ wellFormed ndev i = true := by
  cases c with
  | word W => exact decodeWord_eq_ok_iff ndev W i
  | vector V => exact decodeVector_eq_ok_iff ndev V i

/-- Settles O2: the encoding of an instruction that exists decodes to it, by `decode_eq_ok_iff` from right to left. -/
theorem decodeOfEncodeIsTheInstruction : Obligations.DecodeOfEncodeIsTheInstruction :=
  fun ndev i hwf => (decode_eq_ok_iff ndev (encode i) i).2 ⟨rfl, hwf⟩

/-- Settles O3: what bits decode to is encoded as those bits and exists, by `decode_eq_ok_iff` from left to right. -/
theorem encodeOfDecodeIsTheCode : Obligations.EncodeOfDecodeIsTheCode :=
  fun ndev c i h => (decode_eq_ok_iff ndev c i).1 h

/-! ## The examples of the spec -/

/-- Settles O1: each word and vector id of R126, R113 and R119 is decoded. -/
theorem wordsOfTheSpecDecode : Obligations.WordsOfTheSpecDecode := by
  unfold Obligations.WordsOfTheSpecDecode
  decide

end Sys2Proof.Machine
end

section
/-! PROOFS. The status word of a read (30_encoding.md R120 to R123). -/

namespace Sys2Proof.Machine

/-! ## The two bytes of a status word -/

/-- Bits 15:8 of a status word are its flags. -/
theorem getLsbD_statusWord (flags data : Byte) {i : Nat} (hi : i < 8) :
    (statusWord flags data).getLsbD (8 + i) = flags.getLsbD i := by
  have h16 : 8 + i < 16 := by omega
  simp [statusWord, h16, hi]

/-- Bits 7:0 of a status word are its data. -/
theorem extractLsb'_statusWord (flags data : Byte) : (statusWord flags data).extractLsb' 0 8 = data := by
  ext i hi
  have h16 : i < 16 := by omega
  simp [statusWord, hi, h16]

/-- The layout of bits 15:9 (R120), for flags that are PE, FE and BOVF of `err` and nothing else but for NODATA. -/
theorem statusWord_layout {flags err : Byte} (data : Byte)
    (hflags : ∀ i < 8, 0 < i → flags.getLsbD i = (err &&& hwMask).getLsbD i) :
    (statusWord flags data).getLsbD 9 = err.getLsbD 1
    ∧ (statusWord flags data).getLsbD 10 = err.getLsbD 2
    ∧ (statusWord flags data).getLsbD 14 = err.getLsbD 6
    ∧ (statusWord flags data).getLsbD 11 = false
    ∧ (statusWord flags data).getLsbD 12 = false
    ∧ (statusWord flags data).getLsbD 13 = false
    ∧ (statusWord flags data).getLsbD 15 = false := by
  have hbit : ∀ i < 8, 0 < i →
      (statusWord flags data).getLsbD (8 + i) = (err.getLsbD i && hwMask.getLsbD i) := by
    intro i hi hpos
    rw [getLsbD_statusWord flags data hi, hflags i hi hpos, BitVec.getLsbD_and]
  have hset : ∀ i < 8, 0 < i → hwMask.getLsbD i = true →
      (statusWord flags data).getLsbD (8 + i) = err.getLsbD i := by
    intro i hi hpos hmask
    rw [hbit i hi hpos, hmask, Bool.and_true]
  have hclear : ∀ i < 8, 0 < i → hwMask.getLsbD i = false →
      (statusWord flags data).getLsbD (8 + i) = false := by
    intro i hi hpos hmask
    rw [hbit i hi hpos, hmask, Bool.and_false]
  exact ⟨hset 1 (by decide) (by decide) (by decide), hset 2 (by decide) (by decide) (by decide),
    hset 6 (by decide) (by decide) (by decide), hclear 3 (by decide) (by decide) (by decide),
    hclear 4 (by decide) (by decide) (by decide), hclear 5 (by decide) (by decide) (by decide),
    hclear 7 (by decide) (by decide) (by decide)⟩

/-- Setting NODATA and masking by ERRMASK leaves the flags that HWMASK leaves (R123), apart from NODATA itself. -/
theorem emptyReadFlags_errMask (err : Byte) {i : Nat} (hi : i < 8) (hpos : 0 < i) :
    (emptyReadFlags err &&& errMask).getLsbD i = (err &&& hwMask).getLsbD i := by
  have hnodata : ∀ i < 8, 0 < i → nodataBit.getLsbD i = false := by decide
  have hmask : ∀ i < 8, 0 < i → errMask.getLsbD i = hwMask.getLsbD i := by decide
  rw [emptyReadFlags, BitVec.getLsbD_and, BitVec.getLsbD_or, BitVec.getLsbD_and, hnodata i hi hpos, hmask i hi hpos,
    Bool.or_false]

theorem dataStatus_nodata (err data : Byte) : (dataStatus err data).getLsbD 8 = false := by
  have hmask : hwMask.getLsbD 0 = false := by decide
  rw [dataStatus, getLsbD_statusWord _ data (i := 0) (by decide), BitVec.getLsbD_and, hmask, Bool.and_false]

theorem nodataStatus_nodata (err low : Byte) : (nodataStatus (emptyReadFlags err) low).getLsbD 8 = true := by
  have hnodata : nodataBit.getLsbD 0 = true := by decide
  have hmask : errMask.getLsbD 0 = true := by decide
  rw [nodataStatus, getLsbD_statusWord _ low (i := 0) (by decide), emptyReadFlags, BitVec.getLsbD_and,
    BitVec.getLsbD_or, hnodata, hmask, Bool.or_true, Bool.and_true]

/-! ## What a read answers -/

theorem legalRead_iff (l : Life) : legalRead l = true ↔ l = .run ∨ l = .closed := by
  cases l <;> decide

/-- A legal read emits the status word of the oldest byte, or that of an empty buffer (R250 to R252). -/
theorem exec_readByte_emits {d : Dev} {s t : State} (hlegal : legalRead (s.dev d).life = true)
    (ht : exec (.readByte d) s = .next t) :
    t.outLog = s.outLog ++ [t.res]
    ∧ (0 < (s.dev d).rx.cnt ∧ t.res = dataStatus (s.dev d).err (headByte d .rx s)
      ∨ (s.dev d).rx.cnt = 0 ∧ ∃ low, t.res = nodataStatus (emptyReadFlags (s.dev d).err) low) := by
  change execReadByte d s = .next t at ht
  rw [execReadByte, whenLegal_ok _ _ _ _ _ hlegal] at ht
  split at ht
  · next hany =>
    cases ht
    exact ⟨rfl, .inl ⟨hany, rfl⟩⟩
  · next hnone =>
    cases ht
    rw [readNodata_eq]
    exact ⟨rfl, .inr ⟨Nat.eq_zero_of_not_pos hnone, _, rfl⟩⟩

/-- Settles O29: the two status words a read can emit (`exec_readByte_emits`) have the layout (`statusWord_layout`). -/
theorem statusWordHasItsLayout : Obligations.StatusWordHasItsLayout := by
  intro d s t _ hlife ht
  obtain ⟨hlog, ⟨hany, hres⟩ | ⟨hnone, low, hres⟩⟩ := exec_readByte_emits ((legalRead_iff _).2 hlife) ht
  · rw [hlog, hres]
    refine ⟨rfl, fun _ => extractLsb'_statusWord _ _, ?_, statusWord_layout _ fun _ _ _ => rfl⟩
    rw [dataStatus_nodata]
    exact ⟨nofun, fun h => absurd h hany.ne'⟩
  · rw [hlog, hres]
    refine ⟨rfl, fun h => absurd hnone h.ne', ?_, statusWord_layout _ fun _ hi hpos => emptyReadFlags_errMask _ hi hpos⟩
    rw [nodataStatus_nodata]
    exact ⟨fun _ => hnone, fun _ => rfl⟩

end Sys2Proof.Machine
end

section
/-! PROOFS. The pseudo-commands (30_encoding.md R125). -/

namespace Sys2Proof.Machine

/-- The pieces are the text in order, each of one to six bytes, and only the last may be short. -/
structure SixesOf (text : List Byte) (parts : List (List Byte)) : Prop where
  flatten : parts.flatten = text
  length : parts.length = (text.length + 5) / 6
  sizes : ∀ p ∈ parts, 0 < p.length ∧ p.length ≤ 6
  full : ∀ p ∈ parts.dropLast, p.length = 6

theorem SixesOf.nil : SixesOf [] [] := ⟨rfl, rfl, nofun, nofun⟩

/-- Six bytes, or what is left of the text, in front of the pieces of the rest. -/
theorem SixesOf.cons {text : List Byte} {parts : List (List Byte)} (hne : text ≠ [])
    (h : SixesOf (text.drop 6) parts) : SixesOf text (text.take 6 :: parts) := by
  obtain ⟨hflatten, hlength, hsizes, hfull⟩ := h
  have hpos := List.length_pos_iff.2 hne
  rw [List.length_drop] at hlength
  refine ⟨?_, ?_, List.forall_mem_cons.2 ⟨?_, hsizes⟩, ?_⟩
  · rw [List.flatten_cons, hflatten, List.take_append_drop]
  · rw [List.length_cons]
    omega
  · rw [List.length_take]
    omega
  · cases parts with
    | nil => nofun
    | cons q qs =>
      rw [List.length_cons] at hlength
      refine List.forall_mem_cons.2 ⟨?_, hfull⟩
      rw [List.length_take]
      omega

theorem sixesOf_inSixes (fuel : Nat) (text : List Byte) (h : text.length ≤ fuel) : SixesOf text (inSixes fuel text) := by
  induction fuel generalizing text with
  | zero =>
    rw [List.length_eq_zero_iff.1 (Nat.le_zero.1 h)]
    exact .nil
  | succ n ih =>
    rw [inSixes]
    split
    · next hnil => exact hnil ▸ .nil
    · next hne => exact .cons hne (ih _ (by rw [List.length_drop]; omega))

/-- Settles O60: the pieces SENDSTR sends have all four properties (`sixesOf_inSixes`). -/
theorem pseudoCommandsExpand : Obligations.PseudoCommandsExpand := by
  refine ⟨fun _ _ => rfl, fun d text => ?_⟩
  obtain ⟨hflatten, hlength, hsizes, hfull⟩ := sixesOf_inSixes text.length text (le_refl _)
  exact ⟨inSixes text.length text, rfl, hflatten, hlength, hsizes, hfull⟩

end Sys2Proof.Machine
end

section
/-! PROOFS. The ring-buffer primitives (40_ringbuffer.md R160, R163 to R165), and the queue a buffer stands for under
any sequence of operations (R166, R167). -/

namespace Sys2Proof.Machine

/-! ## The primitives -/

theorem ringFull_iff {cap : Nat} {B : RingBuffer} : ringFull cap B = true ↔ B.cnt = cap := beq_iff_eq

theorem ringEmpty_iff {B : RingBuffer} : ringEmpty B = true ↔ B.cnt = 0 := beq_iff_eq

/-- Settles O8: the definition of reset, field by field. -/
theorem resetClearsIndicesAndCount : Obligations.ResetClearsIndicesAndCount := fun _ => rfl

/-- Settles O9: the storage by `ringRead_ringInsert`, the indices and the count by the definition of insert. -/
theorem insertStoresAtHinAndAdvances : Obligations.InsertStoresAtHinAndAdvances := by
  intro c fill B b hwf _
  exact ⟨fun i => ringRead_ringInsert c.cap fill B b i hwf, rfl, rfl, rfl⟩

/-- Settles O10: the definitions of the byte removed and of the buffer left. -/
theorem removeReadsHoutAndAdvances : Obligations.RemoveReadsHoutAndAdvances := fun _ _ _ _ => ⟨rfl, rfl⟩

/-- Settles O11: at the last index the remainder wraps to 0, and a capacity whose bits the mask below it clears is a
power of two. -/
theorem maskIsTheRemainderExactlyForPowersOfTwo : Obligations.MaskIsTheRemainderExactlyForPowersOfTwo := by
  intro cap hpos
  constructor
  · intro h
    have hlast := h (cap - 1) (Nat.sub_lt hpos Nat.one_pos)
    rw [ringAdvance, Nat.sub_add_cancel hpos, Nat.mod_self] at hlast
    exact (Nat.and_sub_one_eq_zero_iff_isPowerOfTwo hpos.ne').1 hlast
  · rintro ⟨k, rfl⟩ i -
    exact ringAdvance_two_pow k i

/-! ## Sequences of operations -/

/-- Induction over the operations on a good buffer: an insertion finds the buffer full or room in it, a removal finds
it empty or a byte in it, and the operations that follow run on a good buffer again. -/
theorem RingBuffer.Ok.opsInduction {c : Config}
    {motive : (ops : List RingOp) → (B : RingBuffer) → B.Ok c.cap → Prop}
    (nil : ∀ B h, motive [] B h)
    (full : ∀ b ops B h, B.cnt = c.cap → motive ops B h → motive (.insert b :: ops) B h)
    (insert : ∀ b ops B h (hroom : B.cnt < c.cap),
      motive ops (ringInsert c.cap B b) (ringInsert_ok c B b h hroom) → motive (.insert b :: ops) B h)
    (empty : ∀ ops B h, B.cnt = 0 → motive ops B h → motive (.remove :: ops) B h)
    (remove : ∀ ops B h (hany : 0 < B.cnt),
      motive ops (ringDrop c.cap B) (ringDrop_ok c B h hany) → motive (.remove :: ops) B h)
    (ops : List RingOp) (B : RingBuffer) (h : B.Ok c.cap) : motive ops B h := by
  induction ops generalizing B with
  | nil => exact nil B h
  | cons op ops ih =>
    cases op with
    | insert b =>
      rcases h.cnt_le.eq_or_lt with hfull | hroom
      · exact full b ops B h hfull (ih B h)
      · exact insert b ops B h hroom (ih _ _)
    | remove =>
      rcases B.cnt.eq_zero_or_pos with hempty | hany
      · exact empty ops B h hempty (ih B h)
      · exact remove ops B h hany (ih _ _)

section RingRun

variable {cap : Nat} {B : RingBuffer} (fill : Nat → Byte) (b : Byte) (ops : List RingOp)

theorem ringRun_insert_of_full (h : B.cnt = cap) :
    ringRun cap fill (.insert b :: ops) B = ringRun cap fill ops B :=
  if_pos (ringFull_iff.2 h)

theorem ringRun_insert_of_lt (h : B.cnt < cap) :
    ringRun cap fill (.insert b :: ops) B = ringRun cap fill ops (ringInsert cap B b) :=
  if_neg (mt ringFull_iff.1 h.ne)

theorem ringRun_remove_of_empty (h : B.cnt = 0) :
    ringRun cap fill (.remove :: ops) B = ringRun cap fill ops B :=
  if_pos (ringEmpty_iff.2 h)

theorem ringRun_remove_of_pos (h : 0 < B.cnt) :
    ringRun cap fill (.remove :: ops) B =
      ((ringRun cap fill ops (ringDrop cap B)).1, ringHead fill B :: (ringRun cap fill ops (ringDrop cap B)).2) :=
  if_neg (mt ringEmpty_iff.1 h.ne')

end RingRun

/-- Any sequence of operations keeps the ring-buffer invariants. -/
theorem ringRun_ok {c : Config} (fill : Nat → Byte) (ops : List RingOp) (B : RingBuffer) (h : B.Ok c.cap) :
    (ringRun c.cap fill ops B).1.Ok c.cap := by
  induction ops, B, h using RingBuffer.Ok.opsInduction with
  | nil B h => exact h
  | full b ops B h hfull ih => rwa [ringRun_insert_of_full fill b ops hfull]
  | insert b ops B h hroom ih => rwa [ringRun_insert_of_lt fill b ops hroom]
  | empty ops B h hempty ih => rwa [ringRun_remove_of_empty fill ops hempty]
  | remove ops B h hany ih => rwa [ringRun_remove_of_pos fill ops hany]

/-! ## The queue a buffer stands for -/

theorem ringContents_of_empty (cap : Nat) (fill : Nat → Byte) {B : RingBuffer} (h : B.cnt = 0) :
    ringContents cap fill B = [] :=
  List.eq_nil_of_length_eq_zero ((ringContents_length cap fill B).trans h)

/-- The queue of a good buffer's contents goes through the same operations to the contents of the buffer they leave,
and delivers the same bytes (R166). -/
theorem queueRun_ringContents {c : Config} (fill : Nat → Byte) (ops : List RingOp) (B : RingBuffer) (h : B.Ok c.cap) :
    queueRun c.cap ops (ringContents c.cap fill B) =
      (ringContents c.cap fill (ringRun c.cap fill ops B).1, (ringRun c.cap fill ops B).2) := by
  induction ops, B, h using RingBuffer.Ok.opsInduction with
  | nil B h => rfl
  | full b ops B h hfull ih =>
    rw [ringRun_insert_of_full fill b ops hfull, queueRun, ringContents_length, if_pos hfull, ih]
  | insert b ops B h hroom ih =>
    rw [ringRun_insert_of_lt fill b ops hroom, queueRun, ringContents_length, if_neg hroom.ne,
      ← ringContents_ringInsert c.cap fill B b h hroom, ih]
  | empty ops B h hempty ih =>
    rw [ringContents_of_empty c.cap fill hempty] at ih ⊢
    rw [ringRun_remove_of_empty fill ops hempty, queueRun, ih]
  | remove ops B h hany ih =>
    rw [ringRun_remove_of_pos fill ops hany, ringContents_ringDrop c fill B h hany, queueRun, ih]

/-- Insertions within the capacity append their bytes to the queue. -/
theorem queueRun_map_insert_append (cap : Nat) (ops : List RingOp) (bs q : List Byte)
    (h : q.length + bs.length ≤ cap) : queueRun cap (bs.map .insert ++ ops) q = queueRun cap ops (q ++ bs) := by
  induction bs generalizing q with
  | nil => rw [List.map_nil, List.nil_append, List.append_nil]
  | cons b bs ih =>
    rw [List.length_cons] at h
    rw [List.map_cons, List.cons_append, queueRun, if_neg (by omega), ih _ (by simp; omega), List.append_assoc,
      List.singleton_append]

/-- As many removals as the queue has bytes deliver all of it in order. -/
theorem queueRun_replicate_remove (cap : Nat) (q : List Byte) :
    queueRun cap (List.replicate q.length .remove) q = ([], q) := by
  induction q with
  | nil => rfl
  | cons b q ih => rw [List.length_cons, List.replicate_succ, queueRun, ih]

/-- Settles O12: the buffer simulates the queue of its contents (`queueRun_ringContents`), and a queue delivers the
bytes inserted into it in order. -/
theorem ringBufferDeliversInFifoOrder : Obligations.RingBufferDeliversInFifoOrder := by
  constructor
  · intro c fill B ops h
    rw [queueRun_ringContents fill ops B h]
    exact ⟨rfl, rfl, ringRun_ok fill ops B h⟩
  · intro c fill B bs h hempty hlen
    have hqueue := queueRun_ringContents fill (bs.map .insert ++ List.replicate bs.length .remove) B h
    rw [ringContents_of_empty c.cap fill hempty, queueRun_map_insert_append _ _ _ _ (by simpa using hlen),
      List.nil_append, queueRun_replicate_remove] at hqueue
    exact (congrArg Prod.snd hqueue).symm

/-! ## The count -/

/-- Bytes held after and bytes delivered are together the bytes held before and the bytes inserted (R167). -/
theorem ringRun_cnt_add_delivered {c : Config} (fill : Nat → Byte) (ops : List RingOp) (B : RingBuffer)
    (h : B.Ok c.cap) :
    (ringRun c.cap fill ops B).1.cnt + (ringRun c.cap fill ops B).2.length =
      B.cnt + (ringInserted c.cap ops B).length := by
  induction ops, B, h using RingBuffer.Ok.opsInduction with
  | nil B h => rfl
  | full b ops B h hfull ih =>
    rw [ringRun_insert_of_full fill b ops hfull, ringInserted, if_pos (ringFull_iff.2 hfull), ih]
  | insert b ops B h hroom ih =>
    rw [ringRun_insert_of_lt fill b ops hroom, ringInserted, if_neg (mt ringFull_iff.1 hroom.ne), ih, ringInsert_cnt,
      List.length_cons]
    omega
  | empty ops B h hempty ih =>
    rw [ringRun_remove_of_empty fill ops hempty, ringInserted, if_pos (ringEmpty_iff.2 hempty), ih]
  | remove ops B h hany ih =>
    rw [ringRun_remove_of_pos fill ops hany, ringInserted, if_neg (mt ringEmpty_iff.1 hany.ne'), List.length_cons,
      ← Nat.add_assoc, ih, ringDrop_cnt]
    omega

/-- Settles O13: the sum by `ringRun_cnt_add_delivered`, the bound by `ringRun_ok`. -/
theorem countIsInsertsMinusRemoves : Obligations.CountIsInsertsMinusRemoves := by
  intro c fill B ops h
  exact ⟨ringRun_cnt_add_delivered fill ops B h, (ringRun_ok fill ops B h).cnt_le, ringFull_iff, ringEmpty_iff⟩

end Sys2Proof.Machine
end

section
/-! PROOFS. The test-port commands (40_ringbuffer.md R170 to R174). -/

namespace Sys2Proof.Machine

/-! ## Legality of the test port (R175) -/

theorem legalTestPort_iff (l : Life) : legalTestPort l = true ↔ l ≠ .run := by
  cases l <;> decide

/-- Out of RUN a test-port command does what its rule says. -/
theorem whenLegal_testPort {d : Dev} {s : State} (W : Word) (r : Result) (h : (s.dev d).life ≠ .run) :
    whenLegal legalTestPort d W s r = r :=
  whenLegal_ok _ _ _ _ _ ((legalTestPort_iff _).2 h)

/-- In RUN a test-port command is BAD_STATE. -/
theorem whenLegal_testPort_run {d : Dev} {s : State} (W : Word) (r : Result) (h : (s.dev d).life = .run)
    (hfault : s.faultCode = 0#8) :
    whenLegal legalTestPort d W s r = .next { s with faultCode := 2#8, faultWord := W } := by
  rw [whenLegal_bad _ _ _ _ _ (by rw [h]; rfl), raiseFault_of_none _ _ _ hfault]
  rfl

/-! ## RB_RESET -/

/-- Settles O14: the legality check decides between the reset of the buffer and BAD_STATE. -/
theorem rbResetResetsTheSelectedBuffer : Obligations.RbResetResetsTheSelectedBuffer := by
  intro d s
  refine ⟨fun hlife => ⟨?_, ?_⟩, fun sel hlife hfault => whenLegal_testPort_run _ _ hlife hfault⟩
  · exact whenLegal_testPort _ _ hlife
  · exact whenLegal_testPort _ _ hlife

/-! ## RB_INSERT -/

theorem exec_rbInsert_of_lt {d : Dev} {sel : Sel} {s : State} (b : Byte) (hlife : (s.dev d).life ≠ .run)
    (hroom : (s.buffer d sel).cnt < s.cap) :
    exec (.rbInsert d sel b) s = .next (advancePc (insertByte d sel b s)) :=
  (whenLegal_testPort _ _ hlife).trans (if_neg (mt ringFull_iff.1 hroom.ne))

theorem exec_rbInsert_of_full {d : Dev} {sel : Sel} {s : State} (b : Byte) (hlife : (s.dev d).life ≠ .run)
    (hfull : (s.buffer d sel).cnt = s.cap) (hfault : s.faultCode = 0#8) :
    exec (.rbInsert d sel b) s = .next { s with faultCode := 3#8, faultWord := encRbInsert d sel b } := by
  refine (whenLegal_testPort _ _ hlife).trans ((if_pos (ringFull_iff.2 hfull)).trans ?_)
  rw [raiseFault_of_none _ _ _ hfault]
  rfl

theorem buffer_insertByte (d : Dev) (sel : Sel) (b : Byte) (s : State) :
    (insertByte d sel b s).buffer d sel = ringInsert s.cap (s.buffer d sel) b := by
  cases sel <;> simp [insertByte_rx, insertByte_tx]

/-- Settles O15: the storage by `storageByte_insertByte`, the indices and the count by `buffer_insertByte`. -/
theorem rbInsertStoresOneByte : Obligations.RbInsertStoresOneByte := by
  intro d sel b s hwf
  refine ⟨fun hlife hroom => ⟨_, exec_rbInsert_of_lt b hlife hroom, ?_⟩,
    fun hlife hfull hfault => exec_rbInsert_of_full b hlife hfull hfault,
    fun hlife hfault => whenLegal_testPort_run _ _ hlife hfault⟩
  have hbuffer : (advancePc (insertByte d sel b s)).buffer d sel = ringInsert s.cap (s.buffer d sel) b :=
    buffer_insertByte d sel b s
  rw [hbuffer]
  refine ⟨fun e sel' i => storageByte_insertByte d sel b s e sel' i hwf, rfl, rfl, rfl, ?_, ?_⟩
  · rintro rfl
    rw [advancePc_dev, insertByte_rx, dev_setDev_same]
    rfl
  · rintro rfl
    rw [advancePc_dev, insertByte_tx, dev_setDev_same]
    rfl

/-! ## RB_REMOVE -/

theorem exec_rbRemove_of_pos {d : Dev} {sel : Sel} {s : State} (hlife : (s.dev d).life ≠ .run)
    (hany : 0 < (s.buffer d sel).cnt) :
    exec (.rbRemove d sel) s = .next (advancePc (emit ((headByte d sel s).setWidth 16) (dropByte d sel s))) :=
  (whenLegal_testPort _ _ hlife).trans (if_neg (mt ringEmpty_iff.1 hany.ne'))

theorem exec_rbRemove_of_empty {d : Dev} {sel : Sel} {s : State} (hlife : (s.dev d).life ≠ .run)
    (hempty : (s.buffer d sel).cnt = 0) (hfault : s.faultCode = 0#8) :
    exec (.rbRemove d sel) s = .next { s with faultCode := 4#8, faultWord := encRbRemove d sel } := by
  refine (whenLegal_testPort _ _ hlife).trans ((if_pos (ringEmpty_iff.2 hempty)).trans ?_)
  rw [raiseFault_of_none _ _ _ hfault]
  rfl

/-- Settles O16: by the check that decides it, legality first and the count after it. -/
theorem rbRemoveEmitsTheOldestByte : Obligations.RbRemoveEmitsTheOldestByte := by
  intro d s
  exact ⟨fun hlife hany => exec_rbRemove_of_pos (sel := .rx) hlife hany,
    fun hlife hany => exec_rbRemove_of_pos (sel := .tx) hlife hany,
    fun sel hlife hempty hfault => exec_rbRemove_of_empty hlife hempty hfault,
    fun sel hlife hfault => whenLegal_testPort_run _ _ hlife hfault⟩

/-! ## RB_FULL and RB_EMPTY -/

/-- The 16-bit result of a decided truth value. -/
theorem boolResult_eq_ite {b : Bool} {p : Prop} [Decidable p] (h : b = true ↔ p) :
    boolResult b = if p then 0x0001#16 else 0x0000#16 :=
  if_congr h rfl rfl

/-- Settles O17: the result of each is its predicate (`ringFull_iff`, `ringEmpty_iff`) as a 16-bit value. -/
theorem rbFullAndRbEmptyEmitThePredicates : Obligations.RbFullAndRbEmptyEmitThePredicates := by
  intro d sel s
  refine ⟨fun hlife => ⟨?_, ?_⟩, fun hlife hfault =>
    ⟨whenLegal_testPort_run _ _ hlife hfault, whenLegal_testPort_run _ _ hlife hfault⟩⟩
  · rw [← boolResult_eq_ite ringFull_iff]
    exact whenLegal_testPort _ _ hlife
  · rw [← boolResult_eq_ite ringEmpty_iff]
    exact whenLegal_testPort _ _ hlife

end Sys2Proof.Machine
end

section
/-! PROOFS. The lifecycle commands: CONFIGURE, INITIALIZE and CLOSE with its phases (41_lifecycle.md R200 to R224). -/

namespace Sys2Proof.Machine

/-! ## Legality -/

/-- Where the legality table says BAD, an unfaulted machine takes BAD_STATE (60_exceptions.md R345). -/
theorem whenLegal_badState {ok : Life → Bool} {d : Dev} {s : State} (W : Word) (r : Result)
    (h : ok (s.dev d).life = false) (hfault : s.faultCode = 0#8) :
    whenLegal ok d W s r = .next { s with faultCode := 2#8, faultWord := W } := by
  rw [whenLegal_bad _ _ _ _ _ h, raiseFault_of_none _ _ _ hfault]
  rfl

theorem legalInit_iff (l : Life) : legalInit l = true ↔ l = .conf ∨ l = .closed := by
  cases l <;> decide

theorem legalInit_eq_false_iff (l : Life) : legalInit l = false ↔ l = .unconf ∨ l = .run := by
  cases l <;> decide

theorem legalRun_iff (l : Life) : legalRun l = true ↔ l = .run := by
  cases l <;> decide

/-! ## CONFIGURE (R200) -/

theorem lifeConfigured_eq_ite (l : Life) : lifeConfigured l = if l = .unconf then .conf else l := by
  cases l <;> rfl

/-- Settles O18: CONFIGURE is one write of the device record, its lifecycle state by `lifeConfigured_eq_ite`. -/
theorem configureAssignsTheWiringFieldsOnly : Obligations.ConfigureAssignsTheWiringFieldsOnly := by
  intro d port route txm rxm s
  rw [← lifeConfigured_eq_ite]
  rfl

/-! ## INITIALIZE (R210, R212) -/

/-- Where it is legal, INITIALIZE starts the device and advances the cursor. -/
theorem exec_init_of_legal {d : Dev} {s : State} (baud : Half) (h : legalInit (s.dev d).life = true) :
    exec (.init d baud) s = .next (advancePc (startDevice d baud s)) :=
  whenLegal_ok _ _ _ _ _ h

/-- Starting a device wires its pins in the register of its own port and in no other (R212). -/
theorem gpioRead_startDevice (d : Dev) (baud : Half) (s : State) (p : Byte)
    (h : Memory.wf Space.gpio.unlisted s.gpioDir = true) :
    gpioRead (startDevice d baud s).gpioDir p =
      if p = (s.dev d).port then wiredDir (gpioRead s.gpioDir p) (s.dev d).rxmask (s.dev d).txmask
      else gpioRead s.gpioDir p := by
  rw [startDevice_eq, gpioRead_gpioWrite _ _ _ _ h]
  split
  · next hp => rw [hp]
  · rfl

/-- Settles O19: the device record and the frame by `startDevice_eq`, the ports by `gpioRead_startDevice`. -/
theorem initializeStartsTheDevice : Obligations.InitializeStartsTheDevice := by
  intro d baud s hwf
  refine ⟨fun hlife => ⟨_, exec_init_of_legal baud ((legalInit_iff _).2 hlife), ?_, ?_,
      fun p => gpioRead_startDevice d baud s p hwf, ?_⟩,
    fun hlife hfault => whenLegal_badState _ _ ((legalInit_eq_false_iff _).2 hlife) hfault⟩
  · rw [startDevice_eq]
    exact dev_setDev_same _ _ _
  · intro e he
    rw [startDevice_eq]
    exact dev_setDev_ne _ _ _ _ he.symm
  · rw [startDevice_eq]
    rfl

/-! ## CLOSE: its start step and its phases (R220 to R223) -/

/-- Settles O20: the legality check decides between the latched command and BAD_STATE. -/
theorem closeStartEntersTheDrainPhase : Obligations.CloseStartEntersTheDrainPhase := by
  intro d s
  refine ⟨fun hlife => ?_, fun hlife hfault => ?_⟩
  · exact whenLegal_ok _ _ _ _ _ ((legalRun_iff _).2 hlife)
  · exact whenLegal_badState _ _ (Bool.eq_false_iff.2 (mt (legalRun_iff _).1 hlife)) hfault

/-- Without a fault, the mainline may go on exactly where its phase is ready (44_environment.md R322). -/
theorem enabled_mainline_of_unfaulted {s : State} (h : s.faultCode = 0#8) : enabled .mainline s = mainlineReady s := by
  simp [enabled, h]

/-- The flag CLOSE waits on, by the parameter (R222). -/
theorem closeFlag_iff (w : CloseWait) (D : Device) :
    closeFlag w D = true ↔ (w = .dre ∧ D.hwDre = true) ∨ (w = .txc ∧ D.hwTxc = true) := by
  cases w <;> simp [closeFlag]

/-- Settles O21: in each phase of CLOSE the mainline is ready on the condition of that phase and takes its step. -/
theorem closePhasesWaitAndThenDisable : Obligations.ClosePhasesWaitAndThenDisable := by
  intro s hfault
  rw [enabled_mainline_of_unfaulted hfault]
  simp only [mainlineReady, take, mainlineStep]
  refine ⟨fun hphase => ?_, fun hphase => ?_, fun hphase => ?_⟩ <;> simp only [hphase]
  · exact ⟨ringEmpty_iff, rfl⟩
  · exact ⟨closeFlag_iff _ _, rfl⟩
  · exact ⟨trivial, rfl⟩

/-! ## Only CLOSE closes a device (R224) -/

/-- From `s` to `t` no device closes. -/
def ClosesNone (s t : State) : Prop := ∀ e, (t.dev e).life = .closed → (s.dev e).life = .closed

theorem ClosesNone.of_devs {s t : State} (h : t.devs = s.devs) : ClosesNone s t := by
  intro e he
  rwa [State.dev, h] at he

/-- A write of one device record closes no device where it does not close that one. -/
theorem ClosesNone.setDev {s : State} {d : Dev} {x : Device} (h : x.life = .closed → (s.dev d).life = .closed) :
    ClosesNone s (s.setDev d x) := by
  intro e he
  rw [dev_setDev] at he
  split at he
  · next hd => exact hd ▸ h he
  · exact he

theorem ClosesNone.setBuffer (s : State) (d : Dev) (sel : Sel) (B : RingBuffer) :
    ClosesNone s (s.setBuffer d sel B) := by
  cases sel <;> exact .setDev id

theorem ClosesNone.queueByte (s : State) (d : Dev) (b : Byte) : ClosesNone s (queueByte d b s) := by
  rw [queueByte_eq]
  exact .setDev id

theorem ClosesNone.raiseFault (c : FaultCode) (W : Word) (s : State) : ClosesNone s (raiseFault c W s) :=
  .of_devs (raiseFault_devs c W s)

theorem ClosesNone.whenLegal {ok : Life → Bool} {d : Dev} {W : Word} {s t : State} {r : Result}
    (ht : whenLegal ok d W s r = .next t) (h : r = .next t → ClosesNone s t) : ClosesNone s t := by
  rcases whenLegal_next _ _ _ _ _ _ ht with ⟨-, hr⟩ | ⟨-, rfl⟩
  · exact h hr
  · exact .raiseFault _ _ s

theorem ClosesNone.eventRx {d : Dev} {data status : Byte} {s t : State} (h : eventRx d data status s = some t) :
    ClosesNone s t := by
  obtain ⟨x, hx, rfl⟩ := eventRx_some _ _ _ _ _ h
  refine .setDev fun hlife => ?_
  unfold receive at hx
  split at hx
  · cases hx; exact hlife
  · split at hx
    · cases hx
    · cases hx; exact hlife

theorem ClosesNone.eventTxDone (d : Dev) (s : State) : ClosesNone s (eventTxDone d s) := by
  refine .setDev fun hlife => ?_
  unfold transmitDone at hlife
  split at hlife <;> exact hlife

theorem ClosesNone.openEvent (ev : EnvEvent) (s : State) : ClosesNone s (openEvent ev s) := by
  cases ev with
  | rx d data status =>
    simp only [Machine.openEvent]
    split
    · next t ht => exact .eventRx ht
    · exact .raiseFault _ _ s
  | txDone d => exact .eventTxDone d s
  | gie v => exact .of_devs rfl

theorem ClosesNone.serviceInstr {d : Dev} {k : Kind} {s t : State} (ht : exec (serviceInstr d k) s = .next t) :
    ClosesNone s t := by
  rw [exec_serviceInstr] at ht
  cases ht
  refine .setDev fun hlife => ?_
  cases k with
  | rxc =>
    simp only [serviceRecord, serviced] at hlife
    split at hlife <;> exact hlife
  | dre =>
    simp only [serviceRecord, drained] at hlife
    split at hlife <;> exact hlife

theorem lifeConfigured_closed (l : Life) : lifeConfigured l = .closed ↔ l = .closed := by
  cases l <;> decide

/-- No start step closes a device: CONFIGURE leaves UNCONF only, INITIALIZE enters RUN, the others write no lifecycle
register. -/
theorem ClosesNone.exec {i : Instr} {s t : State} (ht : exec i s = .next t) : ClosesNone s t := by
  cases i with
  | configure d port route txmask rxmask =>
    cases ht
    exact ClosesNone.setDev (lifeConfigured_closed _).1
  | init d baud =>
    refine .whenLegal ht fun hr => ?_
    cases hr
    rw [startDevice_eq]
    exact ClosesNone.setDev nofun
  | sendByte d b => exact .whenLegal ht fun hr => by cases hr; exact .of_devs rfl
  | sendSeq d bytes =>
    refine .whenLegal ht fun hr => ?_
    split at hr <;> cases hr <;> exact .of_devs rfl
  | readByte d =>
    refine .whenLegal ht fun hr => ?_
    split at hr
    · cases hr; exact ClosesNone.setBuffer s d .rx _
    · cases hr; exact ClosesNone.setDev id
  | rxCount d => exact .whenLegal ht fun hr => by cases hr; exact .of_devs rfl
  | close d => exact .whenLegal ht fun hr => by cases hr; exact .of_devs rfl
  | rbReset d sel => exact .whenLegal ht fun hr => by cases hr; exact ClosesNone.setBuffer s d sel _
  | rbInsert d sel b =>
    refine .whenLegal ht fun hr => ?_
    split at hr
    · cases hr; exact .raiseFault _ _ s
    · cases hr; exact ClosesNone.setBuffer s d sel _
  | rbRemove d sel =>
    refine .whenLegal ht fun hr => ?_
    split at hr
    · cases hr; exact .raiseFault _ _ s
    · cases hr; exact ClosesNone.setBuffer s d sel _
  | rbFull d sel => exact .whenLegal ht fun hr => by cases hr; exact .of_devs rfl
  | rbEmpty d sel => exact .whenLegal ht fun hr => by cases hr; exact .of_devs rfl
  | envRx d data status =>
    simp only [Machine.exec, execEnvRx] at ht
    split at ht
    · next u hu => cases ht; exact ClosesNone.eventRx (t := u) hu
    · cases ht; exact .raiseFault _ _ s
  | envTxDone d => cases ht; exact ClosesNone.eventTxDone d s
  | envGie v => cases ht; exact .of_devs rfl
  | rxc d => exact .serviceInstr (k := .rxc) ht
  | dre d => exact .serviceInstr (k := .dre) ht

theorem ClosesNone.consumeItem {s t : State} (ht : consumeItem s = .next t) : ClosesNone s t := by
  cases hW : nextItem s with
  | none => simp [Machine.consumeItem, hW] at ht
  | some W =>
    rw [consumeItem_of_nextItem hW] at ht
    rcases consumeWord_next ht with ⟨i, -, hexec⟩ | rfl
    · exact .exec hexec
    · exact .raiseFault _ _ s

/-- A mainline continuation closes no device but by CLOSE's last step, and that one only the device of the command. -/
theorem closeSettle_of_mainlineStep_closed {s : State} {d : Dev} (hopen : (s.dev d).life ≠ .closed)
    (hclosed : ((mainlineStep s).dev d).life = .closed) : s.mphase = .closeSettle ∧ mcurDev s = d := by
  have hdev : mcurDev s = d := by
    by_contra hne
    rw [mainlineStep_dev_ne hne] at hclosed
    exact hopen hclosed
  refine ⟨?_, hdev⟩
  unfold mainlineStep at hclosed
  cases hphase : s.mphase with
  | closeSettle => rfl
  | idle => simp only [hphase] at hclosed; exact absurd hclosed hopen
  | sendWait =>
    simp only [hphase] at hclosed
    exact absurd (ClosesNone.queueByte s _ _ d hclosed) hopen
  | seq =>
    simp only [hphase, sendSeqStep] at hclosed
    split at hclosed <;> exact absurd (ClosesNone.queueByte s _ _ d hclosed) hopen
  | closeDrain => simp only [hphase] at hclosed; exact absurd hclosed hopen
  | closeHw => simp only [hphase] at hclosed; exact absurd hclosed hopen

/-- A step of any agent that closes a device is CLOSE's last step, of a CLOSE of that device. -/
theorem closeSettle_of_take_closed {c : Choice} {s t : State} {d : Dev} (ht : take c s = .next t)
    (hopen : (s.dev d).life ≠ .closed) (hclosed : (t.dev d).life = .closed) :
    s.mphase = .closeSettle ∧ mcurDev s = d := by
  cases c with
  | mainline => cases ht; exact closeSettle_of_mainlineStep_closed hopen hclosed
  | item => exact absurd (ClosesNone.consumeItem ht d hclosed) hopen
  | rxc e => exact absurd (ClosesNone.exec (i := .rxc e) ht d hclosed) hopen
  | dre e => exact absurd (ClosesNone.exec (i := .dre e) ht d hclosed) hopen
  | event ev => cases ht; exact absurd (ClosesNone.openEvent ev s d hclosed) hopen

/-- Settles O55: what CLOSE waited for is part of the invariant (`CloseOk`), and only its last step closes a device
(`closeSettle_of_take_closed`). -/
theorem closeReturnsOnlyAfterTheDrain : Obligations.CloseReturnsOnlyAfterTheDrain := by
  constructor
  · intro s hs hphase
    have hclosing := hs.inv.closing
    exact ⟨hclosing.drained (.inr hphase), hclosing.waited hphase⟩
  · intro s t d _ ht hopen hclosed
    rcases step_cases ht with ⟨c, rest, -, htake⟩ | ⟨hstop, -⟩
    · exact closeSettle_of_take_closed (s := { s with sched := rest }) htake.symm hopen hclosed
    · cases hstop

end Sys2Proof.Machine
end

section
/-! PROOFS. The transfer commands SEND_BYTE, SEND_SEQ, READ_BYTE and RX_COUNT (42_transfer.md R240 to R260), and the
stream of bytes a running device sends. -/

namespace Sys2Proof.Machine

/-! ## Legality -/

/-- In RUN a command of the running device does what its rule says. -/
theorem whenLegal_run {d : Dev} {s : State} (W : Word) (r : Result) (h : (s.dev d).life = .run) :
    whenLegal legalRun d W s r = r :=
  whenLegal_ok _ _ _ _ _ ((legalRun_iff _).2 h)

/-- Out of RUN a command of the running device is BAD_STATE. -/
theorem whenLegal_run_badState {d : Dev} {s : State} (W : Word) (r : Result) (h : (s.dev d).life ≠ .run)
    (hfault : s.faultCode = 0#8) :
    whenLegal legalRun d W s r = .next { s with faultCode := 2#8, faultWord := W } :=
  whenLegal_badState _ _ (Bool.eq_false_iff.2 (mt (legalRun_iff _).1 h)) hfault

theorem legalRead_eq_false_iff (l : Life) : legalRead l = false ↔ l = .unconf ∨ l = .conf := by
  cases l <;> decide

/-! ## The start steps of SEND_BYTE and SEND_SEQ (R240, R245) -/

/-- Settles O22: the legality check decides between the latched command and BAD_STATE. -/
theorem sendByteStartLatchesTheCommand : Obligations.SendByteStartLatchesTheCommand :=
  fun _ _ _ => ⟨fun hlife => whenLegal_run _ _ hlife, fun hlife hfault => whenLegal_run_badState _ _ hlife hfault⟩

/-- Settles O24: where the command is legal, the number of its bytes decides whether it latches. -/
theorem sendSeqStartLatchesTheCommand : Obligations.SendSeqStartLatchesTheCommand := by
  intro d bytes s _
  refine ⟨fun hlife hnil => ?_, fun hlife hne => ?_, fun hlife hfault => whenLegal_run_badState _ _ hlife hfault⟩
  · exact (whenLegal_run _ _ hlife).trans (if_pos (List.length_eq_zero_iff.2 hnil))
  · exact (whenLegal_run _ _ hlife).trans (if_neg (mt List.length_eq_zero_iff.1 hne))

/-! ## Queueing a byte for transmission (R241, R246) -/

theorem txHasRoom_iff (s : State) : txHasRoom s = true ↔ (s.dev (mcurDev s)).tx.cnt < s.cap :=
  decide_eq_true_iff

/-- A mainline that has a byte to queue may go on exactly where TX of the command's device has room. -/
theorem enabled_mainline_iff_room {s : State} (hfault : s.faultCode = 0#8)
    (hphase : s.mphase = .sendWait ∨ s.mphase = .seq) :
    enabled .mainline s = true ↔ (s.dev (mcurDev s)).tx.cnt < s.cap := by
  rw [enabled_mainline_of_unfaulted hfault, ← txHasRoom_iff]
  rcases hphase with h | h <;> simp only [mainlineReady, h]

theorem dev_queueByte_same (d : Dev) (b : Byte) (s : State) :
    (queueByte d b s).dev d = { s.dev d with tx := ringInsert s.cap (s.dev d).tx b, dreie := true } := by
  rw [queueByte_eq, dev_setDev_same]

/-- Arming `dreie` touches no storage: queueing a byte writes the storage that inserting it writes. -/
theorem storageByte_queueByte (d : Dev) (b : Byte) (s : State) (e : Dev) (sel : Sel) (i : Nat) :
    (queueByte d b s).storageByte e sel i = (insertByte d .tx b s).storageByte e sel i := by
  rw [queueByte_eq, insertByte_tx]
  by_cases he : d = e
  · subst he
    cases sel <;> simp [State.storageByte]
  · cases sel <;> simp [State.storageByte, dev_setDev_ne, he]

/-- From `s` to `t` TX of device `d` takes the byte `b` at `hin`, and no other byte of any storage changes. -/
def StoresInTx (d : Dev) (b : Byte) (s t : State) : Prop :=
  (∀ e sel i, t.storageByte e sel i =
      if e = d ∧ sel = .tx ∧ i = insertSlot (s.dev d).tx then b else s.storageByte e sel i)
  ∧ (t.dev d).tx.hin = (insertSlot (s.dev d).tx + 1) &&& (s.cap - 1)
  ∧ (t.dev d).tx.hout = (s.dev d).tx.hout
  ∧ (t.dev d).tx.cnt = (s.dev d).tx.cnt + 1

theorem storesInTx_queueByte (d : Dev) (b : Byte) (s : State)
    (hwf : Memory.wf Space.storage.unlisted (s.dev d).tx.buf = true) : StoresInTx d b s (queueByte d b s) := by
  refine ⟨fun e sel i => ?_, ?_⟩
  · rw [storageByte_queueByte]
    exact storageByte_insertByte d .tx b s e sel i hwf
  · rw [dev_queueByte_same]
    exact ⟨rfl, rfl, rfl⟩

/-- The devices alone decide what is stored. -/
theorem StoresInTx.of_devs {d : Dev} {b : Byte} {s t u : State} (h : StoresInTx d b s t) (hdevs : u.devs = t.devs) :
    StoresInTx d b s u := by
  unfold StoresInTx State.storageByte State.buffer State.dev at *
  rwa [hdevs]

/-- A queued byte as one write of the device record, its TX read back from the state after it. -/
theorem queueByte_eq_of_devs {d : Dev} {b : Byte} {s t : State} (hdevs : t.devs = (queueByte d b s).devs) :
    queueByte d b s = s.setDev d { s.dev d with tx := (t.dev d).tx, dreie := true } := by
  have hdev : t.dev d = (queueByte d b s).dev d := congrArg (·[d]) hdevs
  rw [hdev, dev_queueByte_same, queueByte_eq]

/-! ## The completion step of SEND_BYTE (R241) -/

theorem take_mainline_sendWait {s : State} (h : s.mphase = .sendWait) :
    take .mainline s = .next (sendByteStep s) := by
  simp [take, mainlineStep, h]

/-- Settles O23: the mainline is ready where TX has room, and its step queues the latched byte. -/
theorem sendByteCompletionStoresAndArms : Obligations.SendByteCompletionStoresAndArms := by
  intro s hfault hphase
  refine ⟨enabled_mainline_iff_room hfault (.inl hphase),
    fun hwf _ => ⟨sendByteStep s, take_mainline_sendWait hphase, ?_⟩⟩
  have hdevs : (sendByteStep s).devs = (queueByte (devField s.mcur) (mcurByte s) s).devs := rfl
  obtain ⟨hstorage, hhin, hhout, hcnt⟩ := (storesInTx_queueByte _ _ s hwf).of_devs hdevs
  refine ⟨hstorage, hhin, hhout, hcnt, ?_⟩
  rw [← queueByte_eq_of_devs hdevs]
  rfl

/-! ## The byte step of SEND_SEQ (R246) -/

theorem take_mainline_seq {s : State} (h : s.mphase = .seq) : take .mainline s = .next (sendSeqStep s) := by
  simp [take, mainlineStep, h]

theorem sendSeqStep_devs (s : State) :
    (sendSeqStep s).devs = (queueByte (mcurDev s) (mcurSeqByte s) s).devs := by
  unfold sendSeqStep
  split <;> rfl

theorem sendSeqStep_cap (s : State) : (sendSeqStep s).cap = s.cap := by
  unfold sendSeqStep
  split <;> rfl

theorem sendSeqStep_of_last {s : State} (h : s.mseq + 1#3 = mcurCount s) : sendSeqStep s =
    { queueByte (mcurDev s) (mcurSeqByte s) s with mphase := .idle, mseq := 0#3, mcur := 0#64 } :=
  if_pos h

theorem sendSeqStep_of_not_last {s : State} (h : s.mseq + 1#3 ≠ mcurCount s) : sendSeqStep s =
    { queueByte (mcurDev s) (mcurSeqByte s) s with mseq := s.mseq + 1#3 } :=
  if_neg h

/-- Settles O25: the mainline is ready where TX has room, its step queues byte `mseq` (`sendSeqStep_devs`), and the
count decides what becomes of the latches. -/
theorem sendSeqByteStepStoresAndArms : Obligations.SendSeqByteStepStoresAndArms := by
  intro s hfault hphase
  refine ⟨enabled_mainline_iff_room hfault (.inr hphase),
    fun hwf _ => ⟨sendSeqStep s, take_mainline_seq hphase, ?_⟩⟩
  have hdevs : (sendSeqStep s).devs = (queueByte (devField s.mcur) (mcurSeqByte s) s).devs := sendSeqStep_devs s
  obtain ⟨hstorage, hhin, hhout, hcnt⟩ := (storesInTx_queueByte _ _ s hwf).of_devs hdevs
  refine ⟨hstorage, hhin, hhout, hcnt, ?_⟩
  rw [← queueByte_eq_of_devs hdevs]
  exact ⟨sendSeqStep_of_not_last, sendSeqStep_of_last⟩

/-! ## READ_BYTE (R250 to R252) -/

theorem exec_readByte_of_pos {d : Dev} {s : State} (hlife : (s.dev d).life = .run ∨ (s.dev d).life = .closed)
    (hany : 0 < (s.dev d).rx.cnt) : exec (.readByte d) s = .next (advancePc (readData d s)) :=
  (whenLegal_ok _ _ _ _ _ ((legalRead_iff _).2 hlife)).trans (if_pos hany)

theorem exec_readByte_of_empty {d : Dev} {s : State} (hlife : (s.dev d).life = .run ∨ (s.dev d).life = .closed)
    (hempty : (s.dev d).rx.cnt = 0) : exec (.readByte d) s = .next (advancePc (readNodata d s)) :=
  (whenLegal_ok _ _ _ _ _ ((legalRead_iff _).2 hlife)).trans (if_neg hempty.not_gt)

/-- Settles O26: the statement is `read_data` written out. -/
theorem readByteReturnsTheOldestByteWithFlags : Obligations.ReadByteReturnsTheOldestByteWithFlags :=
  fun _ _ hlife hany => exec_readByte_of_pos hlife hany

/-- Settles O27: the low byte is the one `read_nodata` draws, and the counter is one more. -/
theorem emptyReadSetsAndReportsNoData : Obligations.EmptyReadSetsAndReportsNoData := by
  intro d s hlife hempty
  refine ⟨Config.freeByte s.draws, s.draws + 1, ?_⟩
  rw [exec_readByte_of_empty hlife hempty, readNodata_eq]
  rfl

/-! ## RX_COUNT (R260) -/

/-- Settles O28: a count within the capacity fits the 16 bits of the result (`cap_le`). -/
theorem rxCountEmitsTheCount : Obligations.RxCountEmitsTheCount := by
  intro d s
  refine ⟨fun hlife hcnt => ⟨BitVec.ofNat 16 (s.dev d).rx.cnt, ?_, ?_⟩, fun hlife hfault => ?_⟩
  · have hcap : s.cap ≤ 32768 := cap_le s.cfg
    rw [BitVec.toNat_ofNat, Nat.mod_eq_of_lt (by omega)]
  · exact whenLegal_ok _ _ _ _ _ ((legalRead_iff _).2 hlife)
  · exact whenLegal_badState _ _ ((legalRead_eq_false_iff _).2 hlife) hfault

/-! ## The transmit stream (R242, R247) -/

/-- What a device has sent and will send: the bytes on its line, and after them the bytes in its TX. -/
def State.txStream (s : State) (d : Dev) : List Byte := (s.dev d).txLog ++ s.contents d .tx

/-- From `s` to `t` no running device's transmit stream changes. -/
def KeepsStream (s t : State) : Prop := ∀ e, (s.dev e).life = .run → t.txStream e = s.txStream e

/-- The stream is read off the device record and the capacity. -/
theorem txStream_congr {s t : State} {e : Dev} (hcap : t.cap = s.cap) (hdev : t.dev e = s.dev e) :
    t.txStream e = s.txStream e := by
  unfold State.txStream State.contents
  rw [buffer_tx, buffer_tx, hcap, hdev]

theorem KeepsStream.of_devs {s t : State} (hcap : t.cap = s.cap) (hdevs : t.devs = s.devs) : KeepsStream s t :=
  fun e _ => txStream_congr hcap (congrArg (·[e]) hdevs)

/-- A write of one device record keeps every stream where it keeps that device's, if that one runs. -/
theorem KeepsStream.setDev {s : State} {d : Dev} {x : Device}
    (h : (s.dev d).life = .run → (s.setDev d x).txStream d = s.txStream d) : KeepsStream s (s.setDev d x) := by
  intro e hrun
  by_cases he : d = e
  · subst he
    exact h hrun
  · exact txStream_congr rfl (dev_setDev_ne _ _ _ _ he)

/-- TX and the line are all of a device record that its stream depends on. -/
theorem txStream_setDev_of_line {s : State} {d : Dev} {x : Device} (htx : x.tx = (s.dev d).tx)
    (hlog : x.txLog = (s.dev d).txLog) : (s.setDev d x).txStream d = s.txStream d := by
  unfold State.txStream State.contents
  rw [buffer_tx, buffer_tx, dev_setDev_same, htx, hlog, setDev_cap]

theorem KeepsStream.setDev_of_line {s : State} {d : Dev} {x : Device} (htx : x.tx = (s.dev d).tx)
    (hlog : x.txLog = (s.dev d).txLog) : KeepsStream s (s.setDev d x) :=
  .setDev fun _ => txStream_setDev_of_line htx hlog

/-- A write of a device that does not run keeps the stream of those that do. -/
theorem KeepsStream.setDev_of_ne_run {s : State} {d : Dev} {x : Device} (h : (s.dev d).life ≠ .run) :
    KeepsStream s (s.setDev d x) :=
  .setDev fun hrun => absurd hrun h

theorem KeepsStream.setBuffer_of_ne_run {s : State} {d : Dev} (sel : Sel) (B : RingBuffer)
    (h : (s.dev d).life ≠ .run) : KeepsStream s (s.setBuffer d sel B) := by
  cases sel <;> exact .setDev_of_ne_run h

theorem KeepsStream.raiseFault (c : FaultCode) (W : Word) (s : State) : KeepsStream s (raiseFault c W s) :=
  .of_devs (raiseFault_cap c W s) (raiseFault_devs c W s)

theorem KeepsStream.whenLegal {ok : Life → Bool} {d : Dev} {W : Word} {s t : State} {r : Result}
    (ht : whenLegal ok d W s r = .next t) (h : ok (s.dev d).life = true → r = .next t → KeepsStream s t) :
    KeepsStream s t := by
  rcases whenLegal_next _ _ _ _ _ _ ht with ⟨hlegal, hr⟩ | ⟨-, rfl⟩
  · exact h hlegal hr
  · exact .raiseFault _ _ s

theorem KeepsStream.eventRx {d : Dev} {data status : Byte} {s t : State} (h : eventRx d data status s = some t) :
    KeepsStream s t := by
  obtain ⟨x, hx, rfl⟩ := eventRx_some _ _ _ _ _ h
  unfold receive at hx
  split at hx
  · cases hx; exact .setDev_of_line rfl rfl
  · split at hx
    · cases hx
    · cases hx; exact .setDev_of_line rfl rfl

theorem KeepsStream.eventTxDone (d : Dev) (s : State) : KeepsStream s (eventTxDone d s) := by
  refine .setDev_of_line ?_ ?_ <;> unfold transmitDone <;> split <;> rfl

theorem KeepsStream.openEvent (ev : EnvEvent) (s : State) : KeepsStream s (openEvent ev s) := by
  cases ev with
  | rx d data status =>
    simp only [Machine.openEvent]
    split
    · next t ht => exact .eventRx ht
    · exact .raiseFault _ _ s
  | txDone d => exact .eventTxDone d s
  | gie v => exact .of_devs rfl rfl

/-- RXC writes RX and flags only. -/
theorem KeepsStream.rxc {d : Dev} {s t : State} (ht : exec (.rxc d) s = .next t) : KeepsStream s t := by
  have hexec : exec (.rxc d) s = .next (s.setDev d (serviced s.cap (s.dev d))) := execRxc_eq d s
  rw [hexec] at ht
  cases ht
  refine .setDev_of_line ?_ ?_ <;> unfold serviced <;> split <;> rfl

/-- DRE moves the oldest byte of TX to the end of the line, which is where it stands in the stream. -/
theorem txStream_transmitByte {d : Dev} {s : State} (hok : (s.dev d).tx.Ok s.cap) (hany : 0 < (s.dev d).tx.cnt) :
    (transmitByte d s).txStream d = s.txStream d := by
  have hdrop : s.contents d .tx =
      headByte d .tx s :: ringContents s.cap (powerOnFill d .tx) (ringDrop s.cap (s.dev d).tx) :=
    ringContents_ringDrop s.cfg _ _ hok hany
  rw [State.txStream, State.txStream, State.contents, buffer_tx, transmitByte_eq, dev_setDev_same, hdrop, setDev_cap,
    List.append_assoc, List.singleton_append]

theorem KeepsStream.dre {d : Dev} {s t : State} (hok : (s.dev d).tx.Ok s.cap) (ht : exec (.dre d) s = .next t) :
    KeepsStream s t := by
  change execDre d s = .next t at ht
  unfold execDre at ht
  split at ht
  · next hany =>
    cases ht
    have hstream := txStream_transmitByte hok hany
    rw [transmitByte_eq] at hstream ⊢
    exact .setDev fun _ => hstream
  · cases ht
    exact .setDev_of_line rfl rfl

/-- No start step and no service step changes the stream of a running device: those that write TX other than to move
its oldest byte to the line are illegal in RUN. -/
theorem KeepsStream.exec {i : Instr} {s t : State} (h : Inv s) (ht : exec i s = .next t) : KeepsStream s t := by
  cases i with
  | configure d port route txmask rxmask => cases ht; exact KeepsStream.setDev_of_line (s := s) rfl rfl
  | init d baud =>
    refine .whenLegal ht fun hlegal hr => ?_
    cases hr
    rw [startDevice_eq]
    have hstopped : (s.dev d).life ≠ .run := fun hrun => by rw [hrun] at hlegal; cases hlegal
    exact KeepsStream.setDev_of_ne_run hstopped
  | sendByte d b => exact .whenLegal ht fun _ hr => by cases hr; exact .of_devs rfl rfl
  | sendSeq d bytes =>
    refine .whenLegal ht fun _ hr => ?_
    split at hr <;> cases hr <;> exact .of_devs rfl rfl
  | readByte d =>
    refine .whenLegal ht fun _ hr => ?_
    split at hr <;> cases hr <;> exact KeepsStream.setDev_of_line (s := s) (d := d) rfl rfl
  | rxCount d => exact .whenLegal ht fun _ hr => by cases hr; exact .of_devs rfl rfl
  | close d => exact .whenLegal ht fun _ hr => by cases hr; exact .of_devs rfl rfl
  | rbReset d sel =>
    refine .whenLegal ht fun hlegal hr => ?_
    cases hr
    exact KeepsStream.setBuffer_of_ne_run sel _ ((legalTestPort_iff _).1 hlegal)
  | rbInsert d sel b =>
    refine .whenLegal ht fun hlegal hr => ?_
    split at hr
    · cases hr; exact .raiseFault _ _ s
    · cases hr; exact KeepsStream.setBuffer_of_ne_run sel _ ((legalTestPort_iff _).1 hlegal)
  | rbRemove d sel =>
    refine .whenLegal ht fun hlegal hr => ?_
    split at hr
    · cases hr; exact .raiseFault _ _ s
    · cases hr; exact KeepsStream.setBuffer_of_ne_run sel _ ((legalTestPort_iff _).1 hlegal)
  | rbFull d sel => exact .whenLegal ht fun _ hr => by cases hr; exact .of_devs rfl rfl
  | rbEmpty d sel => exact .whenLegal ht fun _ hr => by cases hr; exact .of_devs rfl rfl
  | envRx d data status =>
    simp only [Machine.exec, execEnvRx] at ht
    split at ht
    · next u hu => cases ht; exact KeepsStream.eventRx (t := u) hu
    · cases ht; exact .raiseFault _ _ s
  | envTxDone d => cases ht; exact KeepsStream.eventTxDone d s
  | envGie v => cases ht; exact .of_devs rfl rfl
  | rxc d => exact .rxc ht
  | dre d => exact .dre (h.devices d).tx ht

theorem KeepsStream.consumeItem {s t : State} (h : Inv s) (ht : consumeItem s = .next t) : KeepsStream s t := by
  cases hW : nextItem s with
  | none => simp [Machine.consumeItem, hW] at ht
  | some W =>
    rw [consumeItem_of_nextItem hW] at ht
    rcases consumeWord_next ht with ⟨i, -, hexec⟩ | rfl
    · exact .exec h hexec
    · exact .raiseFault _ _ s

/-! ## The bytes sent -/

/-- Queueing a byte appends it to the stream of its device. -/
theorem txStream_queueByte {d : Dev} {s : State} (b : Byte) (hok : (s.dev d).tx.Ok s.cap)
    (hroom : (s.dev d).tx.cnt < s.cap) : (queueByte d b s).txStream d = s.txStream d ++ [b] := by
  have hinsert : ringContents s.cap (powerOnFill d .tx) (ringInsert s.cap (s.dev d).tx b) =
      s.contents d .tx ++ [b] :=
    ringContents_ringInsert s.cap _ _ b hok hroom
  rw [State.txStream, State.txStream, State.contents, buffer_tx, dev_queueByte_same, queueByte_eq, setDev_cap, hinsert,
    List.append_assoc]

/-- The bytes the next mainline continuation inserts into TX of a device: the latched byte of SEND_BYTE, byte `mseq`
of SEND_SEQ, none in any other phase and on any other device. -/
def mainlineSends (s : State) (d : Dev) : List Byte :=
  if mcurDev s = d then
    match s.mphase with
    | .sendWait => [mcurByte s]
    | .seq => [mcurSeqByte s]
    | .idle => []
    | .closeDrain => []
    | .closeHw => []
    | .closeSettle => []
  else []

theorem mainlineStep_cap (s : State) : (mainlineStep s).cap = s.cap := by
  unfold mainlineStep
  cases s.mphase with
  | idle => rfl
  | sendWait => rfl
  | seq => exact sendSeqStep_cap s
  | closeDrain => rfl
  | closeHw => rfl
  | closeSettle => rfl

/-- CLOSE's last step writes the enables and the lifecycle register only (41_lifecycle.md R223). -/
theorem txStream_closeSettleStep (s : State) : (closeSettleStep s).txStream (mcurDev s) = s.txStream (mcurDev s) :=
  txStream_setDev_of_line (x := { disableAll (s.dev (mcurDev s)) with life := .closed }) rfl rfl

/-- A mainline continuation appends to the streams what it inserts. -/
theorem txStream_mainlineStep {s : State} (h : Inv s) (hready : mainlineReady s = true) (d : Dev) :
    (mainlineStep s).txStream d = s.txStream d ++ mainlineSends s d := by
  by_cases hd : mcurDev s = d
  · subst hd
    have hqueue : ∀ b, txHasRoom s = true →
        (queueByte (mcurDev s) b s).txStream (mcurDev s) = s.txStream (mcurDev s) ++ [b] :=
      fun b hroom => txStream_queueByte b (h.devices _).tx ((txHasRoom_iff s).1 hroom)
    unfold mainlineReady at hready
    rw [mainlineSends, if_pos rfl]
    unfold mainlineStep
    cases hphase : s.mphase with
    | idle => exact (List.append_nil _).symm
    | sendWait => rw [hphase] at hready; exact hqueue _ hready
    | seq =>
      rw [hphase] at hready
      rw [← hqueue _ hready]
      exact txStream_congr (sendSeqStep_cap s) (congrArg (·[mcurDev s]) (sendSeqStep_devs s))
    | closeDrain => exact (List.append_nil _).symm
    | closeHw => exact (List.append_nil _).symm
    | closeSettle => exact (txStream_closeSettleStep s).trans (List.append_nil _).symm
  · rw [mainlineSends, if_neg hd, List.append_nil, txStream_congr (mainlineStep_cap s) (mainlineStep_dev_ne hd)]

/-- What the mainline inserts is nothing, or the byte of the SEND_BYTE or SEND_SEQ in flight on the device. -/
theorem mainlineSends_cases (s : State) (d : Dev) :
    mainlineSends s d = []
    ∨ (s.mphase = .sendWait ∧ mcurDev s = d ∧ mainlineSends s d = [mcurByte s])
    ∨ (s.mphase = .seq ∧ mcurDev s = d ∧ mainlineSends s d = [mcurSeqByte s]) := by
  by_cases hd : mcurDev s = d
  · rw [mainlineSends, if_pos hd]
    cases hphase : s.mphase with
    | idle => exact .inl rfl
    | sendWait => exact .inr (.inl ⟨rfl, hd, rfl⟩)
    | seq => exact .inr (.inr ⟨rfl, hd, rfl⟩)
    | closeDrain => exact .inl rfl
    | closeHw => exact .inl rfl
    | closeSettle => exact .inl rfl
  · exact .inl (if_neg hd)

/-- Every step but a mainline continuation keeps the streams. -/
theorem KeepsStream.take {c : Choice} {s t : State} (h : Inv s) (hc : c ≠ .mainline) (ht : take c s = .next t) :
    KeepsStream s t := by
  cases c with
  | item => exact .consumeItem h ht
  | mainline => exact absurd rfl hc
  | rxc d => exact .rxc ht
  | dre d => exact .dre (h.devices d).tx ht
  | event ev => cases ht; exact .openEvent ev s

/-- Settles O56: a mainline continuation appends the byte it inserts (`txStream_mainlineStep`), and every other step
keeps the stream (`KeepsStream.take`); the schedule is no part of a stream. -/
theorem transmitStreamOnlyGrowsBySentBytes : Obligations.TransmitStreamOnlyGrowsBySentBytes := by
  intro s t d h hstep hrun
  rcases step_cases hstep with ⟨c, rest, hc, htake⟩ | ⟨hstop, -⟩
  · by_cases hmain : c = .mainline
    · subst hmain
      cases htake
      have hready : mainlineReady { s with sched := rest } = true :=
        (enabled_mainline_of_unfaulted (faultCode_of_enabled hc)).symm.trans hc
      exact ⟨mainlineSends s d, txStream_mainlineStep (h.sched rest) hready d, mainlineSends_cases s d⟩
    · have hkeeps : t.txStream d = s.txStream d := KeepsStream.take (h.sched rest) hmain htake.symm d hrun
      exact ⟨[], hkeeps.trans (List.append_nil _).symm, .inl rfl⟩
  · cases hstop

end Sys2Proof.Machine
end

section
/-! PROOFS. The interrupt-service steps RXC and DRE: when they are enabled and what each does (43_isr.md R280 to
R293). -/

namespace Sys2Proof.Machine

/-! ## When a service step is enabled (R280, R290) -/

/-- RXC of a device of the machine may be taken exactly where its source is pending and enabled (R280). -/
theorem enabled_rxc_iff {d : Dev} {s : State} (hd : d.val < s.cfg.ndev) :
    enabled (.rxc d) s = true ↔ s.faultCode = 0#8 ∧ s.gie = true ∧ (s.dev d).rxcie = true ∧ (s.dev d).rxen = true
      ∧ (s.dev d).hwRxp = true := by
  simp [enabled, rxcPending, hd, and_assoc]

/-- DRE of a device of the machine may be taken exactly where its source is pending and enabled (R290). -/
theorem enabled_dre_iff {d : Dev} {s : State} (hd : d.val < s.cfg.ndev) :
    enabled (.dre d) s = true ↔ s.faultCode = 0#8 ∧ s.gie = true ∧ (s.dev d).dreie = true ∧ (s.dev d).txen = true
      ∧ (s.dev d).hwDre = true := by
  simp [enabled, drePending, hd, and_assoc]

/-- Taking a service step is the meaning of its instruction. -/
theorem take_serviceChoice (d : Dev) (k : Kind) (s : State) :
    take (serviceChoice d k) s = exec (serviceInstr d k) s := by
  cases k <;> rfl

/-- Settles O34: the conditions by `enabled_rxc_iff` and `enabled_dre_iff`, completion by `exec_serviceInstr`. -/
theorem serviceStepsAreEnabledByTheirConditions : Obligations.ServiceStepsAreEnabledByTheirConditions :=
  fun d s hd => ⟨enabled_rxc_iff hd, enabled_dre_iff hd,
    fun k => ⟨_, (take_serviceChoice d k s).trans (exec_serviceInstr d k s)⟩⟩

/-! ## What RXC leaves (R281 to R283) -/

theorem exec_rxc (d : Dev) (s : State) : exec (.rxc d) s = .next (s.setDev d (serviced s.cap (s.dev d))) :=
  execRxc_eq d s

theorem serviced_of_lt {cap : Nat} {D : Device} (h : D.rx.cnt < cap) :
    serviced cap D = { D with hwRxp := false, rx := ringInsert cap D.rx D.hwRxd, err := captureFlags D.hwRxs } :=
  if_pos h

theorem serviced_of_ge {cap : Nat} {D : Device} (h : cap ≤ D.rx.cnt) :
    serviced cap D = { D with hwRxp := false, err := dropFlags D.hwRxs } :=
  if_neg h.not_gt

/-- RXC writes neither TX nor the transmit side of the peripheral. -/
theorem serviced_tx (cap : Nat) (D : Device) : (serviced cap D).tx = D.tx := by
  unfold serviced
  split <;> rfl

theorem serviced_hwDre (cap : Nat) (D : Device) : (serviced cap D).hwDre = D.hwDre := by
  unfold serviced
  split <;> rfl

/-- The storage of the machine is that of the buffers: records with the same buffers hold the same bytes. -/
theorem storageByte_setDev_congr {s : State} {d : Dev} {x y : Device} (hrx : x.rx = y.rx) (htx : x.tx = y.tx)
    (e : Dev) (sel : Sel) (i : Nat) : (s.setDev d x).storageByte e sel i = (s.setDev d y).storageByte e sel i := by
  by_cases he : d = e
  · subst he
    cases sel <;> simp [State.storageByte, hrx, htx]
  · cases sel <;> simp [State.storageByte, dev_setDev_ne, he]

/-- Settles O30: RXC is one write of its device's record (`exec_rxc`), which stores what inserting the received byte
stores (`storageByte_insertByte`). -/
theorem rxcStoresOrDropsTheReceivedByte : Obligations.RxcStoresOrDropsTheReceivedByte := by
  intro d s hwf
  rw [exec_rxc]
  refine ⟨fun hroom => ⟨_, rfl, ?_⟩, fun hfull => by rw [serviced_of_ge hfull]; rfl⟩
  rw [serviced_of_lt hroom, dev_setDev_same]
  refine ⟨fun e sel i => ?_, rfl, rfl, rfl, rfl⟩
  refine (storageByte_setDev_congr ?_ ?_ e sel i).trans (storageByte_insertByte d .rx (s.dev d).hwRxd s e sel i hwf)
  · rfl
  · rfl

/-! ## What DRE leaves (R291, R292) -/

theorem exec_dre (d : Dev) (s : State) :
    exec (.dre d) s = .next (s.setDev d (drained s.cap (headByte d .tx s) (s.dev d))) :=
  execDre_eq d s

theorem drained_of_pos {cap : Nat} {D : Device} (b : Byte) (h : 0 < D.tx.cnt) :
    drained cap b D =
      { D with tx := ringDrop cap D.tx, hwTxd := b, hwDre := false, hwTxc := false, txLog := D.txLog ++ [b] } :=
  if_pos h

theorem drained_of_empty {cap : Nat} {D : Device} (b : Byte) (h : D.tx.cnt = 0) :
    drained cap b D = { D with dreie := false } :=
  if_neg h.not_gt

/-- DRE writes neither RX nor `err`. -/
theorem drained_rx (cap : Nat) (b : Byte) (D : Device) : (drained cap b D).rx = D.rx := by
  unfold drained
  split <;> rfl

theorem drained_err (cap : Nat) (b : Byte) (D : Device) : (drained cap b D).err = D.err := by
  unfold drained
  split <;> rfl

/-- Settles O31: DRE is one write of its device's record (`exec_dre`), by the count of TX. -/
theorem dreTransmitsOrDisarms : Obligations.DreTransmitsOrDisarms := by
  intro d s
  rw [exec_dre]
  exact ⟨fun hany => by rw [drained_of_pos _ hany]; rfl, fun hempty => by rw [drained_of_empty _ hempty]⟩

/-- Settles O54: armed while pending is part of the invariant of a device (`Device.Ok.armed`). -/
theorem pendingTransmitIsArmedInEveryReachableState : Obligations.PendingTransmitIsArmedInEveryReachableState :=
  fun _ d hs _ hrun hany => (hs.inv.devices d).armed hrun hany

end Sys2Proof.Machine
end

section
/-! PROOFS. The traffic of a running device: what a step can do to its buffers, and from it that a dropped byte is told
by the next read (43_isr.md R284) and that a queued byte is written in a fair run (R293). -/

namespace Sys2Proof.Machine

/-! ## Steps that leave the traffic of a device -/

/-- The buffers and `err` are the same, and the data register does not become full. -/
structure Device.SameTraffic (D E : Device) : Prop where
  rx : E.rx = D.rx
  tx : E.tx = D.tx
  err : E.err = D.err
  dre : D.hwDre = true → E.hwDre = true

theorem Device.SameTraffic.refl (D : Device) : D.SameTraffic D := ⟨rfl, rfl, rfl, id⟩

theorem Device.SameTraffic.receive {data status : Byte} {D E : Device} (h : receive data status D = some E) :
    D.SameTraffic E := by
  unfold Machine.receive at h
  split at h
  · cases h; exact .refl D
  · split at h
    · cases h
    · cases h; exact ⟨rfl, rfl, rfl, id⟩

theorem Device.SameTraffic.transmitDone (D : Device) : D.SameTraffic (transmitDone D) := by
  unfold Machine.transmitDone
  split
  · exact .refl D
  · exact ⟨rfl, rfl, rfl, fun _ => rfl⟩

/-- From `s` to `t` the capacity and the traffic of device `d` are the same. -/
def KeepsTraffic (d : Dev) (s t : State) : Prop := t.cap = s.cap ∧ (s.dev d).SameTraffic (t.dev d)

theorem KeepsTraffic.of_dev {d : Dev} {s t : State} (hcap : t.cap = s.cap) (hdev : t.dev d = s.dev d) :
    KeepsTraffic d s t :=
  ⟨hcap, hdev ▸ .refl _⟩

/-- A write of a device record that leaves the traffic of that device leaves the traffic of every device. -/
theorem KeepsTraffic.setDev {d e : Dev} {s : State} {x : Device} (h : (s.dev e).SameTraffic x) :
    KeepsTraffic d s (s.setDev e x) := by
  refine ⟨rfl, ?_⟩
  rw [dev_setDev]
  split
  · next he => exact he ▸ h
  · exact .refl _

theorem KeepsTraffic.setDev_ne {d e : Dev} {s : State} {x : Device} (h : e ≠ d) : KeepsTraffic d s (s.setDev e x) :=
  .of_dev rfl (dev_setDev_ne _ _ _ _ h)

theorem KeepsTraffic.setBuffer_ne {d e : Dev} {s : State} (sel : Sel) (B : RingBuffer) (h : e ≠ d) :
    KeepsTraffic d s (s.setBuffer e sel B) := by
  cases sel <;> exact .setDev_ne h

theorem KeepsTraffic.raiseFault (d : Dev) (c : FaultCode) (W : Word) (s : State) :
    KeepsTraffic d s (raiseFault c W s) :=
  .of_dev (raiseFault_cap c W s) (raiseFault_dev c W s d)

theorem KeepsTraffic.whenLegal {ok : Life → Bool} {d e : Dev} {W : Word} {s t : State} {r : Result}
    (ht : whenLegal ok e W s r = .next t) (h : ok (s.dev e).life = true → r = .next t → KeepsTraffic d s t) :
    KeepsTraffic d s t := by
  rcases whenLegal_next _ _ _ _ _ _ ht with ⟨hlegal, hr⟩ | ⟨-, rfl⟩
  · exact h hlegal hr
  · exact .raiseFault d _ _ s

theorem KeepsTraffic.eventRx {d e : Dev} {data status : Byte} {s t : State} (h : eventRx e data status s = some t) :
    KeepsTraffic d s t := by
  obtain ⟨x, hx, rfl⟩ := eventRx_some _ _ _ _ _ h
  exact .setDev (.receive hx)

theorem KeepsTraffic.openEvent (d : Dev) (ev : EnvEvent) (s : State) : KeepsTraffic d s (openEvent ev s) := by
  cases ev with
  | rx e data status =>
    simp only [Machine.openEvent]
    split
    · next t ht => exact .eventRx ht
    · exact .raiseFault d _ _ s
  | txDone e => exact .setDev (.transmitDone _)
  | gie v => exact .of_dev rfl rfl

theorem KeepsTraffic.serviceInstr {d e : Dev} {k : Kind} {s t : State} (h : e ≠ d)
    (ht : exec (serviceInstr e k) s = .next t) : KeepsTraffic d s t := by
  rw [exec_serviceInstr] at ht
  cases ht
  exact .setDev_ne h

/-- A device that a command is legal on is not the running one, where the command is illegal in RUN. -/
theorem ne_of_legal {ok : Life → Bool} {d e : Dev} {s : State} (hlegal : ok (s.dev e).life = true)
    (hok : ok .run = false) (hrun : (s.dev d).life = .run) : e ≠ d := by
  rintro rfl
  rw [hrun, hok] at hlegal
  cases hlegal

/-- The only instructions that move the traffic of a running device are its READ_BYTE and its service steps: the others
that write a buffer are illegal in RUN. -/
theorem KeepsTraffic.exec {d : Dev} {i : Instr} {s t : State} (hrun : (s.dev d).life = .run)
    (hread : i ≠ .readByte d) (hserv : ∀ k, i ≠ Machine.serviceInstr d k) (ht : exec i s = .next t) :
    KeepsTraffic d s t := by
  cases i with
  | configure e port route txmask rxmask => cases ht; exact KeepsTraffic.setDev (s := s) ⟨rfl, rfl, rfl, id⟩
  | init e baud =>
    refine .whenLegal ht fun hlegal hr => ?_
    cases hr
    rw [startDevice_eq]
    exact KeepsTraffic.setDev_ne (s := s) (ne_of_legal hlegal rfl hrun)
  | sendByte e b => exact .whenLegal ht fun _ hr => by cases hr; exact .of_dev rfl rfl
  | sendSeq e bytes =>
    refine .whenLegal ht fun _ hr => ?_
    split at hr <;> cases hr <;> exact .of_dev rfl rfl
  | readByte e =>
    have he : e ≠ d := fun k => hread (k ▸ rfl)
    refine .whenLegal ht fun _ hr => ?_
    split at hr <;> cases hr <;> exact KeepsTraffic.setDev_ne (s := s) he
  | rxCount e => exact .whenLegal ht fun _ hr => by cases hr; exact .of_dev rfl rfl
  | close e => exact .whenLegal ht fun _ hr => by cases hr; exact .of_dev rfl rfl
  | rbReset e sel =>
    refine .whenLegal ht fun hlegal hr => ?_
    cases hr
    exact KeepsTraffic.setBuffer_ne (s := s) sel _ (ne_of_legal hlegal rfl hrun)
  | rbInsert e sel b =>
    refine .whenLegal ht fun hlegal hr => ?_
    split at hr
    · cases hr; exact .raiseFault d _ _ s
    · cases hr; exact KeepsTraffic.setBuffer_ne (s := s) sel _ (ne_of_legal hlegal rfl hrun)
  | rbRemove e sel =>
    refine .whenLegal ht fun hlegal hr => ?_
    split at hr
    · cases hr; exact .raiseFault d _ _ s
    · cases hr; exact KeepsTraffic.setBuffer_ne (s := s) sel _ (ne_of_legal hlegal rfl hrun)
  | rbFull e sel => exact .whenLegal ht fun _ hr => by cases hr; exact .of_dev rfl rfl
  | rbEmpty e sel => exact .whenLegal ht fun _ hr => by cases hr; exact .of_dev rfl rfl
  | envRx e data status =>
    simp only [Machine.exec, execEnvRx] at ht
    split at ht
    · next u hu => cases ht; exact KeepsTraffic.eventRx (t := u) hu
    · cases ht; exact .raiseFault d _ _ s
  | envTxDone e => cases ht; exact KeepsTraffic.setDev (s := s) (.transmitDone _)
  | envGie v => cases ht; exact .of_dev rfl rfl
  | rxc e => exact .serviceInstr (k := .rxc) (fun he => hserv .rxc (he ▸ rfl)) ht
  | dre e => exact .serviceInstr (k := .dre) (fun he => hserv .dre (he ▸ rfl)) ht

/-! ## Everything a step can do to the traffic of a running device -/

/-- An item leaves the traffic of a running device unless it is a READ_BYTE of it: no word is a service step. -/
theorem consumeItem_traffic {d : Dev} {s t : State} (hrun : (s.dev d).life = .run) (ht : consumeItem s = .next t) :
    KeepsTraffic d s t ∨ (nextItem s = some (encReadByte d) ∧ exec (.readByte d) s = .next t) := by
  cases hW : nextItem s with
  | none => simp [consumeItem, hW] at ht
  | some W =>
    rw [consumeItem_of_nextItem hW] at ht
    rcases consumeWord_next ht with ⟨i, hi, hexec⟩ | rfl
    · obtain ⟨hcode, -⟩ := (decodeWord_eq_ok_iff _ _ _).1 hi
      by_cases hread : i = .readByte d
      · subst hread
        cases hcode
        exact .inr ⟨rfl, hexec⟩
      · refine .inl (.exec hrun hread (fun k hk => ?_) hexec)
        rw [hk, encode_serviceInstr] at hcode
        cases hcode
    · exact .inl (.raiseFault d _ _ s)

/-- A mainline continuation leaves the traffic of a device or queues a byte for it where TX has room. -/
theorem mainlineStep_traffic {s : State} (hready : mainlineReady s = true) (d : Dev) :
    KeepsTraffic d s (mainlineStep s)
    ∨ ((s.dev d).tx.cnt < s.cap ∧ ∃ b, (mainlineStep s).dev d = (queueByte d b s).dev d) := by
  by_cases hd : mcurDev s = d
  · subst hd
    have hcap := mainlineStep_cap s
    unfold mainlineReady at hready
    unfold mainlineStep at hcap ⊢
    cases hphase : s.mphase <;> rw [hphase] at hready hcap
    case idle => exact .inl (.of_dev hcap rfl)
    case sendWait => exact .inr ⟨(txHasRoom_iff s).1 hready, _, rfl⟩
    case seq => exact .inr ⟨(txHasRoom_iff s).1 hready, _, congrArg (·[mcurDev s]) (sendSeqStep_devs s)⟩
    case closeDrain => exact .inl (.of_dev hcap rfl)
    case closeHw => exact .inl (.of_dev hcap rfl)
    case closeSettle => exact .inl (KeepsTraffic.setDev (s := s) ⟨rfl, rfl, rfl, id⟩)
  · exact .inl (.of_dev (mainlineStep_cap s) (mainlineStep_dev_ne hd))

/-- Everything an enabled step can do to the traffic of a running device: nothing, queue a byte in TX, read a byte,
or service one of its sources. -/
theorem take_traffic {c : Choice} {d : Dev} {s t : State} (hc : enabled c s = true) (ht : take c s = .next t)
    (hrun : (s.dev d).life = .run) :
    KeepsTraffic d s t
    ∨ ((s.dev d).tx.cnt < s.cap ∧ t.cap = s.cap ∧ ∃ b, t.dev d = (queueByte d b s).dev d)
    ∨ (nextItem s = some (encReadByte d) ∧ exec (.readByte d) s = .next t)
    ∨ ∃ k, c = serviceChoice d k ∧ exec (serviceInstr d k) s = .next t := by
  have service (e : Dev) (k : Kind) (hexec : exec (serviceInstr e k) s = .next t) :
      KeepsTraffic d s t ∨ ∃ k', serviceChoice e k = serviceChoice d k' ∧ exec (serviceInstr d k') s = .next t := by
    by_cases he : e = d
    · exact .inr ⟨k, he ▸ rfl, he ▸ hexec⟩
    · exact .inl (.serviceInstr he hexec)
  cases c with
  | item => exact (consumeItem_traffic hrun ht).imp_right fun h => .inr (.inl h)
  | mainline =>
    cases ht
    rw [enabled_mainline_of_unfaulted (faultCode_of_enabled hc)] at hc
    exact (mainlineStep_traffic hc d).imp_right fun ⟨hroom, hqueue⟩ => .inl ⟨hroom, mainlineStep_cap s, hqueue⟩
  | rxc e => exact (service e .rxc ht).imp_right fun h => .inr (.inr h)
  | dre e => exact (service e .dre ht).imp_right fun h => .inr (.inr h)
  | event ev => cases ht; exact .inl (.openEvent d ev s)

/-! ## A dropped byte is told by the next read (R284 (a)) -/

theorem dropFlags_bovf (status : Byte) : (dropFlags status).getLsbD 6 = true := by
  have hbit : bovfBit.getLsbD 6 = true := by decide
  rw [dropFlags, BitVec.getLsbD_or, hbit, Bool.or_true]

/-- The overflow is read off RX, `err` and the capacity. -/
theorem OverflowPending.congr {d : Dev} {s t : State} (h : OverflowPending s d) (hcap : t.cap = s.cap)
    (hrx : (t.dev d).rx = (s.dev d).rx) (herr : (t.dev d).err = (s.dev d).err) : OverflowPending t d := by
  unfold OverflowPending at h ⊢
  rwa [hcap, hrx, herr]

/-- With RX full, RXC drops again and reports it again; DRE touches neither RX nor `err`. -/
theorem OverflowPending.serviceInstr {d : Dev} {k : Kind} {s t : State} (h : OverflowPending s d)
    (ht : exec (serviceInstr d k) s = .next t) : OverflowPending t d := by
  rw [exec_serviceInstr] at ht
  cases ht
  cases k with
  | rxc =>
    obtain ⟨hfull, -⟩ := h
    simp only [OverflowPending, dev_setDev_same, setDev_cap, serviceRecord, serviced_of_ge hfull.ge]
    exact ⟨hfull, dropFlags_bovf _⟩
  | dre =>
    refine h.congr rfl ?_ ?_ <;> rw [dev_setDev_same]
    · exact drained_rx _ _ _
    · exact drained_err _ _ _

/-- The read that finds an overflow pending reports BOVF, with a byte: RX is full, and no capacity is 0. -/
theorem OverflowPending.exec_readByte {d : Dev} {s t : State} (h : OverflowPending s d)
    (hrun : (s.dev d).life = .run) (ht : exec (.readByte d) s = .next t) :
    ∃ v : Half, t.outLog = s.outLog ++ [v] ∧ v.getLsbD 14 = true ∧ v.getLsbD 8 = false := by
  obtain ⟨hfull, hbovf⟩ := h
  obtain ⟨hlog, ⟨-, hres⟩ | ⟨hempty, -⟩⟩ := exec_readByte_emits ((legalRead_iff _).2 (.inl hrun)) ht
  · refine ⟨t.res, hlog, ?_, ?_⟩ <;> rw [hres]
    · obtain ⟨-, -, hbit14, -⟩ := statusWord_layout (headByte d .rx s) (err := (s.dev d).err) fun _ _ _ => rfl
      exact hbit14.trans hbovf
    · exact dataStatus_nodata _ _
  · exact absurd (hfull.symm.trans hempty) (cap_pos s.cfg).ne'

/-- Of all that a step can do to the traffic of the device only the read ends the overflow. -/
theorem OverflowPending.take {c : Choice} {d : Dev} {s t : State} (h : OverflowPending s d)
    (hc : enabled c s = true) (ht : take c s = .next t) (hrun : (s.dev d).life = .run) :
    OverflowPending t d ∨ (nextItem s = some (encReadByte d) ∧ exec (.readByte d) s = .next t) := by
  rcases take_traffic hc ht hrun with ⟨hcap, hsame⟩ | ⟨-, hcap, b, hdev⟩ | hread | ⟨k, -, hexec⟩
  · exact .inl (h.congr hcap hsame.rx hsame.err)
  · rw [dev_queueByte_same] at hdev
    exact .inl (h.congr hcap (by rw [hdev]) (by rw [hdev]))
  · exact .inr hread
  · exact .inl (h.serviceInstr hexec)

/-- Settles O57: a step keeps the overflow pending or is the read (`OverflowPending.take`), which reports it
(`OverflowPending.exec_readByte`); the schedule is no part of either. -/
theorem overflowIsReportedByTheNextRead : Obligations.OverflowIsReportedByTheNextRead := by
  intro s t d _ hpending hrun hstep
  rcases step_cases hstep with ⟨c, rest, hc, htake⟩ | ⟨hstop, -⟩
  · have hpending' : OverflowPending { s with sched := rest } d := hpending
    exact (hpending'.take ((enabled_sched c s rest).trans hc) htake.symm hrun).imp_right
      fun ⟨hitem, hexec⟩ => ⟨hitem, hpending'.exec_readByte hrun hexec⟩
  · cases hstop

/-! ## The oldest byte of TX waits for DRE -/

/-- A read leaves TX and the transmit side of the peripheral. -/
theorem exec_readByte_tx {d : Dev} {s t : State} (ht : exec (.readByte d) s = .next t) :
    (t.dev d).tx = (s.dev d).tx ∧ (t.dev d).hwDre = (s.dev d).hwDre := by
  rcases whenLegal_next _ _ _ _ _ _ ht with ⟨-, hr⟩ | ⟨-, rfl⟩
  · split at hr
    · cases hr
      simp [readData, dropByte_rx]
    · cases hr
      rw [advancePc_dev, readNodata_eq]
      change ((s.setDev d _).dev d).tx = (s.dev d).tx ∧ ((s.setDev d _).dev d).hwDre = (s.dev d).hwDre
      rw [dev_setDev_same]
      exact ⟨rfl, rfl⟩
  · rw [raiseFault_dev]
    exact ⟨rfl, rfl⟩

/-- Until DRE of a running device is taken, its TX only gains bytes at its end, and its data register stays empty once
it is. -/
theorem take_tx_of_ne_dre {c : Choice} {d : Dev} {s t : State} (hc : enabled c s = true) (ht : take c s = .next t)
    (hrun : (s.dev d).life = .run) (hne : c ≠ .dre d) :
    ((t.dev d).tx = (s.dev d).tx
      ∨ ((s.dev d).tx.cnt < s.cap ∧ ∃ b, (t.dev d).tx = ringInsert s.cap (s.dev d).tx b))
    ∧ ((s.dev d).hwDre = true → (t.dev d).hwDre = true) := by
  rcases take_traffic hc ht hrun with ⟨-, hsame⟩ | ⟨hroom, -, b, hdev⟩ | ⟨-, hexec⟩ | ⟨k, hk, hexec⟩
  · exact ⟨.inl hsame.tx, hsame.dre⟩
  · rw [hdev, dev_queueByte_same]
    exact ⟨.inr ⟨hroom, b, rfl⟩, id⟩
  · obtain ⟨htx, hdre⟩ := exec_readByte_tx hexec
    exact ⟨.inl htx, hdre.trans⟩
  · cases k with
    | dre => exact absurd hk hne
    | rxc =>
      rw [exec_serviceInstr] at hexec
      cases hexec
      rw [dev_setDev_same]
      exact ⟨.inl (serviced_tx _ _), (serviced_hwDre _ _).trans⟩

/-- An insertion behind a byte leaves that byte the oldest: it writes the slot behind the live window. -/
theorem ringHead_ringInsert {cap : Nat} {B : RingBuffer} (fill : Nat → Byte) (b : Byte) (h : B.Ok cap)
    (hroom : B.cnt < cap) (hany : 0 < B.cnt) : ringHead fill (ringInsert cap B b) = ringHead fill B := by
  have hslot := live_slot_ne_hin cap B h hroom 0 hany
  rw [Nat.add_zero, Nat.mod_eq_of_lt h.hout_lt] at hslot
  exact (ringRead_ringInsert cap fill B b B.hout h.canonical).trans (if_neg hslot)

/-- `b` is the oldest byte waiting in TX of device `d`. -/
def OldestInTx (d : Dev) (b : Byte) (s : State) : Prop := 0 < (s.dev d).tx.cnt ∧ headByte d .tx s = b

theorem OldestInTx.take {c : Choice} {d : Dev} {b : Byte} {s t : State} (h : OldestInTx d b s) (hinv : Inv s)
    (hc : enabled c s = true) (ht : take c s = .next t) (hrun : (s.dev d).life = .run) (hne : c ≠ .dre d) :
    OldestInTx d b t := by
  obtain ⟨hany, rfl⟩ := h
  obtain ⟨htx | ⟨hroom, b', htx⟩, -⟩ := take_tx_of_ne_dre hc ht hrun hne
  · rw [OldestInTx, headByte, headByte, buffer_tx, buffer_tx, htx]
    exact ⟨hany, rfl⟩
  · rw [OldestInTx, headByte, headByte, buffer_tx, buffer_tx, htx]
    exact ⟨Nat.succ_pos _, ringHead_ringInsert _ b' (hinv.devices d).tx hroom hany⟩

/-- DRE writes the oldest byte of TX to the line (R291). -/
theorem OldestInTx.exec_dre {d : Dev} {b : Byte} {s t : State} (h : OldestInTx d b s)
    (ht : exec (.dre d) s = .next t) : (t.dev d).txLog = (s.dev d).txLog ++ [b] := by
  obtain ⟨hany, rfl⟩ := h
  rw [Machine.exec_dre] at ht
  cases ht
  rw [dev_setDev_same, drained_of_pos _ hany]

/-! ## Along a run -/

/-- Only a device of the machine runs: a record beyond NDEV stays at reset. -/
theorem Inv.lt_ndev_of_run {d : Dev} {s : State} (h : Inv s) (hrun : (s.dev d).life = .run) : d.val < s.cfg.ndev := by
  by_contra hd
  rw [h.absent d (Nat.le_of_not_lt hd)] at hrun
  cases hrun

/-- A running device with a byte in TX and an empty data register has its DRE enabled, in a machine with interrupts
enabled and no fault (R290, R293). -/
theorem Inv.enabled_dre {d : Dev} {s : State} (h : Inv s) (hfault : s.faultCode = 0#8) (hgie : s.gie = true)
    (hrun : (s.dev d).life = .run) (hany : 0 < (s.dev d).tx.cnt) (hdre : (s.dev d).hwDre = true) :
    enabled (.dre d) s = true := by
  have hD := h.devices d
  refine (enabled_dre_iff (h.lt_ndev_of_run hrun)).2 ⟨hfault, hgie, hD.armed hrun hany, ?_, hdre⟩
  rw [hD.txen, hrun]
  rfl

section FairRun

variable {r : Run} {d : Dev} {n : Nat}

theorem Run.Valid.inv (hv : r.Valid) (h : Inv (r.state n)) {m : Nat} (hm : n ≤ m) : Inv (r.state m) := by
  induction m, hm using Nat.le_induction with
  | base => exact h
  | succ m _ ih => exact ih.take (hv m).1 (hv m).2

/-- The oldest byte stays the oldest as long as DRE of its device is not taken. -/
theorem Run.Valid.oldestInTx {b : Byte} (hv : r.Valid) (h : Inv (r.state n))
    (hrun : ∀ m, n ≤ m → ((r.state m).dev d).life = .run) (hb : OldestInTx d b (r.state n)) {m : Nat} (hm : n ≤ m)
    (hnone : ∀ k, n ≤ k → k < m → r.choice k ≠ .dre d) : OldestInTx d b (r.state m) := by
  induction m, hm using Nat.le_induction with
  | base => exact hb
  | succ m hm ih =>
    have hb' := ih fun k hk hlt => hnone k hk (Nat.lt_succ_of_lt hlt)
    exact hb'.take (hv.inv h hm) (hv m).1 (hv m).2 (hrun m hm) (hnone m hm (Nat.lt_succ_self m))

/-- An empty data register stays empty as long as DRE of its device is not taken. -/
theorem Run.Valid.hwDre (hv : r.Valid) (hrun : ∀ m, n ≤ m → ((r.state m).dev d).life = .run)
    (hnone : ∀ m, n ≤ m → r.choice m ≠ .dre d) (hdre : ((r.state n).dev d).hwDre = true) {m : Nat} (hm : n ≤ m) :
    ((r.state m).dev d).hwDre = true := by
  induction m, hm using Nat.le_induction with
  | base => exact hdre
  | succ m hm ih => exact (take_tx_of_ne_dre (hv m).1 (hv m).2 (hrun m hm) (hnone m hm)).2 ih

/-- In a fair run with interrupts enabled, DRE of a running device with a byte in TX is taken once its data register
empties: were it never taken, it would stay enabled from then on. -/
theorem Run.Valid.exists_dre {b : Byte} (hv : r.Valid) (hfair : r.WeaklyFair) (h : Inv (r.state n))
    (hgie : ∀ m, n ≤ m → (r.state m).gie = true) (hrun : ∀ m, n ≤ m → ((r.state m).dev d).life = .run)
    (hempties : ∃ m, n ≤ m ∧ ((r.state m).dev d).hwDre = true) (hb : OldestInTx d b (r.state n)) :
    ∃ m, n ≤ m ∧ r.choice m = .dre d := by
  by_contra hnever
  have hnone : ∀ m, n ≤ m → r.choice m ≠ .dre d := fun m hm hc => hnever ⟨m, hm, hc⟩
  obtain ⟨p, hp, hdre⟩ := hempties
  have henabled : ∀ m, p ≤ m → enabled (.dre d) (r.state m) = true := by
    intro m hm
    have hnm := hp.trans hm
    have hany := (hv.oldestInTx h hrun hb hnm fun k hk _ => hnone k hk).1
    have hempty := hv.hwDre (fun k hk => hrun k (hp.trans hk)) (fun k hk => hnone k (hp.trans hk)) hdre hm
    exact (hv.inv h hnm).enabled_dre (faultCode_of_enabled (hv m).1) (hgie m hnm) (hrun m hnm) hany hempty
  obtain ⟨m, hm, hc⟩ := hfair (.dre d) trivial p henabled
  exact hnone m (hp.trans hm) hc

end FairRun

/-- Settles O59: DRE of the device is taken (`Run.Valid.exists_dre`), and the first time it is, the byte that was the
oldest still is (`Run.Valid.oldestInTx`), so it is the one written. -/
theorem queuedByteIsEventuallyWritten : Obligations.QueuedByteIsEventuallyWritten := by
  intro r d n hv hfair h _ hkeep hempties hany
  have hrun : ∀ m, n ≤ m → ((r.state m).dev d).life = .run := fun m hm => (hkeep m hm).2
  have hb : OldestInTx d (headByte d .tx (r.state n)) (r.state n) := ⟨hany, rfl⟩
  have hex := hv.exists_dre hfair h (fun m hm => (hkeep m hm).1) hrun (hempties n le_rfl) hb
  obtain ⟨hm, hc⟩ := Nat.find_spec hex
  have hfirst : ∀ k, n ≤ k → k < Nat.find hex → r.choice k ≠ .dre d :=
    fun k hk hlt hck => Nat.find_min hex hlt ⟨hk, hck⟩
  have ht := (hv (Nat.find hex)).2
  rw [hc] at ht
  exact ⟨Nat.find hex, hm, (hv.oldestInTx h hrun hb hm hfirst).exec_dre ht⟩

end Sys2Proof.Machine
end

section
/-! PROOFS. The steps of the environment, as items and in open mode (44_environment.md R310 to R315). -/

namespace Sys2Proof.Machine

/-! ## What an event does to the device record (R310, R312) -/

theorem receive_of_disabled {D : Device} (data status : Byte) (h : D.rxen = false) :
    receive data status D = some D :=
  if_pos h

theorem receive_of_pending {D : Device} (data status : Byte) (hen : D.rxen = true) (hrxp : D.hwRxp = true) :
    receive data status D = none := by
  simp [receive, hen, hrxp]

theorem receive_of_free {D : Device} (data status : Byte) (hen : D.rxen = true) (hrxp : D.hwRxp = false) :
    receive data status D = some { D with hwRxd := data, hwRxs := status, hwRxp := true } := by
  simp [receive, hen, hrxp]

theorem transmitDone_of_full {D : Device} (h : D.hwDre = false) :
    transmitDone D = { D with hwDre := true, hwTxc := true } :=
  if_neg (by simp [h])

theorem transmitDone_of_empty {D : Device} (h : D.hwDre = true) : transmitDone D = D := if_pos h

/-! ## The items -/

theorem exec_envRx_of_some {d : Dev} {data status : Byte} {s : State} {x : Device}
    (h : receive data status (s.dev d) = some x) :
    exec (.envRx d data status) s = .next (advancePc (s.setDev d x)) := by
  simp [exec, execEnvRx, eventRx, h]

theorem exec_envRx_of_none {d : Dev} {data status : Byte} {s : State} (h : receive data status (s.dev d) = none) :
    exec (.envRx d data status) s = .next (raiseFault .envRxOverrun (encEnvRx d data status) s) := by
  simp [exec, execEnvRx, eventRx, h]

theorem exec_envTxDone (d : Dev) (s : State) :
    exec (.envTxDone d) s = .next (advancePc (s.setDev d (transmitDone (s.dev d)))) :=
  rfl

/-- Settles O35: by what is pending in the receiver (`receive`). -/
theorem envRxLoadsIgnoresOrOverruns : Obligations.EnvRxLoadsIgnoresOrOverruns := by
  intro d data status s
  refine ⟨fun hen => ?_, fun hen hrxp => ?_, fun hen hrxp hfault => ?_⟩
  · rw [exec_envRx_of_some (receive_of_disabled _ _ hen), setDev_dev]
    rfl
  · rw [exec_envRx_of_some (receive_of_free _ _ hen hrxp)]
    rfl
  · rw [exec_envRx_of_none (receive_of_pending _ _ hen hrxp), raiseFault_of_none _ _ _ hfault]
    rfl

/-- Settles O36: ENV_TXDONE by the data register (`transmitDone`), ENV_GIE by its definition. -/
theorem envTxDoneAndEnvGieWriteTheirFlags : Obligations.EnvTxDoneAndEnvGieWriteTheirFlags := by
  intro d v s
  refine ⟨fun hfull => ?_, fun hempty => ?_, rfl⟩
  · rw [exec_envTxDone, transmitDone_of_full hfull]
    rfl
  · rw [exec_envTxDone, transmitDone_of_empty hempty, setDev_dev]
    rfl

/-! ## Events in open mode (R315) -/

theorem openEvent_rx_of_some {d : Dev} {data status : Byte} {s : State} {x : Device}
    (h : receive data status (s.dev d) = some x) : openEvent (.rx d data status) s = s.setDev d x := by
  simp [openEvent, eventRx, h]

theorem openEvent_rx_of_none {d : Dev} {data status : Byte} {s : State} (h : receive data status (s.dev d) = none) :
    openEvent (.rx d data status) s = raiseFault .envRxOverrun (encEnvRx d data status) s := by
  simp [openEvent, eventRx, h]

/-- Settles O37: item and event share what they do but for the cursor; only an overrun raises a fault, and it leaves
the cursor in both. -/
theorem openEventIsTheItemWithoutTheCursor : Obligations.OpenEventIsTheItemWithoutTheCursor := by
  intro e s hfault
  refine ⟨openEvent e s, rfl, ?_⟩
  cases e with
  | rx d data status =>
    cases hx : receive data status (s.dev d) with
    | some x =>
      rw [openEvent_rx_of_some hx]
      exact ⟨rfl, rfl, fun _ => exec_envRx_of_some hx, fun hne => absurd hfault hne⟩
    | none =>
      rw [openEvent_rx_of_none hx]
      refine ⟨raiseFault_pc _ _ _, raiseFault_script _ _ _, fun hzero => ?_, fun _ => exec_envRx_of_none hx⟩
      rw [raiseFault_of_none _ _ _ hfault] at hzero
      exact absurd hzero (faultNumber_ne_zero .envRxOverrun)
  | txDone d => exact ⟨rfl, rfl, fun _ => rfl, fun hne => absurd hfault hne⟩
  | gie v => exact ⟨rfl, rfl, fun _ => rfl, fun hne => absurd hfault hne⟩

end Sys2Proof.Machine
end

section
/-! PROOFS. The choice of the step: which steps are enabled, which one the machine takes under a schedule and under the
test scheduler, and how a run ends (44_environment.md R321 to R325). -/

namespace Sys2Proof.Machine

/-! ## Every enabled step can be completed -/

theorem whenLegal_total {ok : Life → Bool} {d : Dev} {W : Word} {s : State} {r : Result} (h : ∃ t, r = .next t) :
    ∃ t, whenLegal ok d W s r = .next t := by
  unfold whenLegal
  split
  · exact h
  · exact ⟨_, rfl⟩

theorem ite_total {p : Prop} [Decidable p] (t u : State) :
    ∃ v, (if p then .next t else .next u : Result) = .next v := by
  split
  · exact ⟨t, rfl⟩
  · exact ⟨u, rfl⟩

/-- Every instruction's meaning answers a next state, in every state. -/
theorem exec_total (i : Instr) (s : State) : ∃ t, exec i s = .next t := by
  cases i with
  | configure d port route txmask rxmask => exact ⟨_, rfl⟩
  | init d baud => exact whenLegal_total ⟨_, rfl⟩
  | sendByte d b => exact whenLegal_total ⟨_, rfl⟩
  | sendSeq d bytes => exact whenLegal_total (ite_total _ _)
  | readByte d => exact whenLegal_total (ite_total _ _)
  | rxCount d => exact whenLegal_total ⟨_, rfl⟩
  | close d => exact whenLegal_total ⟨_, rfl⟩
  | rbReset d sel => exact whenLegal_total ⟨_, rfl⟩
  | rbInsert d sel b => exact whenLegal_total (ite_total _ _)
  | rbRemove d sel => exact whenLegal_total (ite_total _ _)
  | rbFull d sel => exact whenLegal_total ⟨_, rfl⟩
  | rbEmpty d sel => exact whenLegal_total ⟨_, rfl⟩
  | envRx d data status =>
    cases hx : receive data status (s.dev d) with
    | some x => exact ⟨_, exec_envRx_of_some hx⟩
    | none => exact ⟨_, exec_envRx_of_none hx⟩
  | envTxDone d => exact ⟨_, rfl⟩
  | envGie v => exact ⟨_, rfl⟩
  | rxc d => exact ⟨_, exec_serviceInstr d .rxc s⟩
  | dre d => exact ⟨_, exec_serviceInstr d .dre s⟩

theorem consumeWord_of_ok {W : Word} {s : State} {i : Instr} (h : decodeWord s.cfg.ndev W = .ok i) :
    consumeWord W s = exec i s := by
  simp [consumeWord, h]

theorem consumeWord_of_error {W : Word} {s : State} {e : DecodeError} (h : decodeWord s.cfg.ndev W = .error e) :
    consumeWord W s = .next (raiseFault .illegalCmd W s) := by
  simp [consumeWord, h]

theorem consumeWord_total (W : Word) (s : State) : ∃ t, consumeWord W s = .next t := by
  cases h : decodeWord s.cfg.ndev W with
  | ok i => rw [consumeWord_of_ok h]; exact exec_total i s
  | error e => exact ⟨_, consumeWord_of_error h⟩

/-! ## The item (R321) -/

theorem enabled_item_iff {s : State} : enabled .item s = true ↔ s.faultCode = 0#8 ∧ itemReady s = true := by
  simp [enabled]

/-- Settles O44: the conditions of `itemReady_iff`, with the environment items by their OP. -/
theorem itemIsEnabledExactlyAsItMayBeConsumed : Obligations.ItemIsEnabledExactlyAsItMayBeConsumed := by
  intro s
  simp only [enabled_item_iff, itemReady_iff, nextItem, isEnvWord, decide_eq_true_eq]

/-- Past the end of the script no item is enabled (10_state.md R60). -/
theorem enabled_item_of_end {s : State} (h : s.pc = s.script.length) : enabled .item s = false := by
  have hnone : nextItem s = none := List.getElem?_eq_none h.ge
  simp [enabled, itemReady, hnone]

/-- No continuation is enabled while the mainline is idle (R322 (b)). -/
theorem enabled_mainline_of_idle {s : State} (h : s.mphase = .idle) : enabled .mainline s = false := by
  simp [enabled, mainlineReady, h]

/-- Every enabled step can be completed: an item is enabled only where there is one. -/
theorem take_total {c : Choice} {s : State} (h : enabled c s = true) : ∃ t, take c s = .next t := by
  cases c with
  | item =>
    obtain ⟨W, hW, -⟩ := (itemReady_iff s).1 (enabled_item_iff.1 h).2
    obtain ⟨t, ht⟩ := consumeWord_total W s
    exact ⟨t, (consumeItem_of_nextItem hW).trans ht⟩
  | mainline => exact ⟨_, rfl⟩
  | rxc d => exact exec_total (.rxc d) s
  | dre d => exact exec_total (.dre d) s
  | event e => exact ⟨_, rfl⟩

/-! ## Under a schedule (R322) -/

/-- An enabled step at the head of the schedule is the one taken. -/
theorem step_of_sched_cons {s : State} {c : Choice} {rest : List Choice} (hs : s.sched = c :: rest)
    (hc : enabled c s = true) : step s = take c { s with sched := rest } := by
  simp [step, stepMachine, nextChoice, pick, hs, hc]

/-- The machine stops only where no step of scripted mode is enabled, and then under the name the end of the run has. -/
theorem step_next_or_stop (s : State) :
    (∃ t, step s = .next t) ∨ (step s = .fault (endReason s) ∧ ∀ c ∈ testOrder, enabled c s = false) := by
  rcases step_cases (Eq.refl (step s)) with ⟨c, rest, hc, htake⟩ | ⟨hstop, -, hnone⟩
  · rw [htake]
    exact .inl (take_total ((enabled_sched c s rest).trans hc))
  · exact .inr ⟨hstop, hnone⟩

/-- Settles O45: what a step answers by `step_cases`, and that none is missed by `step_next_or_stop`. -/
theorem everyStepIsOneEnabledStep : Obligations.EveryStepIsOneEnabledStep := by
  refine ⟨fun s t ht => ?_, fun s ⟨c, hmem, hc⟩ => ?_⟩
  · rcases step_cases ht with ⟨c, rest, hc, htake⟩ | ⟨hstop, -⟩
    · exact ⟨c, rest, hc, htake.symm⟩
    · cases hstop
  · refine (step_next_or_stop s).resolve_right fun ⟨_, hnone⟩ => ?_
    rw [hnone c hmem] at hc
    cases hc

/-- Settles O46: an enabled step at the head of the schedule is taken (`step_of_sched_cons`) and completes
(`take_total`); the schedule is no part of what makes a step enabled. -/
theorem everyEnabledStepCanBeTakenNext : Obligations.EveryEnabledStepCanBeTakenNext :=
  fun s c rest hc =>
    ⟨step_of_sched_cons (s := { s with sched := c :: rest }) rfl ((enabled_sched c s _).trans hc),
      take_total ((enabled_sched c s rest).trans hc)⟩

/-! ## The test scheduler (R323) -/

/-- The service step of a vector stands at its id in the order of the test scheduler. -/
theorem testOrder_vectorId (d : Dev) (k : Kind) : testOrder[(vectorId d k).toNat]? = some (serviceChoice d k) := by
  cases k <;> revert d <;> decide

/-- The first sixteen places of the order hold the service steps, in the order of their vector ids. -/
theorem exists_service_of_testOrder {j : Nat} {c : Choice} (hj : j < 16) (h : testOrder[j]? = some c) :
    ∃ d k, (vectorId d k).toNat = j ∧ c = serviceChoice d k := by
  obtain ⟨d, k, hV⟩ := exists_vectorId (BitVec.ofNat 4 j)
  have hid : (vectorId d k).toNat = j := by
    rw [← hV, BitVec.toNat_ofNat, Nat.mod_eq_of_lt hj]
  have hplace := testOrder_vectorId d k
  rw [hid, h] at hplace
  exact ⟨d, k, hid, Option.some.inj hplace⟩

theorem enabled_serviceChoice_of_noService {s : State} (h : NoService s) (d : Dev) (k : Kind) :
    enabled (serviceChoice d k) s = false := by
  cases k with
  | rxc => exact (h d).1
  | dre => exact (h d).2

/-- Where no service step is enabled, none of the first sixteen choices of the order is. -/
theorem enabled_testOrder_of_noService {s : State} (h : NoService s) {j : Nat} {c : Choice} (hj : j < 16)
    (hc : testOrder[j]? = some c) : enabled c s = false := by
  obtain ⟨d, k, -, rfl⟩ := exists_service_of_testOrder hj hc
  exact enabled_serviceChoice_of_noService h d k

/-- With no schedule, the step taken is the enabled one before which none of the order is enabled. -/
theorem step_of_first {s : State} {n : Nat} {c : Choice} (hs : s.sched = []) (hn : testOrder[n]? = some c)
    (hc : enabled c s = true) (hfirst : ∀ j c', j < n → testOrder[j]? = some c' → enabled c' s = false) :
    step s = take c s := by
  obtain ⟨hlt, hget⟩ := List.getElem?_eq_some_iff.1 hn
  have hchoice : testChoice s = some c := by
    refine List.find?_eq_some_iff_getElem.2 ⟨hc, n, hlt, hget, fun j hj => ?_⟩
    rw [hfirst j _ hj (List.getElem?_eq_getElem (hj.trans hlt))]
    rfl
  have hkeep : { s with sched := [] } = s := by rw [← hs]
  simp only [step, stepMachine, nextChoice, hs, pick, hchoice, Option.map_some, hkeep]

theorem step_service {s : State} {d : Dev} {k : Kind} (hs : s.sched = []) (hc : enabled (serviceChoice d k) s = true)
    (hlow : ∀ e k', (vectorId e k').toNat < (vectorId d k).toNat → enabled (serviceChoice e k') s = false) :
    step s = exec (serviceInstr d k) s := by
  refine (step_of_first hs (testOrder_vectorId d k) hc fun j c' hj hc' => ?_).trans (take_serviceChoice d k s)
  obtain ⟨e, k', rfl, rfl⟩ := exists_service_of_testOrder (hj.trans (vectorId d k).isLt) hc'
  exact hlow e k' hj

theorem step_mainline {s : State} (hs : s.sched = []) (hserv : NoService s) (hc : enabled .mainline s = true) :
    step s = .next (mainlineStep s) :=
  step_of_first (n := 16) hs rfl hc fun _ _ hj hc' => enabled_testOrder_of_noService hserv hj hc'

theorem step_item {s : State} (hs : s.sched = []) (hserv : NoService s) (hmain : enabled .mainline s = false)
    (hc : enabled .item s = true) : step s = consumeItem s := by
  refine step_of_first (n := 17) hs rfl hc fun j c' hj hc' => ?_
  rcases Nat.lt_succ_iff_lt_or_eq.1 hj with hj | rfl
  · exact enabled_testOrder_of_noService hserv hj hc'
  · cases hc'
    exact hmain

/-! ## The end of a run (R325) -/

/-- No step of scripted mode is enabled exactly where none is of the three kinds the test scheduler looks for. -/
theorem testOrder_disabled_iff {s : State} :
    (∀ c ∈ testOrder, enabled c s = false) ↔ NoService s ∧ enabled .mainline s = false ∧ enabled .item s = false := by
  constructor
  · intro h
    exact ⟨fun d => ⟨h _ (mem_testOrder (.rxc d) nofun), h _ (mem_testOrder (.dre d) nofun)⟩,
      h _ (mem_testOrder .mainline nofun), h _ (mem_testOrder .item nofun)⟩
  · rintro ⟨hserv, hmain, hitem⟩ c hc
    cases c with
    | item => exact hitem
    | mainline => exact hmain
    | rxc d => exact (hserv d).1
    | dre d => exact (hserv d).2
    | event e => exact absurd hc (by simp [testOrder])

/-- With no schedule, the machine stops exactly where no step of scripted mode is enabled. -/
theorem step_eq_stop_iff {s : State} {f : Fault} (hs : s.sched = []) :
    step s = .fault f ↔ endReason s = f ∧ NoService s ∧ enabled .mainline s = false ∧ enabled .item s = false := by
  rw [← testOrder_disabled_iff]
  constructor
  · intro hstop
    rcases step_next_or_stop s with ⟨t, ht⟩ | ⟨hend, hnone⟩
    · rw [ht] at hstop
      cases hstop
    · rw [hend] at hstop
      cases hstop
      exact ⟨rfl, hnone⟩
  · rintro ⟨rfl, hnone⟩
    have hchoice : testChoice s = none := List.find?_eq_none.2 fun c hc => by simp [hnone c hc]
    simp [step, stepMachine, nextChoice, pick, hs, hchoice]

theorem endReason_of_fault {s : State} (h : s.faultCode ≠ 0#8) : endReason s = .faulted := if_pos h

theorem endReason_of_unfaulted {s : State} (h : s.faultCode = 0#8) :
    endReason s = if s.pc = s.script.length ∧ s.mphase = .idle then .done else .stuck := by
  simp [endReason, scriptFinished, h]

theorem endReason_eq_faulted_iff {s : State} : endReason s = .faulted ↔ s.faultCode ≠ 0#8 := by
  refine ⟨fun hend hfault => ?_, endReason_of_fault⟩
  rw [endReason_of_unfaulted hfault] at hend
  split at hend <;> cases hend

theorem endReason_eq_done_iff {s : State} :
    endReason s = .done ↔ s.faultCode = 0#8 ∧ s.pc = s.script.length ∧ s.mphase = .idle := by
  by_cases hfault : s.faultCode = 0#8
  · simp [endReason_of_unfaulted hfault, hfault]
  · simp [endReason_of_fault hfault, hfault]

theorem endReason_eq_stuck_iff {s : State} :
    endReason s = .stuck ↔ s.faultCode = 0#8 ∧ ¬ (s.pc = s.script.length ∧ s.mphase = .idle) := by
  by_cases hfault : s.faultCode = 0#8
  · simp [endReason_of_unfaulted hfault, hfault]
  · simp [endReason_of_fault hfault, hfault]

theorem step_eq_faulted_iff {s : State} (hs : s.sched = []) : step s = .fault .faulted ↔ IsFaulted s := by
  rw [step_eq_stop_iff hs, endReason_eq_faulted_iff]
  refine ⟨And.left, fun hfault => ⟨hfault, ?_⟩⟩
  have hnone := enabled_faulted hfault
  exact ⟨fun d => ⟨hnone _, hnone _⟩, hnone _, hnone _⟩

/-- In a DONE state no step is enabled: an idle mainline has no continuation, and the script has no item left. -/
theorem step_eq_done_iff {s : State} (hs : s.sched = []) : step s = .fault .done ↔ IsDone s := by
  rw [step_eq_stop_iff hs, endReason_eq_done_iff]
  constructor
  · rintro ⟨⟨hfault, hpc, hidle⟩, hserv, -⟩
    exact ⟨hfault, hpc, hidle, hserv⟩
  · rintro ⟨hfault, hpc, hidle, hserv⟩
    exact ⟨⟨hfault, hpc, hidle⟩, hserv, enabled_mainline_of_idle hidle, enabled_item_of_end hpc⟩

theorem step_eq_stuck_iff {s : State} (hs : s.sched = []) : step s = .fault .stuck ↔ IsStuck s := by
  rw [step_eq_stop_iff hs, endReason_eq_stuck_iff]
  constructor
  · rintro ⟨⟨hfault, hnot⟩, hserv, hmain, hitem⟩
    exact ⟨hfault, hitem, hmain, hserv, fun ⟨_, hpc, hidle, _⟩ => hnot ⟨hpc, hidle⟩⟩
  · rintro ⟨hfault, hitem, hmain, hserv, hnot⟩
    exact ⟨⟨hfault, fun ⟨hpc, hidle⟩ => hnot ⟨hfault, hpc, hidle, hserv⟩⟩, hserv, hmain, hitem⟩

/-- Settles O48: one `iff` for each end. -/
theorem endOfRunIsNamedRight : Obligations.EndOfRunIsNamedRight :=
  fun _ hs => ⟨step_eq_faulted_iff hs, step_eq_done_iff hs, step_eq_stuck_iff hs⟩

/-- Settles O47: the places of the order (`step_service`, `step_mainline`, `step_item`), and the ends
(`step_eq_stop_iff`). -/
theorem testSchedulerTakesItsFixedOrder : Obligations.TestSchedulerTakesItsFixedOrder :=
  fun _ hs => ⟨(step_eq_faulted_iff hs).2, fun _ _ => step_service hs, step_mainline hs, step_item hs,
    fun hserv hmain hitem hfault => (step_eq_stop_iff hs).2 ⟨endReason_of_unfaulted hfault, hserv, hmain, hitem⟩⟩

/-- A ready item is consumed where the schedule asks for it or the test scheduler comes to it. -/
theorem step_ready_item {s : State} {W : Word} {rest : List Choice} (hfault : s.faultCode = 0#8)
    (hW : nextItem s = some W) (hphase : isEnvWord W = true ∨ s.mphase = .idle)
    (hsched : s.sched = .item :: rest ∨
      (s.sched = [] ∧ rest = [] ∧ enabled .mainline s = false ∧ NoService s)) :
    step s = consumeWord W { s with sched := rest } := by
  have hc : enabled .item s = true := enabled_item_iff.2 ⟨hfault, (itemReady_iff s).2 ⟨W, hW, hphase⟩⟩
  have hstep : step s = consumeItem { s with sched := rest } := by
    rcases hsched with hs | ⟨hs, rfl, hmain, hserv⟩
    · exact step_of_sched_cons hs hc
    · rw [step_item hs hserv hmain hc, ← hs]
  exact hstep.trans (consumeItem_of_nextItem (s := { s with sched := rest }) hW)

/-- Settles O43: the item is consumed (`step_ready_item`), and consuming it is the meaning of what it decodes to. -/
theorem stepRunsTheDecodedItem : Obligations.StepRunsTheDecodedItem := by
  intro s W rest hfault hW hphase hsched
  have hstep := step_ready_item hfault hW hphase hsched
  refine ⟨fun i hi => hstep.trans (consumeWord_of_ok hi), fun e he => ?_⟩
  have hraise := consumeWord_of_error (s := { s with sched := rest }) he
  exact (hstep.trans hraise).trans (congrArg Host.Outcome.next (raiseFault_of_none _ _ _ hfault))

end Sys2Proof.Machine
end

section
/-! PROOFS. What every step keeps: the parameters, the script and the order of the cursor (R60, R97, R383), and a byte
pending in the peripheral until RXC takes it, which a fair run does (44_environment.md R324). -/

namespace Sys2Proof.Machine

/-! ## Steps that leave the run's frame -/

/-- From `s` to `t` the parameters, the script, the cursor and `gie` stay, and every pending byte stays pending. -/
structure KeepsFrame (s t : State) : Prop where
  cfg : t.cfg = s.cfg
  script : t.script = s.script
  pc : t.pc = s.pc
  gie : t.gie = s.gie
  pending : ∀ d, (s.dev d).hwRxp = true → (t.dev d).hwRxp = true

theorem KeepsFrame.refl (s : State) : KeepsFrame s s := ⟨rfl, rfl, rfl, rfl, fun _ => id⟩

theorem KeepsFrame.setDev {s : State} {d : Dev} {x : Device}
    (h : (s.dev d).hwRxp = true → x.hwRxp = true) : KeepsFrame s (s.setDev d x) := by
  refine ⟨rfl, rfl, rfl, rfl, fun e he => ?_⟩
  rw [dev_setDev]
  split
  · next hd => exact h (hd ▸ he)
  · exact he

theorem KeepsFrame.setBuffer (s : State) (d : Dev) (sel : Sel) (B : RingBuffer) :
    KeepsFrame s (s.setBuffer d sel B) := by
  cases sel <;> exact .setDev id

theorem KeepsFrame.queueByte (s : State) (d : Dev) (b : Byte) : KeepsFrame s (queueByte d b s) := by
  rw [queueByte_eq]
  exact .setDev id

theorem KeepsFrame.raiseFault (c : FaultCode) (W : Word) (s : State) : KeepsFrame s (raiseFault c W s) :=
  ⟨raiseFault_cfg c W s, raiseFault_script c W s, raiseFault_pc c W s, raiseFault_gie c W s,
    fun d hd => by rwa [raiseFault_dev]⟩

theorem KeepsFrame.receive {d : Dev} {data status : Byte} {s : State} {x : Device}
    (hx : receive data status (s.dev d) = some x) : KeepsFrame s (s.setDev d x) := by
  refine .setDev fun hpending => ?_
  cases hen : (s.dev d).rxen with
  | false =>
    rw [receive_of_disabled _ _ hen] at hx
    cases hx
    exact hpending
  | true =>
    rw [receive_of_pending _ _ hen hpending] at hx
    cases hx

theorem KeepsFrame.transmitDone (d : Dev) (s : State) : KeepsFrame s (s.setDev d (transmitDone (s.dev d))) := by
  refine .setDev fun hpending => ?_
  unfold Machine.transmitDone
  split <;> exact hpending

theorem KeepsFrame.dre (d : Dev) (s : State) :
    KeepsFrame s (s.setDev d (drained s.cap (headByte d .tx s) (s.dev d))) := by
  refine .setDev fun hpending => ?_
  unfold drained
  split <;> exact hpending

/-- A mainline continuation writes the in-flight command's latches and TX, or disables a device. -/
theorem KeepsFrame.mainlineStep (s : State) : KeepsFrame s (mainlineStep s) := by
  unfold Machine.mainlineStep
  cases s.mphase with
  | idle => exact .refl s
  | sendWait => exact { KeepsFrame.queueByte s (mcurDev s) (mcurByte s) with }
  | seq =>
    show KeepsFrame s (sendSeqStep s)
    unfold sendSeqStep
    split <;> exact { KeepsFrame.queueByte s (mcurDev s) (mcurSeqByte s) with }
  | closeDrain => exact { KeepsFrame.refl s with }
  | closeHw => exact { KeepsFrame.refl s with }
  | closeSettle =>
    have hclose : KeepsFrame s (s.setDev (mcurDev s) { disableAll (s.dev (mcurDev s)) with life := .closed }) :=
      .setDev id
    exact { hclose with }

/-! ## Everything a step can do to the frame -/

/-- A start step leaves the frame, or leaves it but for the cursor, which moves on by one. -/
def AdvancesFrame (s t : State) : Prop := ∃ u, KeepsFrame s u ∧ (t = u ∨ t = advancePc u)

theorem AdvancesFrame.raiseFault (c : FaultCode) (W : Word) (s : State) : AdvancesFrame s (raiseFault c W s) :=
  ⟨_, .raiseFault c W s, .inl rfl⟩

theorem KeepsFrame.advance {s u : State} (h : KeepsFrame s u) : AdvancesFrame s (advancePc u) := ⟨u, h, .inr rfl⟩

theorem AdvancesFrame.whenLegal {ok : Life → Bool} {d : Dev} {W : Word} {s t : State} {r : Result}
    (ht : whenLegal ok d W s r = .next t) (h : r = .next t → AdvancesFrame s t) : AdvancesFrame s t := by
  rcases whenLegal_next _ _ _ _ _ _ ht with ⟨-, hr⟩ | ⟨-, rfl⟩
  · exact h hr
  · exact .raiseFault _ _ s

/-- Every command but ENV_GIE advances the frame: none writes the parameters, the script or `gie`, and none takes a
pending byte away. -/
theorem AdvancesFrame.exec {i : Instr} {s t : State} (hgie : ∀ v, i ≠ .envGie v)
    (hserv : ∀ d k, i ≠ serviceInstr d k) (ht : exec i s = .next t) : AdvancesFrame s t := by
  cases i with
  | configure d port route txmask rxmask => cases ht; exact KeepsFrame.advance (.setDev id)
  | init d baud =>
    refine .whenLegal ht fun hr => ?_
    cases hr
    rw [startDevice_eq]
    have hstart : KeepsFrame s (s.setDev d (startedDevice baud (s.dev d))) := .setDev id
    exact KeepsFrame.advance { hstart with }
  | sendByte d b => exact .whenLegal ht fun hr => by cases hr; exact KeepsFrame.advance { KeepsFrame.refl s with }
  | sendSeq d bytes =>
    refine .whenLegal ht fun hr => ?_
    split at hr <;> cases hr <;> exact KeepsFrame.advance { KeepsFrame.refl s with }
  | readByte d =>
    refine .whenLegal ht fun hr => ?_
    split at hr
    · cases hr; exact KeepsFrame.advance { KeepsFrame.setBuffer s d .rx (ringDrop s.cap (s.dev d).rx) with }
    · cases hr
      have hflags : KeepsFrame s (s.setDev d { s.dev d with err := emptyReadFlags (s.dev d).err }) := .setDev id
      exact KeepsFrame.advance { hflags with }
  | rxCount d => exact .whenLegal ht fun hr => by cases hr; exact KeepsFrame.advance { KeepsFrame.refl s with }
  | close d => exact .whenLegal ht fun hr => by cases hr; exact KeepsFrame.advance { KeepsFrame.refl s with }
  | rbReset d sel => exact .whenLegal ht fun hr => by cases hr; exact (KeepsFrame.setBuffer s d sel _).advance
  | rbInsert d sel b =>
    refine .whenLegal ht fun hr => ?_
    split at hr
    · cases hr; exact .raiseFault _ _ s
    · cases hr; exact (KeepsFrame.setBuffer s d sel _).advance
  | rbRemove d sel =>
    refine .whenLegal ht fun hr => ?_
    split at hr
    · cases hr; exact .raiseFault _ _ s
    · cases hr; exact KeepsFrame.advance { KeepsFrame.setBuffer s d sel (ringDrop s.cap (s.buffer d sel)) with }
  | rbFull d sel => exact .whenLegal ht fun hr => by cases hr; exact KeepsFrame.advance { KeepsFrame.refl s with }
  | rbEmpty d sel => exact .whenLegal ht fun hr => by cases hr; exact KeepsFrame.advance { KeepsFrame.refl s with }
  | envRx d data status =>
    cases hx : receive data status (s.dev d) with
    | some x =>
      rw [exec_envRx_of_some hx] at ht
      cases ht
      exact (KeepsFrame.receive hx).advance
    | none =>
      rw [exec_envRx_of_none hx] at ht
      cases ht
      exact .raiseFault _ _ s
  | envTxDone d => cases ht; exact (KeepsFrame.transmitDone d s).advance
  | envGie v => exact absurd rfl (hgie v)
  | rxc d => exact absurd rfl (hserv d .rxc)
  | dre d => exact absurd rfl (hserv d .dre)

/-- An item advances the frame, or is ENV_GIE: no word is a service step. -/
theorem consumeItem_frame {s t : State} (ht : consumeItem s = .next t) :
    AdvancesFrame s t ∨ ∃ v, nextItem s = some (encEnvGie v) ∧ t = advancePc (eventGie v s) := by
  cases hW : nextItem s with
  | none => simp [consumeItem, hW] at ht
  | some W =>
    rw [consumeItem_of_nextItem hW] at ht
    rcases consumeWord_next ht with ⟨i, hi, hexec⟩ | rfl
    · obtain ⟨hcode, -⟩ := (decodeWord_eq_ok_iff _ _ _).1 hi
      by_cases hgie : ∃ v, i = .envGie v
      · obtain ⟨v, rfl⟩ := hgie
        cases hcode
        cases hexec
        exact .inr ⟨v, rfl, rfl⟩
      · refine .inl (.exec (fun v hv => hgie ⟨v, hv⟩) (fun d k hk => ?_) hexec)
        rw [hk, encode_serviceInstr] at hcode
        cases hcode
    · exact .inl (.raiseFault _ _ s)

/-- Everything a step of any agent can do to the frame: nothing, or advance it by an item; write `gie` by ENV_GIE, as an
item or an event; or take the pending byte of one device by RXC. -/
theorem take_frame {c : Choice} {s t : State} (ht : take c s = .next t) :
    KeepsFrame s t
    ∨ (c = .item ∧ AdvancesFrame s t)
    ∨ (c = .item ∧ ∃ v, nextItem s = some (encEnvGie v) ∧ t = advancePc (eventGie v s))
    ∨ (∃ v, c = .event (.gie v) ∧ t = eventGie v s)
    ∨ ∃ d, c = .rxc d ∧ t = s.setDev d (serviced s.cap (s.dev d)) := by
  cases c with
  | item => exact .inr ((consumeItem_frame ht).imp (fun h => ⟨rfl, h⟩) fun h => .inl ⟨rfl, h⟩)
  | mainline => cases ht; exact .inl (.mainlineStep s)
  | rxc d =>
    have hexec := (exec_rxc d s).symm.trans ht
    cases hexec
    exact .inr (.inr (.inr (.inr ⟨d, rfl, rfl⟩)))
  | dre d =>
    have hexec := (exec_dre d s).symm.trans ht
    cases hexec
    exact .inl (.dre d s)
  | event ev =>
    cases ht
    cases ev with
    | rx d data status =>
      cases hx : receive data status (s.dev d) with
      | some x => rw [openEvent_rx_of_some hx]; exact .inl (.receive hx)
      | none => rw [openEvent_rx_of_none hx]; exact .inl (.raiseFault _ _ s)
    | txDone d => exact .inl (.transmitDone d s)
    | gie v => exact .inr (.inr (.inr (.inl ⟨v, rfl, rfl⟩)))

/-- Settles O50: by what the step does to the frame (`take_frame`). -/
theorem stepKeepsParametersScriptAndOrder : Obligations.StepKeepsParametersScriptAndOrder := by
  intro c s t ht
  rcases take_frame ht with h | ⟨hitem, u, h, rfl | rfl⟩ | ⟨hitem, v, hW, rfl⟩ | ⟨v, hev, rfl⟩ | ⟨d, -, rfl⟩
  · exact ⟨h.cfg, h.script, .inl h.pc, .inl h.gie⟩
  · exact ⟨h.cfg, h.script, .inl h.pc, .inl h.gie⟩
  · exact ⟨h.cfg, h.script, .inr ⟨congrArg (· + 1) h.pc, hitem⟩, .inl h.gie⟩
  · exact ⟨rfl, rfl, .inr ⟨rfl, hitem⟩, .inr (.inr ⟨hitem, v, hW⟩)⟩
  · exact ⟨rfl, rfl, .inl rfl, .inr (.inl ⟨v, hev⟩)⟩
  · exact ⟨rfl, rfl, .inl rfl, .inl rfl⟩

/-! ## A pending byte is taken in a fair run (R324) -/

/-- A pending byte stays pending over every step but RXC of its device. -/
theorem hwRxp_of_take {c : Choice} {d : Dev} {s t : State} (ht : take c s = .next t) (hne : c ≠ .rxc d)
    (hpending : (s.dev d).hwRxp = true) : (t.dev d).hwRxp = true := by
  rcases take_frame ht with h | ⟨-, u, h, rfl | rfl⟩ | ⟨-, v, -, rfl⟩ | ⟨v, -, rfl⟩ | ⟨e, rfl, rfl⟩
  · exact h.pending d hpending
  · exact h.pending d hpending
  · exact h.pending d hpending
  · exact hpending
  · exact hpending
  · have he : e ≠ d := fun h => hne (h ▸ rfl)
    rwa [dev_setDev_ne _ _ _ _ he]

section FairRun

variable {r : Run} {d : Dev} {n : Nat}

/-- The parameters are those of the run. -/
theorem Run.Valid.cfg (hv : r.Valid) {m : Nat} (hm : n ≤ m) : (r.state m).cfg = (r.state n).cfg := by
  induction m, hm using Nat.le_induction with
  | base => rfl
  | succ m _ ih =>
    obtain ⟨hcfg, -⟩ := stepKeepsParametersScriptAndOrder _ _ _ (hv m).2
    exact hcfg.trans ih

/-- A pending byte stays pending as long as RXC of its device is not taken. -/
theorem Run.Valid.hwRxp (hv : r.Valid) (hnone : ∀ m, n ≤ m → r.choice m ≠ .rxc d)
    (hpending : ((r.state n).dev d).hwRxp = true) {m : Nat} (hm : n ≤ m) : ((r.state m).dev d).hwRxp = true := by
  induction m, hm using Nat.le_induction with
  | base => exact hpending
  | succ m hm ih => exact hwRxp_of_take (hv m).2 (hnone m hm) ih

end FairRun

/-- Settles O58: were RXC of the device never taken, the byte would stay pending (`Run.Valid.hwRxp`) and so RXC enabled
from then on, which a fair run does not leave untaken. -/
theorem pendingByteIsEventuallyServiced : Obligations.PendingByteIsEventuallyServiced := by
  intro r d n hv hfair hd hkeep hpending
  by_contra hnever
  have hnone : ∀ m, n ≤ m → r.choice m ≠ .rxc d := fun m hm hc => hnever ⟨m, hm, hc⟩
  have henabled : ∀ m, n ≤ m → enabled (.rxc d) (r.state m) = true := by
    intro m hm
    obtain ⟨hgie, hrxcie, hrxen⟩ := hkeep m hm
    have hdm : d.val < (r.state m).cfg.ndev := by rwa [hv.cfg hm]
    exact (enabled_rxc_iff hdm).2
      ⟨faultCode_of_enabled (hv m).1, hgie, hrxcie, hrxen, hv.hwRxp hnone hpending hm⟩
  exact hnever (hfair (.rxc d) trivial n henabled)

end Sys2Proof.Machine
end

section
/-! PROOFS. Which words decoding refuses (60_exceptions.md R342). -/

namespace Sys2Proof.Machine

/-! ## OP and reserved bits, row by row -/

/-- Every OP but 7 is that of a row of the operation map. -/
theorem exists_opNumber {n : Nat} (hn : n < 16) (h7 : n ≠ 7) : ∃ op, opNumber op = n := by
  interval_cases n
  exacts [⟨.configure, rfl⟩, ⟨.init, rfl⟩, ⟨.sendByte, rfl⟩, ⟨.sendSeq, rfl⟩, ⟨.readByte, rfl⟩, ⟨.rxCount, rfl⟩,
    ⟨.close, rfl⟩, absurd rfl h7, ⟨.rbReset, rfl⟩, ⟨.rbInsert, rfl⟩, ⟨.rbRemove, rfl⟩, ⟨.rbFull, rfl⟩,
    ⟨.rbEmpty, rfl⟩, ⟨.envRx, rfl⟩, ⟨.envTxDone, rfl⟩, ⟨.envGie, rfl⟩]

theorem opNumber_ne_seven (op : Op) : opNumber op ≠ 7 := by cases op <;> decide

theorem opNumber_inj {op op' : Op} : opNumber op = opNumber op' ↔ op = op' := by
  obtain ⟨r, hr, rfl⟩ := opTable_op op
  obtain ⟨r', hr', rfl⟩ := opTable_op op'
  exact ⟨fun h => congrArg Row.op (opTable_number r hr r' hr' h), congrArg opNumber⟩

/-- OP tells the operation of a word whose OP is that of a row. -/
theorem field_op_eq_iff {op : Op} {W : Word} (h : W.toNat % 16 = opNumber op) (op' : Op) :
    field 0 4 W = BitVec.ofNat 4 (opNumber op') ↔ op = op' := by
  have hlt : opNumber op' < 16 := by cases op' <;> decide
  rw [← BitVec.toNat_inj, field_toNat, BitVec.toNat_ofNat, ← opNumber_inj, ← h]
  omega

theorem getLsbD_seven_eq_false_iff (W : Word) : W.getLsbD 7 = false ↔ W.toNat / 128 % 2 = 0 := by
  rw [← BitVec.testBit_toNat, Nat.testBit_eq_decide_div_mod_eq]
  simp

theorem field_eq_zero_iff (lo len : Nat) (W : Word) : field lo len W = 0#len ↔ W.toNat / 2 ^ lo % 2 ^ len = 0 := by
  rw [← BitVec.toNat_inj, field_toNat]
  simp

theorem devField_eq_zero_iff (W : Word) : devField W = 0 ↔ W.toNat / 16 % 8 = 0 := by
  rw [Fin.ext_iff, devField_val]
  rfl

/-- The reserved-zero bits that the formats fix are the bits beyond OP that the row of the word's OP asks to be 0
(30_encoding.md R110 to R112). -/
theorem reservedZero_iff_rowFields {op : Op} {W : Word} (h : W.toNat % 16 = opNumber op) :
    reservedZero W = true ↔ RowFields op W.toNat := by
  have hop : (field 0 4 W).toNat = opNumber op := by simpa using h
  cases op <;> simp only [opNumber] at h hop <;>
    simp only [reservedZero, hop, highZero, RowFields, Nat.reduceEqDiff, Nat.reduceLeDiff, if_true, if_false,
      Bool.and_eq_true, beq_iff_eq, decide_eq_true_eq, getLsbD_seven_eq_false_iff, field_eq_zero_iff,
      devField_eq_zero_iff] <;>
    omega

/-! ## Refusal -/

/-- A word whose OP is that of a row decodes exactly where it has the row's fields, its device exists and the values
SEND_SEQ allows. -/
theorem exists_decodeWord_iff {op : Op} {ndev : Nat} {W : Word} (h : W.toNat % 16 = opNumber op) :
    (∃ i, decodeWord ndev W = .ok i) ↔
      RowFields op W.toNat ∧ (op = .envGie ∨ W.toNat / 16 % 8 < ndev) ∧
        (op = .sendSeq → W.toNat / 256 % 8 ≠ 7 ∧ seqUnusedZero W = true) := by
  constructor
  · rintro ⟨i, hi⟩
    obtain ⟨op', hfields, hdev, hseq, -⟩ := fields_of_decodeWord ndev W i hi
    obtain rfl : op' = op := opNumber_inj.1 ((rowFields_op _ _ hfields).symm.trans h)
    exact ⟨hfields, hdev, hseq⟩
  · rintro ⟨hfields, hdev, hseq⟩
    exact ⟨_, decodeWord_of_fields ndev op W hfields hdev hseq⟩

/-- No word with the reserved OP decodes. -/
theorem decodeWord_ne_ok_of_seven {ndev : Nat} {W : Word} (h7 : W.toNat % 16 = 7) (i : Instr) :
    decodeWord ndev W ≠ .ok i := by
  intro hi
  obtain ⟨op, hfields, -⟩ := fields_of_decodeWord ndev W i hi
  exact opNumber_ne_seven op ((rowFields_op _ _ hfields).symm.trans h7)

theorem exists_error_iff {α β : Type} (x : Except α β) : (∃ e, x = .error e) ↔ ¬ ∃ a, x = .ok a := by
  cases x <;> simp

/-- The causes of R342 beside the reserved OP, for a word whose OP is that of a row. -/
theorem illegalWord_iff {op : Op} {ndev : Nat} {W : Word} (h : W.toNat % 16 = opNumber op) :
    IllegalWord ndev W ↔
      ¬ (RowFields op W.toNat ∧ (op = .envGie ∨ W.toNat / 16 % 8 < ndev) ∧
        (op = .sendSeq → W.toNat / 256 % 8 ≠ 7 ∧ seqUnusedZero W = true)) := by
  have h7 : field 0 4 W ≠ 7#4 := by
    intro h7
    have hop : W.toNat % 16 = 7 := by simpa using congrArg BitVec.toNat h7
    exact opNumber_ne_seven op (h.symm.trans hop)
  have hgie : field 0 4 W = 0xF#4 ↔ op = .envGie := field_op_eq_iff h .envGie
  have hsend : field 0 4 W = 3#4 ↔ op = .sendSeq := field_op_eq_iff h .sendSeq
  have hreserved : reservedZero W = false ↔ ¬ RowFields op W.toNat := by
    rw [← reservedZero_iff_rowFields h, Bool.not_eq_true]
  have hunused : (∃ j < 6, seqCount W ≤ j ∧ seqByte W j ≠ 0#8) ↔ ¬ seqUnusedZero W = true := by
    simp only [seqUnusedZero_iff, not_forall, exists_prop, ne_eq]
  rw [IllegalWord, or_iff_right h7, hreserved, hunused, hsend, Ne, hgie, seqCount_eq, devField_val, ← not_lt]
  rw [not_and_or, not_and_or, not_or, Classical.not_imp, not_and_or, not_not, and_or_left]

/-- Settles O5: no word with the reserved OP decodes, and by the row of its OP a word decodes (`exists_decodeWord_iff`)
exactly where no cause applies (`illegalWord_iff`). -/
theorem wordIsRefusedExactlyForTheListedCauses : Obligations.WordIsRefusedExactlyForTheListedCauses := by
  intro ndev W
  rw [exists_error_iff]
  by_cases h7 : W.toNat % 16 = 7
  · have hfield : field 0 4 W = 7#4 := field_eq (by simpa using h7)
    exact ⟨fun _ => .inl hfield, fun _ ⟨i, hi⟩ => decodeWord_ne_ok_of_seven h7 i hi⟩
  · obtain ⟨op, hop⟩ := exists_opNumber (Nat.mod_lt W.toNat (by decide)) h7
    rw [exists_decodeWord_iff hop.symm, illegalWord_iff hop.symm]

end Sys2Proof.Machine
end

section
/-! PROOFS. Any two service steps commute (60_exceptions.md R352). -/

namespace Sys2Proof.Machine

/-! ## What a service step leaves of the other sources -/

/-- The condition of a source, but for the fault register (43_isr.md R280, R290). -/
def sourcePending (gie : Bool) (D : Device) : Kind → Bool
  | .rxc => rxcPending gie D
  | .dre => drePending gie D

theorem enabled_serviceChoice_iff (d : Dev) (k : Kind) (s : State) :
    enabled (serviceChoice d k) s = true ↔
      s.faultCode = 0#8 ∧ d.val < s.cfg.ndev ∧ sourcePending s.gie (s.dev d) k = true := by
  cases k <;> simp [enabled, serviceChoice, sourcePending]

/-- RXC reads and writes no flag of the transmit side, and DRE none of the receive side. -/
theorem sourcePending_serviceRecord {k k' : Kind} (h : k ≠ k') (cap : Nat) (d : Dev) (gie : Bool) (D : Device) :
    sourcePending gie (serviceRecord cap d D k) k' = sourcePending gie D k' := by
  cases k with
  | rxc =>
    cases k' with
    | rxc => exact absurd rfl h
    | dre => simp only [sourcePending, serviceRecord, serviced]; split <;> rfl
  | dre =>
    cases k' with
    | rxc => simp only [sourcePending, serviceRecord, drained]; split <;> rfl
    | dre => exact absurd rfl h

/-- A service step keeps every other one as enabled as it was. -/
theorem enabled_serviceChoice_of_exec {d e : Dev} {k k' : Kind} {s t : State} (h : (d, k) ≠ (e, k'))
    (ht : exec (serviceInstr d k) s = .next t) :
    enabled (serviceChoice e k') t = true ↔ enabled (serviceChoice e k') s = true := by
  rw [exec_serviceInstr] at ht
  cases ht
  rw [enabled_serviceChoice_iff, enabled_serviceChoice_iff, setDev_faultCode, setDev_cfg, setDev_gie]
  by_cases hd : d = e
  · subst hd
    have hk : k ≠ k' := fun hk => h (congrArg (Prod.mk d) hk)
    rw [dev_setDev_same, sourcePending_serviceRecord hk]
  · rw [dev_setDev_ne _ _ _ _ hd]

/-! ## The order of two service steps -/

/-- RXC and DRE of one device write different fields of its record, and neither reads what the other writes. -/
theorem serviced_drained (cap : Nat) (b : Byte) (D : Device) :
    serviced cap (drained cap b D) = drained cap b (serviced cap D) := by
  by_cases hrx : D.rx.cnt < cap <;> by_cases htx : 0 < D.tx.cnt <;> simp [serviced, drained, hrx, htx]

theorem serviceRecord_comm (cap : Nat) (d : Dev) (D : Device) (k k' : Kind) :
    serviceRecord cap d (serviceRecord cap d D k) k' = serviceRecord cap d (serviceRecord cap d D k') k := by
  have hcomm : serviceRecord cap d (serviceRecord cap d D .dre) .rxc =
      serviceRecord cap d (serviceRecord cap d D .rxc) .dre := by
    simp only [serviceRecord, serviced_tx, serviced_drained]
  cases k with
  | rxc =>
    cases k' with
    | rxc => rfl
    | dre => exact hcomm.symm
  | dre =>
    cases k' with
    | rxc => exact hcomm
    | dre => rfl

/-- Two service steps reach one state in either order: on two devices they write different records, on one device the
same record in either order. -/
theorem exec_serviceInstr_comm {d e : Dev} {k k' : Kind} {s t u : State} (ht : exec (serviceInstr d k) s = .next t)
    (hu : exec (serviceInstr e k') s = .next u) : exec (serviceInstr e k') t = exec (serviceInstr d k) u := by
  rw [exec_serviceInstr] at ht hu
  cases ht
  cases hu
  simp only [exec_serviceInstr, setDev_cap]
  by_cases hd : d = e
  · subst hd
    simp only [dev_setDev_same, setDev_setDev, serviceRecord_comm _ _ _ k k']
  · rw [dev_setDev_ne _ _ _ _ hd, dev_setDev_ne _ _ _ _ (Ne.symm hd), setDev_comm _ _ _ _ _ hd]

/-- Settles O33: each stays enabled (`enabled_serviceChoice_of_exec`), and the orders meet
(`exec_serviceInstr_comm`). -/
theorem serviceStepsCommute : Obligations.ServiceStepsCommute := by
  intro s d e k k' hne hd he
  obtain ⟨t, ht⟩ := exec_total (serviceInstr d k) s
  obtain ⟨u, hu⟩ := exec_total (serviceInstr e k') s
  obtain ⟨v, hv⟩ := exec_total (serviceInstr e k') t
  exact ⟨t, u, v, ht, hu, (enabled_serviceChoice_of_exec hne ht).2 he,
    (enabled_serviceChoice_of_exec hne.symm hu).2 hd, hv, (exec_serviceInstr_comm ht hu).symm.trans hv⟩

end Sys2Proof.Machine
end

section
/-! PROOFS. Faults: the legality table as one check before every command, the priority of the faults of one word, and
that a fault is precise and final (60_exceptions.md R340 to R345). -/

namespace Sys2Proof.Machine

/-! ## Every command checks its legality first (R345) -/

/-- What a command does to the fault register where it is legal: it leaves it, or raises a fault of its own, one of the
codes 3 to 5 (R341). -/
inductive OwnEffect (W : Word) (s : State) : Result → Prop
  | keep {t : State} (h : t.faultCode = s.faultCode) : OwnEffect W s (.next t)
  | raise (c : FaultCode) (h : 3 ≤ (faultNumber c).toNat) : OwnEffect W s (.next (raiseFault c W s))

theorem OwnEffect.ite {p : Prop} [Decidable p] {W : Word} {s : State} {r r' : Result} (h : OwnEffect W s r)
    (h' : OwnEffect W s r') : OwnEffect W s (if p then r else r') := by
  split
  · exact h
  · exact h'

theorem setBuffer_faultCode (s : State) (d : Dev) (sel : Sel) (B : RingBuffer) :
    (s.setBuffer d sel B).faultCode = s.faultCode := by
  cases sel <;> rfl

theorem whenLegal_congr {ok ok' : Life → Bool} (h : ∀ l, ok l = ok' l) (d : Dev) (W : Word) (s : State) (r : Result) :
    whenLegal ok d W s r = whenLegal ok' d W s r :=
  congrArg (whenLegal · d W s r) (funext h)

theorem legalInit_eq_decide (l : Life) : legalInit l = decide (l = .conf ∨ l = .closed) := by cases l <;> rfl

theorem legalRun_eq_decide (l : Life) : legalRun l = decide (l = .run) := by cases l <;> rfl

theorem legalRead_eq_decide (l : Life) : legalRead l = decide (l = .run ∨ l = .closed) := by cases l <;> rfl

theorem legalTestPort_eq_decide (l : Life) : legalTestPort l = decide (l ≠ .run) := by cases l <;> rfl

/-- A command with a device operand is the check of its row of the legality table, and behind it an effect of its own;
one that is legal everywhere passes the check. -/
theorem exec_eq_whenLegal {i : Instr} {d : Dev} {W : Word} (s : State) (hd : i.dev? = some d)
    (hW : encode i = .word W) : ∃ r, exec i s = whenLegal (legalIn i) d W s r ∧ OwnEffect W s r := by
  cases i <;> cases hW <;> cases hd
  case configure => exact ⟨_, (whenLegal_ok _ _ _ _ _ rfl).symm, .keep rfl⟩
  case init => exact ⟨_, whenLegal_congr legalInit_eq_decide _ _ _ _, .keep rfl⟩
  case sendByte => exact ⟨_, whenLegal_congr legalRun_eq_decide _ _ _ _, .keep rfl⟩
  case sendSeq => exact ⟨_, whenLegal_congr legalRun_eq_decide _ _ _ _, .ite (.keep rfl) (.keep rfl)⟩
  case readByte => exact ⟨_, whenLegal_congr legalRead_eq_decide _ _ _ _, .ite (.keep rfl) (.keep rfl)⟩
  case rxCount => exact ⟨_, whenLegal_congr legalRead_eq_decide _ _ _ _, .keep rfl⟩
  case close => exact ⟨_, whenLegal_congr legalRun_eq_decide _ _ _ _, .keep rfl⟩
  case rbReset =>
    exact ⟨_, whenLegal_congr legalTestPort_eq_decide _ _ _ _, .keep (setBuffer_faultCode _ _ _ _)⟩
  case rbInsert =>
    exact ⟨_, whenLegal_congr legalTestPort_eq_decide _ _ _ _,
      .ite (.raise .rbInsertFull (by decide)) (.keep (setBuffer_faultCode _ _ _ _))⟩
  case rbRemove =>
    exact ⟨_, whenLegal_congr legalTestPort_eq_decide _ _ _ _,
      .ite (.raise .rbRemoveEmpty (by decide)) (.keep (setBuffer_faultCode _ _ _ _))⟩
  case rbFull => exact ⟨_, whenLegal_congr legalTestPort_eq_decide _ _ _ _, .keep rfl⟩
  case rbEmpty => exact ⟨_, whenLegal_congr legalTestPort_eq_decide _ _ _ _, .keep rfl⟩
  case envRx data status =>
    refine ⟨_, (whenLegal_ok _ _ _ _ _ rfl).symm, ?_⟩
    cases hx : receive data status (s.dev d) with
    | some x => rw [exec_envRx_of_some hx]; exact .keep rfl
    | none => rw [exec_envRx_of_none hx]; exact .raise .envRxOverrun (by decide)
  case envTxDone => exact ⟨_, (whenLegal_ok _ _ _ _ _ rfl).symm, .keep rfl⟩

/-- Where the table says BAD, a command is BAD_STATE and nothing else. -/
theorem exec_of_bad {i : Instr} {d : Dev} {W : Word} {s : State} (hfault : s.faultCode = 0#8) (hd : i.dev? = some d)
    (hW : encode i = .word W) (hbad : legalIn i (s.dev d).life = false) :
    exec i s = .next { s with faultCode := 2#8, faultWord := W } := by
  obtain ⟨r, hr, -⟩ := exec_eq_whenLegal s hd hW
  exact hr.trans (whenLegal_badState W r hbad hfault)

/-- Where the table says ok, a command does its own. -/
theorem ownEffect_of_legal {i : Instr} {d : Dev} {W : Word} {s : State} (hd : i.dev? = some d)
    (hW : encode i = .word W) (hok : legalIn i (s.dev d).life = true) : OwnEffect W s (exec i s) := by
  obtain ⟨r, hr, hown⟩ := exec_eq_whenLegal s hd hW
  rwa [hr, whenLegal_ok _ _ _ _ _ hok]

theorem OwnEffect.faultCode_ne_badState {W : Word} {s t : State} (h : OwnEffect W s (.next t))
    (hfault : s.faultCode = 0#8) : t.faultCode ≠ 2#8 := by
  cases h with
  | keep h => rw [h, hfault]; decide
  | raise c h =>
    rw [raiseFault_of_none _ _ _ hfault]
    show faultNumber c ≠ 2#8
    intro hc
    rw [hc] at h
    exact absurd h (by decide)

/-- ENV_GIE, the one instruction without a device, raises no fault. -/
theorem exec_faultCode_of_no_dev {i : Instr} {s t : State} (hd : i.dev? = none) (ht : exec i s = .next t) :
    t.faultCode = s.faultCode := by
  cases i <;> cases hd
  cases ht
  rfl

/-- Settles O38: by the table's entry (`exec_of_bad`, `ownEffect_of_legal`). -/
theorem badStateIsRaisedExactlyByTheLegalityTable : Obligations.BadStateIsRaisedExactlyByTheLegalityTable := by
  intro i W s hW hfault
  refine ⟨fun d hd => ⟨exec_of_bad hfault hd hW, fun hok t ht => ?_⟩,
    fun hd t ht => (exec_faultCode_of_no_dev hd ht).trans hfault⟩
  have hown := ownEffect_of_legal hd hW hok
  rw [ht] at hown
  exact hown.faultCode_ne_badState hfault

/-! ## The faults of one word (R343) -/

theorem consumeWord_of_illegal {W : Word} {s : State} {e : DecodeError} (hfault : s.faultCode = 0#8)
    (h : decodeWord s.cfg.ndev W = .error e) : consumeWord W s = .next { s with faultCode := 1#8, faultWord := W } := by
  rw [consumeWord_of_error h, raiseFault_of_none _ _ _ hfault]
  rfl

theorem consumeWord_of_bad {W : Word} {s : State} {i : Instr} {d : Dev} (hfault : s.faultCode = 0#8)
    (hi : decodeWord s.cfg.ndev W = .ok i) (hd : i.dev? = some d) (hbad : legalIn i (s.dev d).life = false) :
    consumeWord W s = .next { s with faultCode := 2#8, faultWord := W } :=
  (consumeWord_of_ok hi).trans (exec_of_bad hfault hd ((decodeWord_eq_ok_iff _ _ _).1 hi).1 hbad)

/-- Settles O39: decoding is asked first, legality after it, and a code above theirs leaves neither. -/
theorem faultsOfOneWordHaveTheirPriority : Obligations.FaultsOfOneWordHaveTheirPriority := by
  intro W s hfault
  refine ⟨fun e he => consumeWord_of_illegal hfault he,
    fun i d hi hd hbad => consumeWord_of_bad hfault hi hd hbad, fun t ht hcode => ?_⟩
  cases hdecode : decodeWord s.cfg.ndev W with
  | error e =>
    rw [consumeWord_of_illegal hfault hdecode] at ht
    cases ht
    exact absurd hcode (by decide : ¬ 3 ≤ (1#8).toNat)
  | ok i =>
    refine ⟨i, rfl, fun d hd => ?_⟩
    by_contra hbad
    rw [consumeWord_of_bad hfault hdecode hd (Bool.eq_false_iff.2 hbad)] at ht
    cases ht
    exact absurd hcode (by decide : ¬ 3 ≤ (2#8).toNat)

/-! ## Precise and final (R340, R341) -/

/-- From `s` to `t` the fault register is left, or a fault is raised and nothing else happens. -/
def KeepsOrRaises (s t : State) : Prop := t.faultCode = s.faultCode ∨ ∃ c W, t = raiseFault c W s

theorem OwnEffect.keepsOrRaises {W : Word} {s t : State} (h : OwnEffect W s (.next t)) : KeepsOrRaises s t := by
  cases h with
  | keep h => exact .inl h
  | raise c h => exact .inr ⟨c, W, rfl⟩

theorem KeepsOrRaises.exec_serviceInstr {d : Dev} {k : Kind} {s t : State}
    (ht : exec (serviceInstr d k) s = .next t) : KeepsOrRaises s t := by
  rw [Machine.exec_serviceInstr] at ht
  cases ht
  exact .inl rfl

theorem KeepsOrRaises.exec_command {i : Instr} {W : Word} {s t : State} (hW : encode i = .word W)
    (ht : exec i s = .next t) : KeepsOrRaises s t := by
  cases hd : i.dev? with
  | none => exact .inl (exec_faultCode_of_no_dev hd ht)
  | some d =>
    obtain ⟨r, hr, hown⟩ := exec_eq_whenLegal s hd hW
    rcases whenLegal_next _ _ _ _ _ _ (hr.symm.trans ht) with ⟨-, rfl⟩ | ⟨-, rfl⟩
    · exact hown.keepsOrRaises
    · exact .inr ⟨_, _, rfl⟩

theorem KeepsOrRaises.consumeItem {s t : State} (ht : consumeItem s = .next t) : KeepsOrRaises s t := by
  cases hW : nextItem s with
  | none => simp [Machine.consumeItem, hW] at ht
  | some W =>
    rw [consumeItem_of_nextItem hW] at ht
    rcases consumeWord_next ht with ⟨i, hi, hexec⟩ | rfl
    · exact .exec_command ((decodeWord_eq_ok_iff _ _ _).1 hi).1 hexec
    · exact .inr ⟨_, _, rfl⟩

/-- No mainline continuation raises a fault (R341). -/
theorem mainlineStep_faultCode (s : State) : (mainlineStep s).faultCode = s.faultCode := by
  unfold mainlineStep
  cases s.mphase with
  | idle => rfl
  | sendWait => rfl
  | seq =>
    show (sendSeqStep s).faultCode = s.faultCode
    unfold sendSeqStep
    split <;> rfl
  | closeDrain => rfl
  | closeHw => rfl
  | closeSettle => rfl

theorem KeepsOrRaises.openEvent (ev : EnvEvent) (s : State) : KeepsOrRaises s (openEvent ev s) := by
  cases ev with
  | rx d data status =>
    cases hx : receive data status (s.dev d) with
    | some x => rw [openEvent_rx_of_some hx]; exact .inl rfl
    | none => rw [openEvent_rx_of_none hx]; exact .inr ⟨_, _, rfl⟩
  | txDone d => exact .inl rfl
  | gie v => exact .inl rfl

theorem KeepsOrRaises.take {c : Choice} {s t : State} (ht : take c s = .next t) : KeepsOrRaises s t := by
  cases c with
  | item => exact .consumeItem ht
  | mainline => cases ht; exact .inl (mainlineStep_faultCode s)
  | rxc d => exact .exec_serviceInstr (k := .rxc) ht
  | dre d => exact .exec_serviceInstr (k := .dre) ht
  | event ev => cases ht; exact .openEvent ev s

/-- With a fault held the machine stops as FAULT, whatever the schedule says: no step is enabled. -/
theorem step_of_fault {s : State} (h : s.faultCode ≠ 0#8) : step s = .fault .faulted := by
  rcases step_cases (Eq.refl (step s)) with ⟨c, rest, hc, -⟩ | ⟨hstop, -⟩
  · exact absurd (faultCode_of_enabled hc) h
  · rw [hstop, endReason_of_fault h]

/-- Settles O40: a step of any agent leaves the fault register or raises a fault and does nothing else
(`KeepsOrRaises.take`), and nothing is enabled after that (`enabled_faulted`). -/
theorem faultsArePreciseAndFinal : Obligations.FaultsArePreciseAndFinal := by
  refine ⟨fun s t hstep hfault hraised => ?_, fun s h => ⟨enabled_faulted h, step_of_fault h⟩⟩
  rcases step_cases hstep with ⟨c, rest, -, htake⟩ | ⟨hstop, -⟩
  · rcases KeepsOrRaises.take htake.symm with hkeep | ⟨code, W, rfl⟩
    · exact absurd (hkeep.trans hfault) hraised
    · rw [raiseFault_of_none code W { s with sched := rest } hfault]
      exact ⟨rfl, faultNumber_range code⟩
  · cases hstop

/-! ## No meaning stops -/

/-- Settles O42: each meaning is a next state (`exec_total`), and a step is one or names the end of the run
(`step_next_or_stop`). -/
theorem everyInstructionAnswersANextState : Obligations.EveryInstructionAnswersANextState := by
  refine ⟨exec_total, fun s r hrefused => ?_⟩
  rcases step_next_or_stop s with ⟨t, ht⟩ | ⟨hstop, -⟩
  · rw [ht] at hrefused
    cases hrefused
  · rw [hstop] at hrefused
    cases hrefused

end Sys2Proof.Machine
end

section
/-! PROOFS. The machine at power-on against the reset table (70_reset_and_hazards.md R380). -/

namespace Sys2Proof.Machine

/-- A port that no store has reached has direction register 0 (R51). -/
theorem gpioRead_nil (p : Byte) : gpioRead [] p = 0x00#8 := rfl

/-- Settles O41: every device record is the one of the reset table (`dev_powerOn`), no pin-direction register has been
written (`gpioRead_nil`), and the definition of power-on gives the other fields. -/
theorem powerOnHasTheResetTable : Obligations.PowerOnHasTheResetTable := by
  intro c S s
  have hdev : ∀ d, s.dev d = Device.reset := dev_powerOn c S
  refine ⟨fun d => ?devices, rfl, gpioRead_nil, rfl, rfl, rfl, rfl, rfl, rfl, rfl, rfl⟩
  case devices =>
    rw [hdev d]
    decide

end Sys2Proof.Machine
end
